-- ==== Sys2Proof/Word.lean ====
section
/-! DEFINITION. The widths the spec names: bytes of a frame, 32-bit register words, 64-bit payload double-words, and the
frame itself (rule R32: the raw transfer buffer, here the byte sequence alone). -/

namespace Sys2Proof

/-- One byte of a frame, or one byte lane of a register (rules R6, R52). -/
abbrev Byte := BitVec 8

/-- A 32-bit unit, the access granularity of a register file (rule R55). -/
abbrev Word := BitVec 32

/-- A 64-bit unit, the payload granularity of the packet format (rule R51). -/
abbrev DWord := BitVec 64

/-- A wire frame: a finite byte sequence, byte 0 first on the wire (rules R6, R32). -/
abbrev Frame := List Byte

end Sys2Proof
end

