-- ==== Sys2Proof/Config.lean ====
section
/-! DEFINITION. The implementation parameters of rules R4 and R5. They are arguments of the model: `State` carries one
`Params` that no step changes (rule R281), so that statements hold for every legal choice. The spec leaves no value open
after an instruction, so this file declares no free value. -/

namespace Sys2Proof

/-- The parameters of rule R4. `switchId` is read by no rule (decision D34). -/
structure Params where
  /-- `N_DEST`: number of mapping-table entries. -/
  nDest : Nat
  /-- `N_PORTS`: number of implemented egress ports. -/
  nPorts : Nat
  /-- `MAX_FRAME_BYTES`: largest wire frame, in bytes. -/
  maxFrameBytes : Nat
  /-- `MAX_PAYLOAD_DW`: largest payload, in double-words. -/
  maxPayloadDw : Nat
  /-- `MAP_BASE`: byte address of mapping-table entry 0. -/
  mapBase : Nat
  /-- `NR_MASK`: the non-reserved bits of a mapping-table entry. -/
  nrMask : Word
  /-- `SWITCH_ID`: an instance identifier. -/
  switchId : Nat
  deriving DecidableEq, Repr

/-- The constraints of rule R5. -/
abbrev Params.Legal (p : Params) : Prop :=
  1 ≤ p.nPorts ∧ p.nPorts ≤ 8 ∧ 1 ≤ p.nDest ∧ p.mapBase % 4 = 0 ∧ p.mapBase + 4 * p.nDest ≤ 2 ^ 24 ∧
    15 + 8 * p.maxPayloadDw ≤ p.maxFrameBytes

/-- The reference values of rule R4. `nPorts` and `mapBase` are OPEN there; 4 and 0 are the values of the spec's test
vectors. DESIGN CHOICE, unsafe (log entry 2): no statement rests on these two. -/
def Params.reference : Params where
  nDest := 256
  nPorts := 4
  maxFrameBytes := 256
  maxPayloadDw := 30
  mapBase := 0
  nrMask := 0xFF000007
  switchId := 0

end Sys2Proof
end

