-- ==== Sys2Proof/Syntax.lean ====
section
/-! DEFINITION. The 13 packet kinds as instructions (one constructor per row of the opcode table), the logical Packet
record of rule R30, and the names the codec uses: layouts, fields, payload rules and error reasons. -/

namespace Sys2Proof

/-- The device-ID width class a transport type names (rule R83). -/
inductive IdWidth where
  | w8 | w16 | w32
  deriving DecidableEq, Repr

/-- The operands every kind carries: the common header of rules R82 to R84, less the format type. An ID narrower than 32
bits stands in the low bits. -/
structure Header where
  prio : BitVec 2
  width : IdWidth
  destId : BitVec 32
  srcId : BitVec 32
  deriving DecidableEq, Repr

/-- A byte span (glossary, rule R97): how many bytes, and at which byte offset in the first double-word. -/
structure Span where
  rdwrBytes : Nat
  dwOffset : Nat
  deriving DecidableEq, Repr

/-- The packet kinds of rule R86, each with the operands of its own rule (R130 to R142). -/
inductive Instr where
  /-- R130, a read request. -/
  | nread (h : Header) (srcTid : BitVec 8) (address : BitVec 29) (xamsbs : BitVec 2) (span : Span)
  /-- R131, a write request with no response expected. -/
  | nwrite (h : Header) (srcTid : BitVec 8) (address : BitVec 29) (xamsbs : BitVec 2) (span : Span) (payload : List DWord)
  /-- R132, a write request with a response expected. -/
  | nwriteR (h : Header) (srcTid : BitVec 8) (address : BitVec 29) (xamsbs : BitVec 2) (span : Span) (payload : List DWord)
  /-- R133, a streaming write. -/
  | swrite (h : Header) (address : BitVec 29) (xamsbs : BitVec 2) (payload : List DWord)
  /-- R134, a maintenance read request. -/
  | maintRdReq (h : Header) (srcTid : BitVec 8) (hopCount : BitVec 8) (configOffset : BitVec 21) (span : Span)
  /-- R135, a maintenance write request. -/
  | maintWrReq (h : Header) (srcTid : BitVec 8) (hopCount : BitVec 8) (configOffset : BitVec 21) (span : Span) (payload : List DWord)
  /-- R136, a maintenance read response. -/
  | maintRdResp (h : Header) (status : BitVec 4) (targetTid : BitVec 8) (hopCount : BitVec 8) (payload : List DWord)
  /-- R137, a maintenance write response. -/
  | maintWrResp (h : Header) (status : BitVec 4) (targetTid : BitVec 8) (hopCount : BitVec 8)
  /-- R138, a doorbell. -/
  | doorbell (h : Header) (srcTid : BitVec 8) (info : BitVec 16)
  /-- R139, one segment of a message. -/
  | message (h : Header) (msgLen : BitVec 4) (segSize : BitVec 4) (letter : BitVec 2) (mbox : BitVec 2) (msgSeg : BitVec 4) (payload : List DWord)
  /-- R140, a response without data. -/
  | respNodata (h : Header) (status : BitVec 4) (targetTid : BitVec 8)
  /-- R141, a response to a message segment. -/
  | respMsg (h : Header) (status : BitVec 4) (letter : BitVec 2) (mbox : BitVec 2) (msgSeg : BitVec 4)
  /-- R142, a response with data. -/
  | respData (h : Header) (status : BitVec 4) (targetTid : BitVec 8) (payload : List DWord)
  deriving DecidableEq, Repr

/-- The kind names of rule R86. -/
inductive Kind where
  | nread | nwrite | nwriteR | swrite | maintRdReq | maintWrReq | maintRdResp | maintWrResp
  | doorbell | message | respNodata | respMsg | respData
  deriving DecidableEq, Repr

/-- The layouts of rules R88 to R95. -/
inductive Layout where
  | req | sw | mreq | mresp | db | msg | resp | respm
  deriving DecidableEq, Repr

/-- The payload rules of rule R99: no payload, length from the span, length from the frame. -/
inductive PayloadRule where
  | noPayload | span | len
  deriving DecidableEq, Repr

/-- The logical-header fields of rule R81, with `reserved` for the bits of rule R96. -/
inductive Field where
  | transaction | size | wdptr | srcTid | targetTid | hopCount | address | xamsbs | configOffset | status
  | msgLen | segSize | letter | mbox | msgSeg | info | reserved
  deriving DecidableEq, Repr

/-- One line of a layout table: stream offset from the start of the logical header, width, field. -/
structure LayoutField where
  offset : Nat
  width : Nat
  field : Field
  deriving DecidableEq, Repr

/-- The logical packet record of rule R30. Numbers are naturals, so that a record may hold a value too wide for its field
and `encodePacket` has something to refuse (rule R123); `payload` holds double-words, whose width needs no check. The
defaults are those of rule R129. -/
structure Packet where
  prio : Nat := 0
  tt : Nat := 0
  ftype : Nat := 0
  destId : Nat := 0
  srcId : Nat := 0
  transaction : Nat := 0
  srcTid : Nat := 0
  targetTid : Nat := 0
  hopCount : Nat := 0
  rdwrBytes : Nat := 0
  dwOffset : Nat := 0
  address : Nat := 0
  xamsbs : Nat := 0
  configOffset : Nat := 0
  payload : List DWord := []
  status : Nat := 0
  msgLen : Nat := 0
  segSize : Nat := 0
  letter : Nat := 0
  mbox : Nat := 0
  msgSeg : Nat := 0
  info : Nat := 0
  deriving DecidableEq, Repr

/-- The reasons of rule R251. -/
inductive DecodeError where
  | frameTooLong | truncated | badTt | badFtype | badTransaction | spanTooLarge
  deriving DecidableEq, Repr

/-- The reasons of rule R255. -/
inductive EncodeError where
  | badKind | fieldRange | badSpan | payloadLen | frameTooLong
  deriving DecidableEq, Repr

end Sys2Proof
end

