-- ==== Sys2Proof/Decode.lean ====
section
/-! DEFINITION. The packet codec: the encoding tables of 30_encoding.md, the decoder (rules R120 to R122, R126 to R129) and
after it the encoder (rules R123, R124), both over the Packet record and, through it, over `Instr`. -/

namespace Sys2Proof

/-! ### Bits and bytes -/

/-- The number a byte sequence spells, most significant byte first (rule R50). -/
def beNat (f : Frame) : Nat :=
  f.foldl (fun acc b => 256 * acc + b.toNat) 0

/-- `bits(f, p, w)`, the `w`-bit field of `f` at stream offset `p`, most significant bit first (rules R6, R8). Used only for
fields that lie inside the frame. -/
def bits (f : Frame) (p w : Nat) : Nat :=
  beNat f / 2 ^ (8 * f.length - (p + w)) % 2 ^ w

/-- The `n` low bytes of `v`, most significant first (rule R50). -/
def beBytes : Nat → Nat → Frame
  | 0, _ => []
  | n + 1, v => BitVec.ofNat 8 (v / 256 ^ n) :: beBytes n v

/-- `div_ceil(n, 8)` of rule R7. -/
def divCeil8 (n : Nat) : Nat :=
  (n + 7) / 8

/-! ### Tables -/

/-- The transport-type code of a width class (rule R83). -/
def IdWidth.tt : IdWidth → Nat
  | .w8 => 0
  | .w16 => 1
  | .w32 => 2

/-- The width class of a recognised transport type (rule R83); codes above 1 read as 32 bits, and a frame with code 3 is
rejected before this is asked. -/
def IdWidth.ofTt : Nat → IdWidth
  | 0 => .w8
  | 1 => .w16
  | _ => .w32

/-- Bytes of one device ID (rule R83). -/
def idBytes (tt : Nat) : Nat :=
  2 ^ tt

/-- Length of the common header (rule R84). -/
def commonLen (tt : Nat) : Nat :=
  1 + 2 * idBytes tt

/-- `L(ftype)` of rule R85, none for a format type the rule does not recognise. -/
def logicalLen : Nat → Option Nat
  | 2 => some 6
  | 5 => some 6
  | 6 => some 4
  | 8 => some 6
  | 10 => some 4
  | 11 => some 2
  | 13 => some 2
  | _ => none

/-- Format type of a kind (rule R86). -/
def Kind.ftype : Kind → Nat
  | .nread => 2
  | .nwrite => 5
  | .nwriteR => 5
  | .swrite => 6
  | .maintRdReq => 8
  | .maintWrReq => 8
  | .maintRdResp => 8
  | .maintWrResp => 8
  | .doorbell => 10
  | .message => 11
  | .respNodata => 13
  | .respMsg => 13
  | .respData => 13

/-- Transaction of a kind (rule R86); 0 for the kinds whose frame has no transaction field. -/
def Kind.transaction : Kind → Nat
  | .nread => 4
  | .nwrite => 4
  | .nwriteR => 5
  | .swrite => 0
  | .maintRdReq => 0
  | .maintWrReq => 1
  | .maintRdResp => 2
  | .maintWrResp => 3
  | .doorbell => 0
  | .message => 0
  | .respNodata => 0
  | .respMsg => 1
  | .respData => 8

/-- Layout of a kind (rule R86). -/
def Kind.layout : Kind → Layout
  | .nread => .req
  | .nwrite => .req
  | .nwriteR => .req
  | .swrite => .sw
  | .maintRdReq => .mreq
  | .maintWrReq => .mreq
  | .maintRdResp => .mresp
  | .maintWrResp => .mresp
  | .doorbell => .db
  | .message => .msg
  | .respNodata => .resp
  | .respMsg => .respm
  | .respData => .resp

/-- Payload rule of a kind (rule R99). -/
def Kind.payloadRule : Kind → PayloadRule
  | .nread => .noPayload
  | .nwrite => .span
  | .nwriteR => .span
  | .swrite => .len
  | .maintRdReq => .noPayload
  | .maintWrReq => .span
  | .maintRdResp => .len
  | .maintWrResp => .noPayload
  | .doorbell => .noPayload
  | .message => .len
  | .respNodata => .noPayload
  | .respMsg => .noPayload
  | .respData => .len

/-- `kind_of(ftype, transaction)` of rule R127; the transaction is not looked at for types 6, 10 and 11. -/
def kindOf : Nat → Nat → Option Kind
  | 2, 4 => some .nread
  | 5, 4 => some .nwrite
  | 5, 5 => some .nwriteR
  | 6, _ => some .swrite
  | 8, 0 => some .maintRdReq
  | 8, 1 => some .maintWrReq
  | 8, 2 => some .maintRdResp
  | 8, 3 => some .maintWrResp
  | 10, _ => some .doorbell
  | 11, _ => some .message
  | 13, 0 => some .respNodata
  | 13, 1 => some .respMsg
  | 13, 8 => some .respData
  | _, _ => none

/-- The layout tables of rules R88 to R95, in wire order. -/
def Layout.fields : Layout → List LayoutField
  | .req => [⟨0, 4, .transaction⟩, ⟨4, 4, .size⟩, ⟨8, 8, .srcTid⟩, ⟨16, 29, .address⟩, ⟨45, 1, .wdptr⟩, ⟨46, 2, .xamsbs⟩]
  | .sw => [⟨0, 29, .address⟩, ⟨29, 1, .reserved⟩, ⟨30, 2, .xamsbs⟩]
  | .mreq => [⟨0, 4, .transaction⟩, ⟨4, 4, .size⟩, ⟨8, 8, .srcTid⟩, ⟨16, 8, .hopCount⟩, ⟨24, 21, .configOffset⟩, ⟨45, 1, .wdptr⟩, ⟨46, 2, .reserved⟩]
  | .mresp => [⟨0, 4, .transaction⟩, ⟨4, 4, .status⟩, ⟨8, 8, .targetTid⟩, ⟨16, 8, .hopCount⟩, ⟨24, 24, .reserved⟩]
  | .db => [⟨0, 8, .reserved⟩, ⟨8, 8, .srcTid⟩, ⟨16, 16, .info⟩]
  | .msg => [⟨0, 4, .msgLen⟩, ⟨4, 4, .segSize⟩, ⟨8, 2, .letter⟩, ⟨10, 2, .mbox⟩, ⟨12, 4, .msgSeg⟩]
  | .resp => [⟨0, 4, .transaction⟩, ⟨4, 4, .status⟩, ⟨8, 8, .targetTid⟩]
  | .respm => [⟨0, 4, .transaction⟩, ⟨4, 4, .status⟩, ⟨8, 2, .letter⟩, ⟨10, 2, .mbox⟩, ⟨12, 4, .msgSeg⟩]

/-- Length in bytes of a layout's logical header (the totals of rules R88 to R95). -/
def Layout.len : Layout → Nat
  | .req => 6
  | .sw => 4
  | .mreq => 6
  | .mresp => 6
  | .db => 4
  | .msg => 2
  | .resp => 2
  | .respm => 2

/-- Whether the layout carries a size code (rule R97). -/
def Layout.hasSize : Layout → Bool
  | .req => true
  | .mreq => true
  | _ => false

/-- The size table of rule R97: for each `size`, the span for `wdptr` 0 and the span for `wdptr` 1. -/
def sizeTable : List (Span × Span) :=
  [(⟨1, 0⟩, ⟨1, 4⟩), (⟨1, 1⟩, ⟨1, 5⟩), (⟨1, 2⟩, ⟨1, 6⟩), (⟨1, 3⟩, ⟨1, 7⟩),
   (⟨2, 0⟩, ⟨2, 4⟩), (⟨3, 0⟩, ⟨3, 5⟩), (⟨2, 2⟩, ⟨2, 6⟩), (⟨5, 0⟩, ⟨5, 3⟩),
   (⟨4, 0⟩, ⟨4, 4⟩), (⟨6, 0⟩, ⟨6, 2⟩), (⟨7, 0⟩, ⟨7, 1⟩), (⟨8, 0⟩, ⟨16, 0⟩),
   (⟨32, 0⟩, ⟨64, 0⟩), (⟨96, 0⟩, ⟨128, 0⟩), (⟨160, 0⟩, ⟨192, 0⟩), (⟨224, 0⟩, ⟨256, 0⟩)]

/-- `size_decode(size, wdptr)` of rule R128, total on 4-bit `size` and 1-bit `wdptr`. -/
def sizeDecode (size wdptr : Nat) : Span :=
  let row := sizeTable.getD size (⟨0, 0⟩, ⟨0, 0⟩)
  if wdptr = 0 then row.1 else row.2

/-- The 32 codes (`size`, `wdptr`) of rule R97. -/
def sizeCodes : List (Nat × Nat) :=
  (List.range 16).flatMap fun size => [(size, 0), (size, 1)]

/-- `size_encode(bytes, offset)` of rule R128: the code whose span this is, none for a span without a code (rule R98). -/
def sizeEncode (sp : Span) : Option (Nat × Nat) :=
  sizeCodes.find? fun c => decide (sizeDecode c.1 c.2 = sp)

/-- Numeric codes of rule R251. -/
def DecodeError.code : DecodeError → Nat
  | .frameTooLong => 1
  | .truncated => 2
  | .badTt => 3
  | .badFtype => 4
  | .badTransaction => 5
  | .spanTooLarge => 6

/-- Numeric codes of rule R255. -/
def EncodeError.code : EncodeError → Nat
  | .badKind => 1
  | .fieldRange => 2
  | .badSpan => 3
  | .payloadLen => 4
  | .frameTooLong => 5

/-! ### Decoding a packet record -/

/-- `payload_len` of rule R30. -/
def Packet.payloadLen (P : Packet) : Nat :=
  P.payload.length

/-- The span of a packet. -/
def Packet.span (P : Packet) : Span :=
  ⟨P.rdwrBytes, P.dwOffset⟩

/-- `decode_header(f)` of rule R120. -/
def decodeHeader (pr : Params) (f : Frame) : Except DecodeError (Packet × Nat) :=
  if pr.maxFrameBytes < f.length then .error .frameTooLong
  else if f.length < 1 then .error .truncated
  else
    let tt := bits f 2 2
    let ftype := bits f 4 4
    if tt = 3 then .error .badTt
    else if logicalLen ftype = none then .error .badFtype
    else if f.length < commonLen tt then .error .truncated
    else
      let idb := idBytes tt
      .ok ({ prio := bits f 0 2, tt := tt, ftype := ftype, destId := bits f 8 (8 * idb),
             srcId := bits f (8 + 8 * idb) (8 * idb) }, commonLen tt)

/-- A packet under construction beside the two wire fields that make its span (rule R121's `P`, `sz`, `wp`). -/
structure RawPacket where
  packet : Packet
  size : Nat := 0
  wdptr : Nat := 0
  deriving DecidableEq, Repr

/-- Where a field value read from the wire goes (rule R121); a reserved field is discarded (rule R96). -/
def storeField (r : RawPacket) (fld : Field) (v : Nat) : RawPacket :=
  match fld with
  | .transaction => { r with packet := { r.packet with transaction := v } }
  | .size => { r with size := v }
  | .wdptr => { r with wdptr := v }
  | .srcTid => { r with packet := { r.packet with srcTid := v } }
  | .targetTid => { r with packet := { r.packet with targetTid := v } }
  | .hopCount => { r with packet := { r.packet with hopCount := v } }
  | .address => { r with packet := { r.packet with address := v } }
  | .xamsbs => { r with packet := { r.packet with xamsbs := v } }
  | .configOffset => { r with packet := { r.packet with configOffset := v } }
  | .status => { r with packet := { r.packet with status := v } }
  | .msgLen => { r with packet := { r.packet with msgLen := v } }
  | .segSize => { r with packet := { r.packet with segSize := v } }
  | .letter => { r with packet := { r.packet with letter := v } }
  | .mbox => { r with packet := { r.packet with mbox := v } }
  | .msgSeg => { r with packet := { r.packet with msgSeg := v } }
  | .info => { r with packet := { r.packet with info := v } }
  | .reserved => r

/-- The walk over a layout in wire order (rule R121); `c` is the byte offset of the logical header. -/
def readFields (f : Frame) (c : Nat) (fields : List LayoutField) (r : RawPacket) : RawPacket :=
  fields.foldl (fun r lf => storeField r lf.field (bits f (8 * c + lf.offset) lf.width)) r

/-- The span of a layout with a size field, from its code (rules R121, R128); other layouts leave it at its default. -/
def withSpan (l : Layout) (r : RawPacket) : Packet :=
  if l.hasSize then
    { r.packet with rdwrBytes := (sizeDecode r.size r.wdptr).rdwrBytes, dwOffset := (sizeDecode r.size r.wdptr).dwOffset }
  else r.packet

/-- `cnt` double-words from byte offset `q` on, each most significant byte first (rules R51, R121). -/
def readPayload (f : Frame) (q cnt : Nat) : List DWord :=
  (List.range cnt).map fun i => BitVec.ofNat 64 (bits f (8 * (q + 8 * i)) 64)

/-- The payload part of rule R121, by the payload rule of R99. -/
def decodePayload (pr : Params) (rule : PayloadRule) (P : Packet) (f : Frame) (q : Nat) : Except DecodeError (Packet × Nat) :=
  match rule with
  | .noPayload => .ok ({ P with payload := [] }, q)
  | .span =>
    let cnt := divCeil8 P.rdwrBytes
    if f.length < q + 8 * cnt then .error .truncated
    else .ok ({ P with payload := readPayload f q cnt }, q + 8 * cnt)
  | .len =>
    let cnt := (f.length - q) / 8
    if pr.maxPayloadDw < cnt then .error .spanTooLarge
    else .ok ({ P with rdwrBytes := 8 * cnt, dwOffset := 0, payload := readPayload f q cnt }, q + 8 * cnt)

/-- The part of rule R121 after the kind is known. -/
def decodeKind (pr : Params) (k : Kind) (P : Packet) (f : Frame) (c : Nat) : Except DecodeError (Packet × Nat) :=
  let P1 := withSpan k.layout (readFields f c k.layout.fields { packet := P })
  if k.layout.hasSize = true ∧ pr.maxPayloadDw < divCeil8 P1.rdwrBytes then .error .spanTooLarge
  else decodePayload pr k.payloadRule P1 f (c + k.layout.len)

/-- `decode_body(P, f, c)` of rule R121, for `(P, c)` the result of `decodeHeader` on `f`. A format type without a logical
header cannot come out of `decodeHeader`; it is answered with its own reason. -/
def decodeBody (pr : Params) (P : Packet) (f : Frame) (c : Nat) : Except DecodeError (Packet × Nat) :=
  match logicalLen P.ftype with
  | none => .error .badFtype
  | some len =>
    if f.length < c + len then .error .truncated
    else
      match kindOf P.ftype (bits f (8 * c) 4) with
      | none => .error .badTransaction
      | some k => decodeKind pr k P f c

/-- `decode(f)` of rule R122. -/
def decodePacket (pr : Params) (f : Frame) : Except DecodeError (Packet × Nat) :=
  match decodeHeader pr f with
  | .error e => .error e
  | .ok (P, c) => decodeBody pr P f c

/-! ### Packets and instructions -/

/-- The kind of an instruction. -/
def Instr.kind : Instr → Kind
  | .nread .. => .nread
  | .nwrite .. => .nwrite
  | .nwriteR .. => .nwriteR
  | .swrite .. => .swrite
  | .maintRdReq .. => .maintRdReq
  | .maintWrReq .. => .maintWrReq
  | .maintRdResp .. => .maintRdResp
  | .maintWrResp .. => .maintWrResp
  | .doorbell .. => .doorbell
  | .message .. => .message
  | .respNodata .. => .respNodata
  | .respMsg .. => .respMsg
  | .respData .. => .respData

/-- The common header of an instruction. -/
def Instr.header : Instr → Header
  | .nread h .. => h
  | .nwrite h .. => h
  | .nwriteR h .. => h
  | .swrite h .. => h
  | .maintRdReq h .. => h
  | .maintWrReq h .. => h
  | .maintRdResp h .. => h
  | .maintWrResp h .. => h
  | .doorbell h .. => h
  | .message h .. => h
  | .respNodata h .. => h
  | .respMsg h .. => h
  | .respData h .. => h

/-- The packet that carries only a common header and the two type codes of its kind (rules R82 to R86). -/
def headerPacket (h : Header) (k : Kind) : Packet :=
  { prio := h.prio.toNat, tt := h.width.tt, ftype := k.ftype, destId := h.destId.toNat, srcId := h.srcId.toNat,
    transaction := k.transaction }

/-- The packet record of an instruction, every field its kind does not carry at its default (rules R30, R129). -/
def Instr.toPacket : Instr → Packet
  | .nread h tid a x sp =>
    { headerPacket h .nread with
      srcTid := tid.toNat, address := a.toNat, xamsbs := x.toNat, rdwrBytes := sp.rdwrBytes, dwOffset := sp.dwOffset }
  | .nwrite h tid a x sp pl =>
    { headerPacket h .nwrite with
      srcTid := tid.toNat, address := a.toNat, xamsbs := x.toNat, rdwrBytes := sp.rdwrBytes, dwOffset := sp.dwOffset,
      payload := pl }
  | .nwriteR h tid a x sp pl =>
    { headerPacket h .nwriteR with
      srcTid := tid.toNat, address := a.toNat, xamsbs := x.toNat, rdwrBytes := sp.rdwrBytes, dwOffset := sp.dwOffset,
      payload := pl }
  | .swrite h a x pl =>
    { headerPacket h .swrite with address := a.toNat, xamsbs := x.toNat, rdwrBytes := 8 * pl.length, payload := pl }
  | .maintRdReq h tid hop off sp =>
    { headerPacket h .maintRdReq with
      srcTid := tid.toNat, hopCount := hop.toNat, configOffset := off.toNat, rdwrBytes := sp.rdwrBytes,
      dwOffset := sp.dwOffset }
  | .maintWrReq h tid hop off sp pl =>
    { headerPacket h .maintWrReq with
      srcTid := tid.toNat, hopCount := hop.toNat, configOffset := off.toNat, rdwrBytes := sp.rdwrBytes,
      dwOffset := sp.dwOffset, payload := pl }
  | .maintRdResp h st tid hop pl =>
    { headerPacket h .maintRdResp with
      status := st.toNat, targetTid := tid.toNat, hopCount := hop.toNat, rdwrBytes := 8 * pl.length, payload := pl }
  | .maintWrResp h st tid hop =>
    { headerPacket h .maintWrResp with status := st.toNat, targetTid := tid.toNat, hopCount := hop.toNat }
  | .doorbell h tid info =>
    { headerPacket h .doorbell with srcTid := tid.toNat, info := info.toNat }
  | .message h ml ss l mb seg pl =>
    { headerPacket h .message with
      msgLen := ml.toNat, segSize := ss.toNat, letter := l.toNat, mbox := mb.toNat, msgSeg := seg.toNat,
      rdwrBytes := 8 * pl.length, payload := pl }
  | .respNodata h st tid =>
    { headerPacket h .respNodata with status := st.toNat, targetTid := tid.toNat }
  | .respMsg h st l mb seg =>
    { headerPacket h .respMsg with status := st.toNat, letter := l.toNat, mbox := mb.toNat, msgSeg := seg.toNat }
  | .respData h st tid pl =>
    { headerPacket h .respData with status := st.toNat, targetTid := tid.toNat, rdwrBytes := 8 * pl.length, payload := pl }

/-- The common header a packet record carries. -/
def Packet.header (P : Packet) : Header :=
  ⟨BitVec.ofNat 2 P.prio, IdWidth.ofTt P.tt, BitVec.ofNat 32 P.destId, BitVec.ofNat 32 P.srcId⟩

/-- The instruction a packet record of the given kind stands for. -/
def Packet.toInstr (P : Packet) : Kind → Instr
  | .nread => .nread P.header (BitVec.ofNat 8 P.srcTid) (BitVec.ofNat 29 P.address) (BitVec.ofNat 2 P.xamsbs) P.span
  | .nwrite =>
    .nwrite P.header (BitVec.ofNat 8 P.srcTid) (BitVec.ofNat 29 P.address) (BitVec.ofNat 2 P.xamsbs) P.span P.payload
  | .nwriteR =>
    .nwriteR P.header (BitVec.ofNat 8 P.srcTid) (BitVec.ofNat 29 P.address) (BitVec.ofNat 2 P.xamsbs) P.span P.payload
  | .swrite => .swrite P.header (BitVec.ofNat 29 P.address) (BitVec.ofNat 2 P.xamsbs) P.payload
  | .maintRdReq =>
    .maintRdReq P.header (BitVec.ofNat 8 P.srcTid) (BitVec.ofNat 8 P.hopCount) (BitVec.ofNat 21 P.configOffset) P.span
  | .maintWrReq =>
    .maintWrReq P.header (BitVec.ofNat 8 P.srcTid) (BitVec.ofNat 8 P.hopCount) (BitVec.ofNat 21 P.configOffset) P.span
      P.payload
  | .maintRdResp =>
    .maintRdResp P.header (BitVec.ofNat 4 P.status) (BitVec.ofNat 8 P.targetTid) (BitVec.ofNat 8 P.hopCount) P.payload
  | .maintWrResp =>
    .maintWrResp P.header (BitVec.ofNat 4 P.status) (BitVec.ofNat 8 P.targetTid) (BitVec.ofNat 8 P.hopCount)
  | .doorbell => .doorbell P.header (BitVec.ofNat 8 P.srcTid) (BitVec.ofNat 16 P.info)
  | .message =>
    .message P.header (BitVec.ofNat 4 P.msgLen) (BitVec.ofNat 4 P.segSize) (BitVec.ofNat 2 P.letter)
      (BitVec.ofNat 2 P.mbox) (BitVec.ofNat 4 P.msgSeg) P.payload
  | .respNodata => .respNodata P.header (BitVec.ofNat 4 P.status) (BitVec.ofNat 8 P.targetTid)
  | .respMsg =>
    .respMsg P.header (BitVec.ofNat 4 P.status) (BitVec.ofNat 2 P.letter) (BitVec.ofNat 2 P.mbox)
      (BitVec.ofNat 4 P.msgSeg)
  | .respData => .respData P.header (BitVec.ofNat 4 P.status) (BitVec.ofNat 8 P.targetTid) P.payload

/-- The decoder over instructions: the instruction a frame holds and the number of its bytes that belong to it (rules R121,
R122), or the reason of rule R251. A packet that decodes has a kind, so the last branch is never taken. -/
def decode (pr : Params) (f : Frame) : Except DecodeError (Instr × Nat) :=
  match decodePacket pr f with
  | .error e => .error e
  | .ok (P, n) =>
    match kindOf P.ftype P.transaction with
    | some k => .ok (P.toInstr k, n)
    | none => .error .badTransaction

/-! ### Encoding -/

/-- The value a field of a layout takes on the wire (rule R123); reserved bits are written 0 (rule R96). -/
def fieldValue (P : Packet) (code : Nat × Nat) : Field → Nat
  | .transaction => P.transaction
  | .size => code.1
  | .wdptr => code.2
  | .srcTid => P.srcTid
  | .targetTid => P.targetTid
  | .hopCount => P.hopCount
  | .address => P.address
  | .xamsbs => P.xamsbs
  | .configOffset => P.configOffset
  | .status => P.status
  | .msgLen => P.msgLen
  | .segSize => P.segSize
  | .letter => P.letter
  | .mbox => P.mbox
  | .msgSeg => P.msgSeg
  | .info => P.info
  | .reserved => 0

/-- The logical header as one number: each field appended in wire order, most significant first (rules R7, R123). -/
def packFields (P : Packet) (code : Nat × Nat) (fields : List LayoutField) : Nat :=
  fields.foldl (fun acc lf => acc * 2 ^ lf.width + fieldValue P code lf.field) 0

/-- Whether every field of a layout fits its width (the `FIELD_RANGE` test of rule R123). -/
def fieldsFit (P : Packet) (code : Nat × Nat) (fields : List LayoutField) : Bool :=
  fields.all fun lf => decide (fieldValue P code lf.field < 2 ^ lf.width)

/-- The size code of a packet of a layout (the `BAD_SPAN` tests of rule R123); a layout without a size field needs none. -/
def spanCode (pr : Params) (l : Layout) (P : Packet) : Option (Nat × Nat) :=
  if l.hasSize then
    match sizeEncode P.span with
    | none => none
    | some code => if pr.maxPayloadDw < divCeil8 P.rdwrBytes then none else some code
  else some (0, 0)

/-- The payload test of rule R123, by the payload rule of R99. -/
def payloadFits (pr : Params) (rule : PayloadRule) (P : Packet) : Bool :=
  (match rule with
   | .noPayload => decide (P.payloadLen = 0)
   | .span => decide (P.payloadLen = divCeil8 P.rdwrBytes)
   | .len => true) && decide (P.payloadLen ≤ pr.maxPayloadDw)

/-- The bytes of a packet whose checks have passed (rules R80, R123). -/
def frameOf (k : Kind) (P : Packet) (code : Nat × Nat) : Frame :=
  beBytes 1 (P.prio * 64 + P.tt * 16 + P.ftype) ++ beBytes (idBytes P.tt) P.destId ++ beBytes (idBytes P.tt) P.srcId ++
    beBytes k.layout.len (packFields P code k.layout.fields) ++ P.payload.flatMap fun d => beBytes 8 d.toNat

/-- `encode(P)` of rule R123; the first check that fails gives the reason. The range test on payload double-words is
vacuous here, as the rule says of a type that bounds them. -/
def encodePacket (pr : Params) (P : Packet) : Except EncodeError Frame :=
  if ¬ P.tt < 3 then .error .badKind
  else
    match kindOf P.ftype P.transaction with
    | none => .error .badKind
    | some k =>
      if 4 ≤ P.prio ∨ 2 ^ (8 * idBytes P.tt) ≤ P.destId ∨ 2 ^ (8 * idBytes P.tt) ≤ P.srcId then .error .fieldRange
      else
        match spanCode pr k.layout P with
        | none => .error .badSpan
        | some code =>
          if fieldsFit P code k.layout.fields = false then .error .fieldRange
          else if payloadFits pr k.payloadRule P = false then .error .payloadLen
          else if pr.maxFrameBytes < (frameOf k P code).length then .error .frameTooLong
          else .ok (frameOf k P code)

/-- The encoder over instructions. -/
def encode (pr : Params) (i : Instr) : Except EncodeError Frame :=
  encodePacket pr i.toPacket

/-- `canon(P)` of rule R124: every field that is not in the layout of its kind at its default; a record of no kind stays as
it is. -/
def canon (P : Packet) : Packet :=
  match kindOf P.ftype P.transaction with
  | none => P
  | some k =>
    let blank : Packet := { prio := P.prio, tt := P.tt, ftype := P.ftype, destId := P.destId, srcId := P.srcId }
    let carried := k.layout.fields.foldl (fun r lf => storeField r lf.field (fieldValue P (0, 0) lf.field)) { packet := blank }
    match k.payloadRule with
    | .noPayload =>
      if k.layout.hasSize then { carried.packet with rdwrBytes := P.rdwrBytes, dwOffset := P.dwOffset }
      else carried.packet
    | .span => { carried.packet with rdwrBytes := P.rdwrBytes, dwOffset := P.dwOffset, payload := P.payload }
    | .len => { carried.packet with rdwrBytes := 8 * P.payloadLen, payload := P.payload }

/-! ### Address helper (rule R126) -/

/-- Byte address to double-word address; the 3 low bits are dropped. -/
def byteToDw (b : Nat) : Nat :=
  b >>> 3

/-- Double-word address to byte address. -/
def dwToByte (d : Nat) : Nat :=
  d <<< 3

/-- Double-word address to word address. -/
def dwToWord (d : Nat) : Nat :=
  2 * d

/-- Word address to double-word address. -/
def wordToDw (w : Nat) : Nat :=
  w >>> 1

/-- Word address to byte address. -/
def wordToByte (w : Nat) : Nat :=
  w <<< 2

/-- The 34-bit byte address of a REQ or SW layout, `xamsbs ++ address ++ dw_offset` (rules R30, R100); the block carries its
parts and never uses it (rule R34). -/
def Packet.byteAddress (P : Packet) : BitVec 34 :=
  BitVec.ofNat 2 P.xamsbs ++ BitVec.ofNat 29 P.address ++ BitVec.ofNat 3 P.dwOffset

/-! ### An instruction given as a number

The bits of a header as one number. The opcode table's `match` and `mask` read the header as one big-endian number, so that
bit 0 is the least significant bit of the LAST byte; the host's convention for byte-wide words puts the first byte in bits
7..0. Both are accepted, the host's first (log entry 6). -/

/-- The bytes of a `nbits`-bit number, the lowest first. -/
def lowFirst (nbits w : Nat) : Frame :=
  (List.range ((nbits + 7) / 8)).map fun k => BitVec.ofNat 8 (w / 256 ^ k)

/-- The payload bytes above the header: zeros, as many as the largest payload has, so that every payload rule is met. -/
def zeroPayload (pr : Params) : Frame :=
  List.replicate (8 * pr.maxPayloadDw) 0

/-- The frame a header given as a number stands for. -/
def tableFrame (pr : Params) (nbits w : Nat) : Frame :=
  match decode pr (lowFirst nbits w ++ zeroPayload pr) with
  | .ok _ => lowFirst nbits w ++ zeroPayload pr
  | .error _ => (lowFirst nbits w).reverse ++ zeroPayload pr

/-- The instruction the decoder reads from a header given as a number. -/
def decodeTableWord (nbits w : Nat) : Option Instr :=
  match decode Params.reference (tableFrame Params.reference nbits w) with
  | .ok (i, _) => some i
  | .error _ => none

end Sys2Proof
end

