-- ==== Sys2Proof/Machine/State.lean ====
section
/-! DEFINITION. The machine's state as plain data: the three pieces of state of rule R20, the parameters (rules R4, R39), and
the model's own record of the environment: the events still to come and the outputs made so far. -/

namespace Sys2Proof.Machine

open Sys2Proof

/-- The local register space as bytes (rules R33, R34, R53): a list of (byte address, byte) pairs, addresses strictly
rising, no entry equal to the reset contents. `Memory.wf` (Machine/Ops.lean) says so. -/
abbrev Memory := List Host.Cell

/-- What the environment presents, one at a time (rules R60, R190, R232, R280). -/
inductive Event where
  /-- `ingress(port, frame)` of rule R190. -/
  | ingress (port : Nat) (frame : Frame)
  /-- The host calls `LOCAL.read32` (rule R232). -/
  | hostRead (addr : Nat)
  /-- The host calls `LOCAL.write32` (rule R232). -/
  | hostWrite (addr : Nat) (value mask : Word)
  /-- The host looks at the two status outputs (rules R232, R256). -/
  | hostStatus
  /-- The host asserts the reset input (rule R280). -/
  | reset
  deriving DecidableEq, Repr

/-- How an ingress event ends (rule R202). -/
inductive Disposition where
  | forwarded
  | responded
  | dropDecode (reason : DecodeError)
  | dropUnmapped
  | dropMaintUnhandled
  | fatal
  | ignoredFatal
  deriving DecidableEq, Repr

/-- What the block answers to the environment, in order (rules R190, R201, R232). -/
inductive Output where
  /-- One call `deliver(port, frame)` (rule R201). -/
  | deliver (port : Nat) (frame : Frame)
  /-- The disposition that ends an ingress event (rule R202). -/
  | ended (d : Disposition)
  /-- The answer to a host read: the word, or none for `Fail`. -/
  | hostReadDone (r : Option Word)
  /-- The answer to a host write: true for `Ok`, false for `Fail`. -/
  | hostWriteDone (ok : Bool)
  /-- The status outputs as the host sees them. -/
  | status (malformedCnt : BitVec 32) (fatal : Bool)
  deriving DecidableEq, Repr

/-- The reasons of an invariant violation (rule R254). -/
inductive FatalReason where
  | payloadLen | badSpan
  deriving DecidableEq, Repr

/-- The errors that end an ingress event (rule R250). An AccessError ends the translation only and shows in the response. -/
inductive EngineError where
  | decode (reason : DecodeError)
  | routing
  | fatal
  deriving DecidableEq, Repr

/-- Where the machine stops with a fault. -/
inductive Fault where
  /-- Raised by a meaning called on a state whose next event is not the arrival of a frame, and by nothing else: `step`
  calls a meaning only on an ingress event. Safe: the model stops where the spec describes nothing. -/
  | noIngressEvent
  deriving DecidableEq, Repr

/-- Why there is no meaning. -/
inductive Refusal where
  /-- Raised by an arm of `exec` whose instruction has no meaning yet; no arm raises it now. Safe. -/
  | notModelled (mnemonic : String)
  /-- Raised by `step` for an ingress event on a port that is not wired, which rule R190 says cannot be presented
  (decision D35). Safe: the model stops where the spec describes nothing. -/
  | portNotWired (port : Nat)
  deriving DecidableEq, Repr

/-- The state. `mem`, `malformedCnt` and `fatal` are the three pieces of rule R20; the other fields are the model's. -/
structure State where
  /-- The parameters of rule R4; no step changes them (rule R281). -/
  params : Params
  /-- `map`, the mapping table, as the bytes of the local register space (rules R20, R24, R53). -/
  mem : Memory
  /-- `malformed_cnt` (rule R37). -/
  malformedCnt : BitVec 32
  /-- `fatal` (rule R38). -/
  fatal : Bool
  /-- The events the environment has still to present, the next one first (rules R39, R60). -/
  inbox : List Event
  /-- The outputs made so far, the oldest first (rules R201, R202). -/
  outputs : List Output
  deriving DecidableEq, Repr

/-- The machine right after reset under given parameters (rules R36, R281), with no event waiting. -/
def State.resetWith (p : Params) : State where
  params := p
  mem := []
  malformedCnt := 0
  fatal := false
  inbox := []
  outputs := []

/-- The machine right after reset with the reference parameters. -/
def State.reset : State :=
  State.resetWith Params.reference

end Sys2Proof.Machine
end

