-- ==== Sys2Proof/Machine/Operands.lean ====
section
/-! DEFINITION. The operand forms of a maintenance request: the span's double-word mask (rule R125), its word lane masks
(rule R171), and the byte address of its first double-word (rule R58). -/

namespace Sys2Proof.Machine

open Sys2Proof

/-- `rdwr_dw_mask_from_span(bytes, offset)` of rule R125. -/
def rdwrDwMaskFromSpan (bytes offset : Nat) : Except FatalReason DWord :=
  if 1 ≤ bytes ∧ bytes ≤ 7 ∧ offset + bytes ≤ 8 then
    .ok (BitVec.ofNat 64 (((1 <<< (bytes * 8)) - 1) <<< (offset * 8)))
  else if 8 ≤ bytes ∧ bytes % 8 = 0 ∧ offset = 0 then .ok 0xFFFFFFFFFFFFFFFF
  else .error .badSpan

/-- `wmask(w)` of rule R171: the lane mask of the low (`w` 0) or high (`w` 1) word. -/
def wmask (mask : DWord) (w : Nat) : Word :=
  (mask >>> (32 * w)).setWidth 32

/-- The byte address of the first double-word of a maintenance request (rule R58). -/
def configAddress (P : Packet) : Nat :=
  dwToByte P.configOffset

end Sys2Proof.Machine
end

