-- ==== Sys2Proof/Machine/Flags.lean ====
section
/-! DEFINITION. The two status items (rule R23: the block has no condition codes): the malformed-frame counter and the
sticky fatal flag, and the numeric codes of dispositions and fatal reasons. -/

namespace Sys2Proof.Machine

open Sys2Proof

/-- `malformed_cnt <- malformed_cnt + 1`, modulo 2^32 (rules R37, R143). -/
def State.countMalformed (s : State) : State :=
  { s with malformedCnt := s.malformedCnt + 1 }

/-- `fatal <- 1` (rule R38). -/
def State.setFatal (s : State) : State :=
  { s with fatal := true }

/-- The codes of rule R202. -/
def Disposition.code : Disposition → Nat
  | .forwarded => 0
  | .responded => 1
  | .dropDecode _ => 2
  | .dropUnmapped => 3
  | .dropMaintUnhandled => 4
  | .fatal => 5
  | .ignoredFatal => 6

/-- The codes of rule R254. -/
def FatalReason.code : FatalReason → Nat
  | .payloadLen => 1
  | .badSpan => 2

end Sys2Proof.Machine
end

