-- ==== Sys2Proof/Machine/Ops.lean ====
section
/-! DEFINITION. The named operations over the state: bytes and words of the local register space, the two accessors of rules
R230 and R231, the end of an event, what an error does (rules R250, R258), and reset (rules R280, R281). -/

namespace Sys2Proof.Machine

open Sys2Proof

/-! ### The local register space -/

/-- What an address with no entry reads as: the reset contents of rule R36. -/
def Memory.blank : Byte := 0

/-- The canonical form: addresses strictly rising, no entry that reads as blank. -/
def Memory.wf : Memory → Bool
  | [] => true
  | (a, v) :: rest => decide (v ≠ Memory.blank) && rest.all (fun c => decide (a < c.1)) && Memory.wf rest

/-- The byte at an address. -/
def Memory.readByte : Memory → Nat → Byte
  | [], _ => Memory.blank
  | (b, v) :: rest, a => if b = a then v else Memory.readByte rest a

/-- Store one byte, keeping the canonical form. -/
def Memory.writeByte : Memory → Nat → Byte → Memory
  | [], a, v => if v = Memory.blank then [] else [(a, v)]
  | (b, x) :: rest, a, v =>
    if a < b then (if v = Memory.blank then (b, x) :: rest else (a, v) :: (b, x) :: rest)
    else if a = b then (if v = Memory.blank then rest else (a, v) :: rest)
    else (b, x) :: Memory.writeByte rest a v

/-- The 32-bit register at byte address `a`: byte lane `j`, bits `8j+7 : 8j`, at `a + j` (rules R52, R53). -/
def Memory.readWord (m : Memory) (a : Nat) : Word :=
  m.readByte (a + 3) ++ m.readByte (a + 2) ++ m.readByte (a + 1) ++ m.readByte a

/-- Store the 32-bit register at byte address `a`. -/
def Memory.writeWord (m : Memory) (a : Nat) (v : Word) : Memory :=
  (((m.writeByte a (v.extractLsb' 0 8)).writeByte (a + 1) (v.extractLsb' 8 8)).writeByte (a + 2)
    (v.extractLsb' 16 8)).writeByte (a + 3) (v.extractLsb' 24 8)

/-- Byte address of mapping-table entry `d` (rule R24). -/
def State.entryAddress (s : State) (d : Nat) : Nat :=
  s.params.mapBase + 4 * d

/-- `map[d]` (rules R8, R24). -/
def State.entry (s : State) (d : Nat) : Word :=
  s.mem.readWord (s.entryAddress d)

/-- `map[d] <- v` (rule R8). -/
def State.setEntry (s : State) (d : Nat) (v : Word) : State :=
  { s with mem := s.mem.writeWord (s.entryAddress d) v }

/-- The entry a byte address names, none where the accessors answer `Fail` (rules R57, R230, R231). -/
def State.entryAt (s : State) (a : Nat) : Option Nat :=
  if a % 4 ≠ 0 then none
  else if a < s.params.mapBase ∨ s.params.mapBase + 4 * s.params.nDest ≤ a then none
  else some ((a - s.params.mapBase) / 4)

/-- `LOCAL.read32(a)` of rule R230; none is `Fail`. -/
def State.localRead32 (s : State) (a : Nat) : Option Word :=
  match s.entryAt a with
  | none => none
  | some d => some (s.entry d &&& s.params.nrMask)

/-- The value `LOCAL.write32` stores: `(old & ~eff) | (v & eff)` with `eff = m & NR_MASK` (rule R231). -/
def mergeEntry (nrMask old v m : Word) : Word :=
  (old &&& ~~~(m &&& nrMask)) ||| (v &&& (m &&& nrMask))

/-- `LOCAL.write32(a, v, m)` of rule R231: the state after it, and whether it answered `Ok`. -/
def State.localWrite32 (s : State) (a : Nat) (v m : Word) : State × Bool :=
  match s.entryAt a with
  | none => (s, false)
  | some d => (s.setEntry d (mergeEntry s.params.nrMask (s.entry d) v m), true)

/-! ### Events and outputs -/

/-- The outputs of one event are made and the event is over (rules R30, R207). -/
def State.endEvent (s : State) (outs : List Output) : State :=
  { s with inbox := s.inbox.tail, outputs := s.outputs ++ outs }

/-- An ingress event ends with its deliveries, in order, and its disposition (rules R201, R202). -/
def State.finish (s : State) (delivered : List Output) (d : Disposition) : State :=
  s.endEvent (delivered ++ [.ended d])

/-- What an error does to the state and how the event ends (rules R250, R258): nothing is saved, no control is transferred,
nothing is delivered. There is no return from an error (rule R259): the next event starts from the state left here. -/
def raiseError (e : EngineError) (s : State) : State :=
  match e with
  | .decode r => s.countMalformed.finish [] (.dropDecode r)
  | .routing => s.finish [] .dropUnmapped
  | .fatal => s.setFatal.finish [] .fatal

/-- The reset event (rules R280, R281): every piece of state at its reset value, the parameters kept. The environment's
remaining events and the outputs already made are not the block's. -/
def State.applyReset (s : State) : State :=
  { State.resetWith s.params with inbox := s.inbox.tail, outputs := s.outputs }

end Sys2Proof.Machine
end

