-- ==== Sys2Proof/Machine/Translator.lean ====
section
/-! DEFINITION. The maintenance access translator over an abstract target (rules R33, R170 to R179), and the local
registers as its one bound target (rule R233). -/

namespace Sys2Proof.Machine

open Sys2Proof

/-- A target: the accessor pair of rule R170, over a register file of any shape `σ`. A read may change the file, and a
failing write may have an effect (rules R56, R176). -/
structure Target (σ : Type) where
  /-- `read32(byte_address)`; none is `Fail`. -/
  read32 : σ → Nat → σ × Option Word
  /-- `write32(byte_address, word, lane_mask)`; false is `Fail`. -/
  write32 : σ → Nat → Word → Word → σ × Bool

/-- One accessor call, as a recording target notes it. -/
inductive AccessCall where
  | read (addr : Nat)
  | write (addr : Nat) (value mask : Word)
  deriving DecidableEq, Repr

/-- The same target, noting every call (newest last); the translator cannot tell the difference (rule R175). -/
def recording {σ : Type} (T : Target σ) : Target (σ × List AccessCall) where
  read32 t a := (((T.read32 t.1 a).1, t.2 ++ [.read a]), (T.read32 t.1 a).2)
  write32 t a v m := (((T.write32 t.1 a v m).1, t.2 ++ [.write a v m]), (T.write32 t.1 a v m).2)

/-- `LOCAL`, the switch's own register file (rule R233). -/
def localTarget : Target State where
  read32 s a := (s, s.localRead32 a)
  write32 s a v m := s.localWrite32 a v m

/-- The status code DONE (rule R177). -/
def statusDone : Nat := 0

/-- The status code ERROR (rule R177). -/
def statusError : Nat := 7

variable {σ : Type}

/-- Word `w` of a double-word read: skipped under a zero lane mask, else one call and the masked word in its place (rule
R172). -/
def readLane (T : Target σ) (mask : DWord) (w a : Nat) (t : σ) : σ × Option DWord :=
  if wmask mask w = 0 then (t, some 0)
  else
    match T.read32 t a with
    | (t1, none) => (t1, none)
    | (t1, some r) => (t1, some ((r &&& wmask mask w).setWidth 64 <<< (32 * w)))

/-- One double-word read: the low word, then the high word (rules R53, R172). -/
def readDouble (T : Target σ) (mask : DWord) (a : Nat) (t : σ) : σ × Option DWord :=
  match readLane T mask 0 a t with
  | (t1, none) => (t1, none)
  | (t1, some lo) =>
    match readLane T mask 1 (a + 4) t1 with
    | (t2, none) => (t2, none)
    | (t2, some hi) => (t2, some (lo ||| hi))

/-- `cnt` double-words from byte address `a` on; the first failure ends it (rule R172). -/
def readDoubles (T : Target σ) (mask : DWord) : Nat → Nat → σ → σ × Option (List DWord)
  | 0, _, t => (t, some [])
  | cnt + 1, a, t =>
    match readDouble T mask a t with
    | (t1, none) => (t1, none)
    | (t1, some dw) =>
      match readDoubles T mask cnt (a + 8) t1 with
      | (t2, none) => (t2, none)
      | (t2, some dws) => (t2, some (dw :: dws))

/-- What a translator operation answers: the target afterwards, the status and the payload (rule R179). -/
structure Access (σ : Type) where
  target : σ
  status : Nat
  payload : List DWord

/-- `maint_read(T, req)` of rule R172; an error is Fatal, raised before any call. -/
def maintRead (T : Target σ) (P : Packet) (t : σ) : Except FatalReason (Access σ) :=
  match rdwrDwMaskFromSpan P.rdwrBytes P.dwOffset with
  | .error e => .error e
  | .ok mask =>
    match readDoubles T mask (divCeil8 P.rdwrBytes) (configAddress P) t with
    | (t1, none) => .ok ⟨t1, statusError, []⟩
    | (t1, some dws) => .ok ⟨t1, statusDone, dws⟩

/-- Word `w` of a double-word write: skipped under a zero lane mask, else one call with the whole 32-bit slice (rule
R173). -/
def writeLane (T : Target σ) (mask : DWord) (w a : Nat) (d : DWord) (t : σ) : σ × Bool :=
  if wmask mask w = 0 then (t, true)
  else T.write32 t a ((d >>> (32 * w)).setWidth 32) (wmask mask w)

/-- One double-word write: the low word, then the high word (rules R53, R173). -/
def writeDouble (T : Target σ) (mask : DWord) (a : Nat) (d : DWord) (t : σ) : σ × Bool :=
  match writeLane T mask 0 a d t with
  | (t1, false) => (t1, false)
  | (t1, true) => writeLane T mask 1 (a + 4) d t1

/-- The double-words of a payload from byte address `a` on; the first failure ends it and nothing is undone (rules R173,
R176). -/
def writeDoubles (T : Target σ) (mask : DWord) : List DWord → Nat → σ → σ × Bool
  | [], _, t => (t, true)
  | d :: ds, a, t =>
    match writeDouble T mask a d t with
    | (t1, false) => (t1, false)
    | (t1, true) => writeDoubles T mask ds (a + 8) t1

/-- `maint_write(T, req)` of rule R173; an error is Fatal, raised before any call (rule R174). -/
def maintWrite (T : Target σ) (P : Packet) (t : σ) : Except FatalReason (Access σ) :=
  if P.payloadLen ≠ divCeil8 P.rdwrBytes then .error .payloadLen
  else
    match rdwrDwMaskFromSpan P.rdwrBytes P.dwOffset with
    | .error e => .error e
    | .ok mask =>
      match writeDoubles T mask P.payload (configAddress P) t with
      | (t1, false) => .ok ⟨t1, statusError, []⟩
      | (t1, true) => .ok ⟨t1, statusDone, []⟩

end Sys2Proof.Machine
end

