-- ==== Sys2Proof/Machine/Engine.lean ====
section
/-! DEFINITION. The switching and routing engine: lookup, fan-out, hop-count forwarding, terminal handling (rules R190 to
R207). Each operation is given the state whose next event is the one being handled, and ends that event. -/

namespace Sys2Proof.Machine

open Sys2Proof

/-- `lookup(dest_id)` of rule R194: the port bitmap, none for an unmapped destination. -/
def State.lookup (s : State) (dest : Nat) : Option (BitVec 8) :=
  if s.params.nDest ≤ dest then none
  else if (s.entry dest).getLsbD 0 = false then none
  else some ((s.entry dest).extractLsb' 24 8)

/-- The implemented ports a bitmap selects, in ascending order (rule R195). -/
def selectedPorts (nPorts : Nat) (bitmap : BitVec 8) : List Nat :=
  (List.range nPorts).filter fun p => bitmap.getLsbD p

/-- `forward(dest_id, g)` of rule R195. -/
def forward (dest : Nat) (g : Frame) (s : State) : State :=
  match s.lookup dest with
  | none => raiseError .routing s
  | some bitmap => s.finish ((selectedPorts s.params.nPorts bitmap).map fun p => .deliver p g) .forwarded

/-- The response to a terminal request (rule R198), a copy of the request with the listed fields replaced. -/
def responsePacket (P : Packet) (status : Nat) (payload : List DWord) : Packet :=
  { P with
    destId := P.srcId, srcId := P.destId, targetTid := P.srcTid, hopCount := 0xFF, transaction := P.transaction + 2,
    status := status, payload := payload }

/-- The end of rule R198: the response goes back out of the ingress port. An encoding that fails is Fatal (rule R204; it
cannot happen under legal parameters). -/
def respond (port : Nat) (P : Packet) (r : Except FatalReason (Access State)) (s : State) : State :=
  match r with
  | .error _ => raiseError .fatal s
  | .ok acc =>
    match encodePacket s.params (responsePacket P acc.status acc.payload) with
    | .error _ => raiseError .fatal acc.target
    | .ok g => acc.target.finish [.deliver port g] .responded

/-- A terminal read request (rule R198). -/
def terminalRead (port : Nat) (P : Packet) (s : State) : State :=
  respond port P (maintRead localTarget P s) s

/-- A terminal write request (rule R198). -/
def terminalWrite (port : Nat) (P : Packet) (s : State) : State :=
  respond port P (maintWrite localTarget P s) s

/-- A terminal maintenance packet that is not a request (rule R199). -/
def terminalUnhandled (s : State) : State :=
  s.finish [] .dropMaintUnhandled

/-- Forwarding with decrement (rule R200), for a packet whose hop count is not 0. -/
def hopForward (P : Packet) (s : State) : State :=
  match encodePacket s.params { P with hopCount := P.hopCount - 1 } with
  | .error _ => raiseError .fatal s
  | .ok g => forward P.destId g s

/-- `terminal(i, P)` of rule R198. -/
def terminal (port : Nat) (P : Packet) (s : State) : State :=
  if P.transaction = 0 then terminalRead port P s
  else if P.transaction = 1 then terminalWrite port P s
  else terminalUnhandled s

/-- `ingress(i, f)` of rule R191, the engine's algorithm as the rule writes it. `step` runs it by way of the decoded
instruction; a statement says that the two agree. -/
def ingress (port : Nat) (f : Frame) (s : State) : State :=
  if s.fatal then s.finish [] .ignoredFatal
  else
    match decodeHeader s.params f with
    | .error r => raiseError (.decode r) s
    | .ok (H, c) =>
      if H.ftype ≠ 8 then forward H.destId f s
      else
        match decodeBody s.params H f c with
        | .error r => raiseError (.decode r) s
        | .ok (P, _) => if P.hopCount = 0 then terminal port P s else hopForward P s

/-- The arrival of a frame as a meaning sees it: the port and the original bytes of the next event. While `fatal` is set
the event is ignored (rules R38, R191). -/
def onIngress (s : State) (handle : Nat → Frame → State) : Host.Outcome State Fault Refusal :=
  match s.inbox with
  | .ingress port f :: _ => .next (if s.fatal then s.finish [] .ignoredFatal else handle port f)
  | _ => .fault .noIngressEvent

/-- What every kind but the maintenance kinds does: its original bytes are forwarded on its common header alone (rules R193,
R205). -/
def forwardOriginal (h : Header) (s : State) : Host.Outcome State Fault Refusal :=
  onIngress s fun _ f => forward h.destId.toNat f s

end Sys2Proof.Machine
end

