-- ==== Sys2Proof/Machine/Arrival.lean ====
section
/-! DEFINITION. What a step does with the events that run no instruction: a frame that does not decode whole, and the
host's events (rules R192, R193, R232, R280). -/

namespace Sys2Proof.Machine

open Sys2Proof

/-- A frame whose decoding failed with `e`. Only a maintenance frame's body is the engine's business: a recognised frame of
another type is forwarded on its common header (rule R193); any other failure is a DecodeError (rule R192). -/
def undecoded (e : DecodeError) (f : Frame) (s : State) : State :=
  match decodeHeader s.params f with
  | .error r => raiseError (.decode r) s
  | .ok (H, _) => if H.ftype = 8 then raiseError (.decode e) s else forward H.destId f s

/-- The host reads a local register (rule R232). -/
def hostReadEvent (a : Nat) (s : State) : State :=
  s.endEvent [.hostReadDone (s.localRead32 a)]

/-- The host writes a local register (rule R232). -/
def hostWriteEvent (a : Nat) (v m : Word) (s : State) : State :=
  (s.localWrite32 a v m).1.endEvent [.hostWriteDone (s.localWrite32 a v m).2]

/-- The host looks at the status outputs (rules R232, R256). -/
def hostStatusEvent (s : State) : State :=
  s.endEvent [.status s.malformedCnt s.fatal]

end Sys2Proof.Machine
end

