-- ==== Sys2Proof/Machine/IoLogical.lean ====
section
/-! DEFINITION. The meanings of the read and write kinds (rules R130 to R133). The engine decodes their common header only
and forwards their original bytes; the memory address they carry names memory of an endpoint (rule R34). -/

namespace Sys2Proof.Machine

open Sys2Proof

/-- NREAD (rules R130, R193): forwarded unchanged. -/
def execNread (h : Header) (_srcTid : BitVec 8) (_address : BitVec 29) (_xamsbs : BitVec 2) (_span : Span) (s : State) :
    Host.Outcome State Fault Refusal :=
  forwardOriginal h s

/-- NWRITE (rules R131, R193): forwarded unchanged. -/
def execNwrite (h : Header) (_srcTid : BitVec 8) (_address : BitVec 29) (_xamsbs : BitVec 2) (_span : Span)
    (_payload : List DWord) (s : State) : Host.Outcome State Fault Refusal :=
  forwardOriginal h s

/-- NWRITE_R (rules R132, R193): forwarded unchanged; an endpoint makes the response. -/
def execNwriteR (h : Header) (_srcTid : BitVec 8) (_address : BitVec 29) (_xamsbs : BitVec 2) (_span : Span)
    (_payload : List DWord) (s : State) : Host.Outcome State Fault Refusal :=
  forwardOriginal h s

/-- SWRITE (rules R133, R193): forwarded unchanged. -/
def execSwrite (h : Header) (_address : BitVec 29) (_xamsbs : BitVec 2) (_payload : List DWord) (s : State) :
    Host.Outcome State Fault Refusal :=
  forwardOriginal h s

end Sys2Proof.Machine
end

