-- ==== Sys2Proof/Machine/Maintenance.lean ====
section
/-! DEFINITION. The meanings of the maintenance kinds (rules R134 to R137, R197 to R200). -/

namespace Sys2Proof.Machine

open Sys2Proof

/-- MAINT_RD_REQ (rule R134): with hop count 0 the local registers are read and the answer leaves by the ingress port (rule
R198); otherwise the hop count is decremented and the packet forwarded (rule R200). -/
def execMaintRdReq (h : Header) (srcTid hopCount : BitVec 8) (configOffset : BitVec 21) (span : Span) (s : State) :
    Host.Outcome State Fault Refusal :=
  onIngress s fun port _ =>
    let P := (Instr.maintRdReq h srcTid hopCount configOffset span).toPacket
    if hopCount = 0 then terminalRead port P s else hopForward P s

/-- MAINT_WR_REQ (rule R135): with hop count 0 the masked writes are made and answered (rule R198); otherwise the hop count
is decremented and the packet forwarded (rule R200). -/
def execMaintWrReq (h : Header) (srcTid hopCount : BitVec 8) (configOffset : BitVec 21) (span : Span) (payload : List DWord)
    (s : State) : Host.Outcome State Fault Refusal :=
  onIngress s fun port _ =>
    let P := (Instr.maintWrReq h srcTid hopCount configOffset span payload).toPacket
    if hopCount = 0 then terminalWrite port P s else hopForward P s

/-- MAINT_RD_RESP (rule R136): with hop count 0 it is dropped (rule R199); otherwise the hop count is decremented and the
packet forwarded (rule R200). -/
def execMaintRdResp (h : Header) (status : BitVec 4) (targetTid hopCount : BitVec 8) (payload : List DWord) (s : State) :
    Host.Outcome State Fault Refusal :=
  onIngress s fun _ _ =>
    if hopCount = 0 then terminalUnhandled s
    else hopForward (Instr.maintRdResp h status targetTid hopCount payload).toPacket s

/-- MAINT_WR_RESP (rule R137): as MAINT_RD_RESP. -/
def execMaintWrResp (h : Header) (status : BitVec 4) (targetTid hopCount : BitVec 8) (s : State) :
    Host.Outcome State Fault Refusal :=
  onIngress s fun _ _ =>
    if hopCount = 0 then terminalUnhandled s
    else hopForward (Instr.maintWrResp h status targetTid hopCount).toPacket s

end Sys2Proof.Machine
end

