-- ==== Sys2Proof/Machine/Messaging.lean ====
section
/-! DEFINITION. The meanings of the doorbell and message kinds (rules R138, R139), forwarded unchanged on their common
header. -/

namespace Sys2Proof.Machine

open Sys2Proof

/-- DOORBELL (rules R138, R193): forwarded unchanged. -/
def execDoorbell (h : Header) (_srcTid : BitVec 8) (_info : BitVec 16) (s : State) : Host.Outcome State Fault Refusal :=
  forwardOriginal h s

/-- MESSAGE (rules R139, R193): forwarded unchanged. -/
def execMessage (h : Header) (_msgLen _segSize : BitVec 4) (_letter _mbox : BitVec 2) (_msgSeg : BitVec 4)
    (_payload : List DWord) (s : State) : Host.Outcome State Fault Refusal :=
  forwardOriginal h s

end Sys2Proof.Machine
end

