-- ==== Sys2Proof/Machine/Responses.lean ====
section
/-! DEFINITION. The meanings of the response kinds (rules R140 to R142), forwarded unchanged on their common header: the
block remembers no request (rule R35). -/

namespace Sys2Proof.Machine

open Sys2Proof

/-- RESP_NODATA (rules R140, R193): forwarded unchanged. -/
def execRespNodata (h : Header) (_status : BitVec 4) (_targetTid : BitVec 8) (s : State) :
    Host.Outcome State Fault Refusal :=
  forwardOriginal h s

/-- RESP_MSG (rules R141, R193): forwarded unchanged. -/
def execRespMsg (h : Header) (_status : BitVec 4) (_letter _mbox : BitVec 2) (_msgSeg : BitVec 4) (s : State) :
    Host.Outcome State Fault Refusal :=
  forwardOriginal h s

/-- RESP_DATA (rules R142, R193): forwarded unchanged. -/
def execRespData (h : Header) (_status : BitVec 4) (_targetTid : BitVec 8) (_payload : List DWord) (s : State) :
    Host.Outcome State Fault Refusal :=
  forwardOriginal h s

end Sys2Proof.Machine
end

