-- ==== Sys2Proof/Machine/Dispatch.lean ====
section
/-! DEFINITION. One arm per packet kind. -/

namespace Sys2Proof.Machine

open Sys2Proof

def exec (i : Instr) (s : State) : Host.Outcome State Fault Refusal :=
  match i with
  | .nread h tid a x sp => Sys2Proof.Machine.execNread h tid a x sp s
  | .nwrite h tid a x sp pl => Sys2Proof.Machine.execNwrite h tid a x sp pl s
  | .nwriteR h tid a x sp pl => Sys2Proof.Machine.execNwriteR h tid a x sp pl s
  | .swrite h a x pl => Sys2Proof.Machine.execSwrite h a x pl s
  | .maintRdReq h tid hop off sp => Sys2Proof.Machine.execMaintRdReq h tid hop off sp s
  | .maintWrReq h tid hop off sp pl => Sys2Proof.Machine.execMaintWrReq h tid hop off sp pl s
  | .maintRdResp h st tid hop pl => Sys2Proof.Machine.execMaintRdResp h st tid hop pl s
  | .maintWrResp h st tid hop => Sys2Proof.Machine.execMaintWrResp h st tid hop s
  | .doorbell h tid info => Sys2Proof.Machine.execDoorbell h tid info s
  | .message h ml ss l mb seg pl => Sys2Proof.Machine.execMessage h ml ss l mb seg pl s
  | .respNodata h st tid => Sys2Proof.Machine.execRespNodata h st tid s
  | .respMsg h st l mb seg => Sys2Proof.Machine.execRespMsg h st l mb seg s
  | .respData h st tid pl => Sys2Proof.Machine.execRespData h st tid pl s

end Sys2Proof.Machine
end

