-- ==== Sys2Proof/Machine/Step.lean ====
section
/-! DEFINITION. One step handles one event of the environment to completion (rules R22, R60, R207). -/

namespace Sys2Proof.Machine

open Sys2Proof

/-- One event, processed to completion. With no event waiting the block is idle (rules R22, R264) and nothing changes. -/
def step (s : State) : Host.Outcome State Fault Refusal :=
  match s.inbox with
  | [] => .next s
  | .hostRead a :: _ => .next (hostReadEvent a s)
  | .hostWrite a v m :: _ => .next (hostWriteEvent a v m s)
  | .hostStatus :: _ => .next (hostStatusEvent s)
  | .reset :: _ => .next s.applyReset
  | .ingress port f :: _ =>
    if s.params.nPorts ≤ port then .refused (.portNotWired port)
    else if s.fatal then .next (s.finish [] .ignoredFatal)
    else
      match decode s.params f with
      | .ok (i, _) => exec i s
      | .error e => .next (undecoded e f s)

/-- The state whose next event is the arrival, on port 0, of the frame a header given as a number stands for; `fatal` is
clear, or the next step would ignore the frame. -/
def State.withFetchWord (s : State) (nbits w : Nat) : State :=
  { s with fatal := false, inbox := .ingress 0 (tableFrame s.params nbits w) :: s.inbox }

end Sys2Proof.Machine
end

