-- ==== Sys2Proof/WellFormed.lean ====
section
/-! DEFINITION. Well-formed instructions: those a frame can carry (rules R83, R97, R99). The widths of the other fields are
in the types of `Instr`. -/

namespace Sys2Proof

/-- Both device IDs fit the width class (rule R83). -/
def Header.wf (h : Header) : Bool :=
  decide (h.destId.toNat < 2 ^ (8 * idBytes h.width.tt)) && decide (h.srcId.toNat < 2 ^ (8 * idBytes h.width.tt))

/-- The span has a size code and needs no more than the largest payload (rules R97, R98, R101). -/
def Span.wf (pr : Params) (sp : Span) : Bool :=
  (sizeEncode sp).isSome && decide (divCeil8 sp.rdwrBytes ≤ pr.maxPayloadDw)

/-- A payload of the length its span asks for (payload rule `span` of R99). -/
def Span.wfPayload (pr : Params) (sp : Span) (pl : List DWord) : Bool :=
  sp.wf pr && decide (pl.length = divCeil8 sp.rdwrBytes)

/-- A payload no longer than the largest (payload rule `len` of R99). -/
def wfPayload (pr : Params) (pl : List DWord) : Bool :=
  decide (pl.length ≤ pr.maxPayloadDw)

/-- Well-formedness of an instruction. -/
def Instr.wf (pr : Params) : Instr → Bool
  | .nread h _ _ _ sp => h.wf && sp.wf pr
  | .nwrite h _ _ _ sp pl => h.wf && sp.wfPayload pr pl
  | .nwriteR h _ _ _ sp pl => h.wf && sp.wfPayload pr pl
  | .swrite h _ _ pl => h.wf && wfPayload pr pl
  | .maintRdReq h _ _ _ sp => h.wf && sp.wf pr
  | .maintWrReq h _ _ _ sp pl => h.wf && sp.wfPayload pr pl
  | .maintRdResp h _ _ _ pl => h.wf && wfPayload pr pl
  | .maintWrResp h _ _ _ => h.wf
  | .doorbell h _ _ => h.wf
  | .message h _ _ _ _ _ pl => h.wf && wfPayload pr pl
  | .respNodata h _ _ => h.wf
  | .respMsg h _ _ _ _ => h.wf
  | .respData h _ _ pl => h.wf && wfPayload pr pl

end Sys2Proof
end

