-- ==== Sys2Proof/Safety.lean ====
section
/-! DEFINITION. What counts as a sound state and a safe run, and the few terms the statements use beside the model's own. -/

namespace Sys2Proof

/-- The hop count of a maintenance kind, none for the others. -/
def Instr.hop : Instr → Option (BitVec 8)
  | .maintRdReq _ _ hop _ _ => some hop
  | .maintWrReq _ _ hop _ _ _ => some hop
  | .maintRdResp _ _ _ hop _ => some hop
  | .maintWrResp _ _ _ hop => some hop
  | _ => none

/-- The same maintenance instruction with another hop count. -/
def Instr.setHop (n : BitVec 8) : Instr → Instr
  | .maintRdReq h tid _ off sp => .maintRdReq h tid n off sp
  | .maintWrReq h tid _ off sp pl => .maintWrReq h tid n off sp pl
  | .maintRdResp h st tid _ pl => .maintRdResp h st tid n pl
  | .maintWrResp h st tid _ => .maintWrResp h st tid n
  | i => i

/-- A common header going back: the two device IDs change places (rule R198). -/
def Header.swap (h : Header) : Header :=
  { h with destId := h.srcId, srcId := h.destId }

/-- Whether stream bit `b` of a frame of kind `k`, whose logical header starts at byte `c`, is reserved (rule R96). -/
def reservedBit (k : Kind) (c b : Nat) : Bool :=
  k.layout.fields.any fun lf =>
    decide (lf.field = .reserved) && decide (8 * c + lf.offset ≤ b) && decide (b < 8 * c + lf.offset + lf.width)

end Sys2Proof

namespace Sys2Proof.Machine

open Sys2Proof

/-- Every listed byte of the register space belongs to the mapping table (rules R34, R57). -/
def State.memInTable (s : State) : Prop :=
  ∀ c ∈ s.mem, s.params.mapBase ≤ c.1 ∧ c.1 < s.params.mapBase + 4 * s.params.nDest

/-- The reserved bits of every entry are 0 (the invariant of rule R28). -/
def State.reservedClear (s : State) : Prop :=
  ∀ d, d < s.params.nDest → s.entry d &&& ~~~s.params.nrMask = 0

/-- The invariant every step keeps: canonical memory, nothing outside the table, reserved bits clear. -/
structure State.Inv (s : State) : Prop where
  memWf : s.mem.wf = true
  memInTable : s.memInTable
  reservedClear : s.reservedClear

/-- A state in which no invariant violation has been detected, under legal parameters (rules R5, R38). -/
structure State.Safe (s : State) : Prop where
  legal : s.params.Legal
  notFatal : s.fatal = false

/-- A byte address of the implemented part of the local register space (rule R57). -/
abbrev State.implemented (s : State) (a : Nat) : Prop :=
  s.params.mapBase ≤ a ∧ a < s.params.mapBase + 4 * s.params.nDest

/-- A destination the lookup answers as unmapped (rules R194, R252). -/
abbrev State.unmapped (s : State) (d : Nat) : Prop :=
  s.params.nDest ≤ d ∨ (s.entry d).getLsbD 0 = false

/-- The deliveries of a fan-out of frame `g` to destination `d`: every implemented port whose bit of the entry's bitmap is
set, in ascending order (rules R27, R195). -/
def State.fanOut (s : State) (d : Nat) (g : Frame) : List Output :=
  ((List.range s.params.nPorts).filter fun p => (s.entry d).getLsbD (24 + p)).map fun p => .deliver p g

/-- The state after an event that made the outputs `outs`, ended with disposition `d`, and changed nothing else. -/
def State.ended (s : State) (rest : List Event) (outs : List Output) (d : Disposition) : State :=
  { s with inbox := rest, outputs := s.outputs ++ (outs ++ [.ended d]) }

/-- Word `j` of a maintenance access, counted from its first word (rule R171): its lane mask. -/
def laneMask (m : DWord) (j : Nat) : Word :=
  wmask m (j % 2)

/-- The accessor call for word `j` of a maintenance write is made: its lane mask is not zero and every earlier call went to
an implemented address (rules R173, R176, R178). `a` is the byte address of word 0. -/
def State.writeAttempted (s : State) (m : DWord) (a cnt j : Nat) : Prop :=
  j < 2 * cnt ∧ laneMask m j ≠ 0 ∧ ∀ k, k < j → laneMask m k ≠ 0 → s.implemented (a + 4 * k)

end Sys2Proof.Machine
end

