-- ==== Sys2Proof/Certificates/Slice0/Obligations.lean ====
section
/-! DEFINITION. The statements for the provers. Each docstring names the rule of spec/ it formalises. -/

open Sys2Proof Sys2Proof.Machine

/-! ### The codec -/

/-- R124 over instructions: every well-formed instruction encodes, and its frame decodes to it, all bytes consumed. -/
def Obligations.DecodeOfEncodeGivesTheInstructionBack : Prop :=
  ∀ (pr : Params) (i : Instr), pr.Legal → i.wf pr = true →
    ∃ f, encode pr i = .ok f ∧ decode pr f = .ok (i, f.length)

/-- R123: under legal parameters exactly the well-formed instructions encode. -/
def Obligations.ExactlyWellFormedInstructionsEncode : Prop :=
  ∀ (pr : Params) (i : Instr), pr.Legal → ((∃ f, encode pr i = .ok f) ↔ i.wf pr = true)

/-- R31, R121: whatever decodes is well-formed, and no more bytes are consumed than there are. -/
def Obligations.DecodedInstructionsAreWellFormed : Prop :=
  ∀ (pr : Params) (f : Frame) (i : Instr) (n : Nat), decode pr f = .ok (i, n) → i.wf pr = true ∧ n ≤ f.length

/-- R124, item 1: a packet that encodes decodes to its canonical form. -/
def Obligations.EncodedPacketDecodesToItsCanon : Prop :=
  ∀ (pr : Params) (P : Packet) (f : Frame), encodePacket pr P = .ok f → decodePacket pr f = .ok (canon P, f.length)

/-- R124, item 2: a frame that decodes is encoded again as its own bytes with every reserved bit cleared. -/
def Obligations.ReencodingClearsOnlyReservedBits : Prop :=
  ∀ (pr : Params) (f : Frame) (P : Packet) (n : Nat), decodePacket pr f = .ok (P, n) →
    ∃ g k, encodePacket pr P = .ok g ∧ kindOf P.ftype P.transaction = some k ∧ g.length = n ∧ n ≤ f.length ∧
      ∀ b < 8 * n, bits g b 1 = if reservedBit k (commonLen P.tt) b then 0 else bits f b 1

/-- R124, item 3: `canon` is idempotent and decoding only produces canonical packets. -/
def Obligations.CanonIsANormalForm : Prop :=
  (∀ P : Packet, canon (canon P) = canon P) ∧
    ∀ (pr : Params) (f : Frame) (P : Packet) (n : Nat), decodePacket pr f = .ok (P, n) → canon P = P

/-- R96, R99: a frame that differs from a decoded one only in reserved bits and in the bytes after the packet decodes to
the same packet. -/
def Obligations.ReservedBitsAndExcessBytesAreIgnored : Prop :=
  ∀ (pr : Params) (f g : Frame) (P : Packet) (n : Nat) (k : Kind), decodePacket pr f = .ok (P, n) →
    kindOf P.ftype P.transaction = some k → g.length = f.length →
    (∀ b < 8 * n, reservedBit k (commonLen P.tt) b = false → bits g b 1 = bits f b 1) →
    decodePacket pr g = .ok (P, n)

/-- R120, stated on the bytes: the order of the tests, and the fields of a header that passes them. -/
def Obligations.HeaderDecodingFollowsTheBytes : Prop :=
  ∀ (pr : Params) (f : Frame),
    (pr.maxFrameBytes < f.length → decodeHeader pr f = .error .frameTooLong) ∧
      (f = [] → decodeHeader pr f = .error .truncated) ∧
      ∀ (b : Byte) (rest : Frame), f = b :: rest → f.length ≤ pr.maxFrameBytes →
        let tt := b.toNat / 16 % 4
        let ftype := b.toNat % 16
        let idb := 2 ^ tt
        (tt = 3 → decodeHeader pr f = .error .badTt) ∧
          (tt ≠ 3 → ftype ∉ [2, 5, 6, 8, 10, 11, 13] → decodeHeader pr f = .error .badFtype) ∧
          (tt ≠ 3 → ftype ∈ [2, 5, 6, 8, 10, 11, 13] → f.length < 1 + 2 * idb → decodeHeader pr f = .error .truncated) ∧
          (tt ≠ 3 → ftype ∈ [2, 5, 6, 8, 10, 11, 13] → 1 + 2 * idb ≤ f.length →
            decodeHeader pr f =
              .ok ({ prio := b.toNat / 64, tt := tt, ftype := ftype, destId := beNat (rest.take idb),
                     srcId := beNat ((rest.drop idb).take idb) }, 1 + 2 * idb))

/-- R120: `decode_header` reads no byte after the common header. -/
def Obligations.HeaderDecodingReadsOnlyTheCommonHeader : Prop :=
  ∀ (pr : Params) (f g : Frame) (H : Packet) (c : Nat), decodeHeader pr f = .ok (H, c) → g.length ≤ pr.maxFrameBytes →
    c ≤ g.length → g.take c = f.take c → decodeHeader pr g = .ok (H, c)

/-- R101, with the reasons in the order of R257: the decoder rejects exactly the listed cases. -/
def Obligations.DecoderRejectsExactlyTheListedCases : Prop :=
  ∀ (pr : Params) (f : Frame),
    let tt := bits f 2 2
    let ftype := bits f 4 4
    let hdr := 1 + 2 * 2 ^ tt
    let len := if ftype ∈ [2, 5, 8] then 6 else if ftype ∈ [6, 10] then 4 else 2
    let tr := bits f (8 * hdr) 4
    let cnt := divCeil8 (sizeDecode (bits f (8 * hdr + 4) 4) (bits f (8 * hdr + 45) 1)).rdwrBytes
    (match decodePacket pr f with
      | .error e => some e
      | .ok _ => none) =
      if pr.maxFrameBytes < f.length then some .frameTooLong
      else if f.length = 0 then some .truncated
      else if tt = 3 then some .badTt
      else if ftype ∉ [2, 5, 6, 8, 10, 11, 13] then some .badFtype
      else if f.length < hdr then some .truncated
      else if f.length < hdr + len then some .truncated
      else if ftype ∉ [6, 10, 11] ∧
          (ftype, tr) ∉ [(2, 4), (5, 4), (5, 5), (8, 0), (8, 1), (8, 2), (8, 3), (13, 0), (13, 1), (13, 8)] then
        some .badTransaction
      else if (ftype ∈ [2, 5] ∨ ftype = 8 ∧ tr ≤ 1) ∧ pr.maxPayloadDw < cnt then some .spanTooLarge
      else if (ftype = 5 ∨ ftype = 8 ∧ tr = 1) ∧ f.length < hdr + len + 8 * cnt then some .truncated
      else if (ftype ∈ [6, 11] ∨ ftype = 8 ∧ tr = 2 ∨ ftype = 13 ∧ tr = 8) ∧
          pr.maxPayloadDw < (f.length - (hdr + len)) / 8 then
        some .spanTooLarge
      else none

/-- R97, R128: the size table written out, and the two functions inverse to each other on it. -/
def Obligations.SizeTableIsABijection : Prop :=
  let table : List (Nat × Nat × Nat × Nat) :=
    [(0, 0, 1, 0), (0, 1, 1, 4), (1, 0, 1, 1), (1, 1, 1, 5), (2, 0, 1, 2), (2, 1, 1, 6), (3, 0, 1, 3), (3, 1, 1, 7),
     (4, 0, 2, 0), (4, 1, 2, 4), (5, 0, 3, 0), (5, 1, 3, 5), (6, 0, 2, 2), (6, 1, 2, 6), (7, 0, 5, 0), (7, 1, 5, 3),
     (8, 0, 4, 0), (8, 1, 4, 4), (9, 0, 6, 0), (9, 1, 6, 2), (10, 0, 7, 0), (10, 1, 7, 1), (11, 0, 8, 0),
     (11, 1, 16, 0), (12, 0, 32, 0), (12, 1, 64, 0), (13, 0, 96, 0), (13, 1, 128, 0), (14, 0, 160, 0),
     (14, 1, 192, 0), (15, 0, 224, 0), (15, 1, 256, 0)]
  (∀ r ∈ table, sizeDecode r.1 r.2.1 = ⟨r.2.2.1, r.2.2.2⟩ ∧ sizeEncode ⟨r.2.2.1, r.2.2.2⟩ = some (r.1, r.2.1)) ∧
    (∀ (sp : Span) (c : Nat × Nat), sizeEncode sp = some c → sizeDecode c.1 c.2 = sp ∧ (c.1, c.2, sp.rdwrBytes, sp.dwOffset) ∈ table) ∧
    ∀ sz wp, sz < 16 → wp < 2 → sizeEncode (sizeDecode sz wp) = some (sz, wp)

/-- R103: the bounds on the length of a frame, each attained. -/
def Obligations.FrameLengthBounds : Prop :=
  (∀ (pr : Params) (f : Frame) (i : Instr) (n : Nat), decode pr f = .ok (i, n) → 5 ≤ n ∧ 5 ≤ f.length) ∧
    (∀ pr : Params, pr.Legal → ∀ k ∈ [Kind.respNodata, .message],
      ∃ f i, f.length = 5 ∧ i.kind = k ∧ decode pr f = .ok (i, 5)) ∧
    (∀ (w : IdWidth) (k : Kind), commonLen w.tt + k.layout.len ≤ 15) ∧
    (∃ (w : IdWidth) (k : Kind), commonLen w.tt + k.layout.len = 15) ∧
    (∀ (pr : Params) (i : Instr) (f : Frame), encode pr i = .ok f → f.length ≤ 15 + 8 * pr.maxPayloadDw) ∧
    (∀ pr : Params, pr.Legal →
      15 + 8 * pr.maxPayloadDw ≤ pr.maxFrameBytes ∧ ∃ i f, encode pr i = .ok f ∧ f.length = 15 + 8 * pr.maxPayloadDw)

/-- R130, R131, R134, R135, R138, R142: worked frames of the spec decode to the packets they stand for. -/
def Obligations.WorkedFramesDecode : Prop :=
  decode Params.reference [0x42, 0x12, 0x34, 0x48, 0xAB, 0x09, 0x1A, 0x2B, 0x3E] =
      .ok (.nread ⟨1, .w8, 0x12, 0x34⟩ 0xAB 0x1234567 2 ⟨4, 4⟩, 9) ∧
    decode Params.reference
        [0x15, 0xBE, 0xEF, 0x00, 0x01, 0x4B, 0x01, 0xFF, 0xFF, 0xFF, 0xFB, 0x01, 0x23, 0x45, 0x67, 0x89, 0xAB, 0xCD, 0xEF] =
      .ok (.nwrite ⟨0, .w16, 0xBEEF, 1⟩ 1 0x1FFFFFFF 3 ⟨8, 0⟩ [0x0123456789ABCDEF], 19) ∧
    decode Params.reference [0x08, 0x05, 0x09, 0x08, 0x42, 0x00, 0x00, 0x00, 0x10] =
      .ok (.maintRdReq ⟨0, .w8, 5, 9⟩ 0x42 0 2 ⟨4, 0⟩, 9) ∧
    decode Params.reference
        [0x08, 0x05, 0x09, 0x18, 0x43, 0x03, 0xFF, 0xFF, 0xFC, 0xCA, 0xFE, 0xF0, 0x0D, 0x00, 0x00, 0x00, 0x00] =
      .ok (.maintWrReq ⟨0, .w8, 5, 9⟩ 0x43 3 0x1FFFFF ⟨4, 4⟩ [0xCAFEF00D00000000], 17) ∧
    decode Params.reference [0x5A, 0x01, 0x02, 0x03, 0x04, 0x00, 0x77, 0xBE, 0xEF] =
      .ok (.doorbell ⟨1, .w16, 0x0102, 0x0304⟩ 0x77 0xBEEF, 9) ∧
    decode Params.reference
        [0xAD, 0xA1, 0xB2, 0xC3, 0xD4, 0x01, 0x02, 0x03, 0x04, 0x80, 0xAB, 0xFF, 0xFF, 0xFF, 0xFF, 0xFF, 0xFF, 0xFF, 0xFF] =
      .ok (.respData ⟨2, .w32, 0xA1B2C3D4, 0x01020304⟩ 0 0xAB [0xFFFFFFFFFFFFFFFF], 19)

/-- R126: the address conversions, exact, and where they are reversible. -/
def Obligations.AddressHelpersConvertExactly : Prop :=
  (∀ b, byteToDw b = b / 8) ∧ (∀ d, dwToByte d = 8 * d) ∧ (∀ d, dwToWord d = 2 * d) ∧ (∀ w, wordToDw w = w / 2) ∧
    (∀ w, wordToByte w = 4 * w) ∧ (∀ b, dwToByte (byteToDw b) = b ↔ b % 8 = 0) ∧ (∀ d, byteToDw (dwToByte d) = d) ∧
    ∀ d, wordToDw (dwToWord d) = d ∧ wordToByte (dwToWord d) = dwToByte d

/-! ### The translator -/

/-- R125: the mask of a span, byte by byte; every span of a size code has one; and the spans that have none. -/
def Obligations.MaskSelectsTheBytesOfTheSpan : Prop :=
  (∀ b o, 1 ≤ b → b ≤ 8 → o + b ≤ 8 →
      ∃ m, rdwrDwMaskFromSpan b o = .ok m ∧ ∀ k, k < 64 → m.getLsbD k = decide (8 * o ≤ k ∧ k < 8 * (o + b))) ∧
    (∀ b, 8 ≤ b → b % 8 = 0 → rdwrDwMaskFromSpan b 0 = .ok (BitVec.allOnes 64)) ∧
    (∀ sz wp, sz < 16 → wp < 2 →
      ∃ m, rdwrDwMaskFromSpan (sizeDecode sz wp).rdwrBytes (sizeDecode sz wp).dwOffset = .ok m) ∧
    ∀ b o, ¬ (1 ≤ b ∧ b ≤ 7 ∧ o + b ≤ 8) → ¬ (8 ≤ b ∧ b % 8 = 0 ∧ o = 0) → rdwrDwMaskFromSpan b o = .error .badSpan

/-- R178: the accessor calls of a read and of a write, in order, over any target whose failing addresses are given: one call
for each word with a non-zero lane mask, in order of increasing address, none after the first `Fail`. -/
def Obligations.AccessorCallsInOrderUpToTheFirstFail : Prop :=
  ∀ (σ : Type) (T : Target σ) (bad : Nat → Bool) (P : Packet) (t : σ) (m : DWord),
    rdwrDwMaskFromSpan P.rdwrBytes P.dwOffset = .ok m →
    let cnt := divCeil8 P.rdwrBytes
    let words := (List.range (2 * cnt)).filter fun j => decide (laneMask m j ≠ 0)
    let good := words.takeWhile fun j => !bad (8 * P.configOffset + 4 * j)
    let made := good ++ (words.drop good.length).take 1
    ((∀ u a, (T.read32 u a).2 = none ↔ bad a = true) →
      ∃ acc, maintRead (recording T) P (t, []) = .ok acc ∧
        acc.target.2 = made.map (fun j => .read (8 * P.configOffset + 4 * j)) ∧
        (acc.status = 0 ↔ good = words) ∧ (acc.status = 7 ↔ good ≠ words)) ∧
      ((∀ u a v w, (T.write32 u a v w).2 = !bad a) → P.payload.length = cnt →
        ∃ acc, maintWrite (recording T) P (t, []) = .ok acc ∧
          acc.target.2 =
            made.map (fun j => .write (8 * P.configOffset + 4 * j)
              (((P.payload.getD (j / 2) 0) >>> (32 * (j % 2))).setWidth 32) (laneMask m j)) ∧
          acc.payload = [] ∧ (acc.status = 0 ↔ good = words) ∧ (acc.status = 7 ↔ good ≠ words))

/-- R174: the translator's invariant violations, over any target: the payload length is tested before the span. -/
def Obligations.IllegalRequestsAreFatalToTheTranslator : Prop :=
  ∀ (σ : Type) (T : Target σ) (P : Packet) (t : σ),
    (P.payload.length ≠ divCeil8 P.rdwrBytes → maintWrite T P t = .error .payloadLen) ∧
      (P.payload.length = divCeil8 P.rdwrBytes → rdwrDwMaskFromSpan P.rdwrBytes P.dwOffset = .error .badSpan →
        maintWrite T P t = .error .badSpan) ∧
      (rdwrDwMaskFromSpan P.rdwrBytes P.dwOffset = .error .badSpan → maintRead T P t = .error .badSpan)

/-! ### The local registers -/

/-- R230: what `LOCAL.read32` answers. -/
def Obligations.LocalReadRule : Prop :=
  ∀ (s : State) (a : Nat),
    (a % 4 ≠ 0 → s.localRead32 a = none) ∧ (¬ s.implemented a → s.localRead32 a = none) ∧
      (a % 4 = 0 → s.implemented a →
        s.localRead32 a = some (s.entry ((a - s.params.mapBase) / 4) &&& s.params.nrMask))

/-- R231: what `LOCAL.write32` does. A failing call changes nothing; another merges one entry under the mask and the
non-reserved bits, and leaves every byte outside that entry and every other field alone. -/
def Obligations.LocalWriteRule : Prop :=
  ∀ (s : State) (a : Nat) (v m : Word), s.mem.wf = true →
    (a % 4 ≠ 0 ∨ ¬ s.implemented a → s.localWrite32 a v m = (s, false)) ∧
      (a % 4 = 0 → s.implemented a →
        ∃ t, s.localWrite32 a v m = (t, true) ∧
          (∀ d, d = (a - s.params.mapBase) / 4 →
            t.entry d = (s.entry d &&& ~~~(m &&& s.params.nrMask)) ||| (v &&& (m &&& s.params.nrMask)) ∧
            ∀ b, (b < s.params.mapBase + 4 * d ∨ s.params.mapBase + 4 * d + 4 ≤ b) → t.mem.readByte b = s.mem.readByte b) ∧
          t.params = s.params ∧ t.malformedCnt = s.malformedCnt ∧ t.fatal = s.fatal ∧ t.inbox = s.inbox ∧
          t.outputs = s.outputs)

/-- R63, R194: the lookup that follows a whole-word write of an entry sees the written `valid` bit and bitmap. -/
def Obligations.LookupSeesTheLastWrite : Prop :=
  ∀ (s : State) (d : Nat) (v : Word), s.mem.wf = true → s.params.Legal → s.params.nrMask = 0xFF000007 →
    d < s.params.nDest →
    ((s.localWrite32 (s.entryAddress d) v 0xFFFFFFFF).1.lookup d =
        if v.getLsbD 0 then some (v.extractLsb' 24 8) else none) ∧
      ∀ e, e ≠ d → (s.localWrite32 (s.entryAddress d) v 0xFFFFFFFF).1.lookup e = s.lookup e

/-- R232, at every value of `fatal`: the host's four events. Three things are the model's choice: that the answers are noted
in `outputs` (log entry 4), that a reset keeps the events still to come and the outputs already made (log entry 11), and that
the host sees the status outputs by an event of its own, `Event.hostStatus` (log entry 12: R232 and R256 give no mechanism). -/
def Obligations.HostEventsAnswerAndChangeNothingElse : Prop :=
  ∀ (s : State) (rest : List Event) (a : Nat) (v m : Word),
    (s.inbox = .hostRead a :: rest →
      step s = .next { s with inbox := rest, outputs := s.outputs ++ [.hostReadDone (s.localRead32 a)] }) ∧
      (s.inbox = .hostWrite a v m :: rest →
        step s = .next { s with mem := (s.localWrite32 a v m).1.mem, inbox := rest,
                                outputs := s.outputs ++ [.hostWriteDone (s.localWrite32 a v m).2] }) ∧
      (s.inbox = .hostStatus :: rest →
        step s = .next { s with inbox := rest, outputs := s.outputs ++ [.status s.malformedCnt s.fatal] }) ∧
      (s.inbox = .reset :: rest →
        step s = .next { State.resetWith s.params with inbox := rest, outputs := s.outputs })

/-- R281: the reset event, under any parameters, whatever the state. -/
def Obligations.ResetEventRestoresEveryPieceOfState : Prop :=
  ∀ (s : State) (rest : List Event), s.inbox = .reset :: rest →
    ∃ t, step s = .next t ∧ (∀ d, t.entry d = 0) ∧ t.malformedCnt = 0 ∧ t.fatal = false ∧ t.params = s.params

/-- R36: the values right after reset, under any parameters. -/
def Obligations.ResetValues : Prop :=
  (∀ (p : Params) (d : Nat), (State.resetWith p).entry d = 0) ∧
    (∀ p : Params, (State.resetWith p).malformedCnt = 0 ∧ (State.resetWith p).fatal = false) ∧
    (∀ d, State.reset.entry d = 0) ∧ State.reset.malformedCnt = 0 ∧ State.reset.fatal = false

/-! ### The instructions -/

/-- R193 to R195, for NREAD, NWRITE, NWRITE_R, SWRITE, DOORBELL, MESSAGE, RESP_NODATA, RESP_MSG and RESP_DATA: the original
bytes go to every selected port, or the event ends unmapped; nothing else changes. -/
def Obligations.NonMaintenanceKindsForwardTheOriginalBytes : Prop :=
  ∀ (s : State) (port : Nat) (f : Frame) (rest : List Event) (i : Instr),
    s.inbox = .ingress port f :: rest → s.fatal = false →
    i.kind ∈ [.nread, .nwrite, .nwriteR, .swrite, .doorbell, .message, .respNodata, .respMsg, .respData] →
    (s.unmapped i.header.destId.toNat → exec i s = .next (s.ended rest [] .dropUnmapped)) ∧
      (¬ s.unmapped i.header.destId.toNat →
        exec i s = .next (s.ended rest (s.fanOut i.header.destId.toNat f) .forwarded))

/-- R200, for the four maintenance kinds with a hop count other than 0: the same packet with the count one lower is
forwarded by the lookup of its destination; nothing else changes. -/
def Obligations.MaintenanceKindsForwardWithDecrement : Prop :=
  ∀ (s : State) (port : Nat) (f : Frame) (rest : List Event) (i : Instr) (hop : BitVec 8),
    s.inbox = .ingress port f :: rest → s.fatal = false → s.params.Legal → i.wf s.params = true →
    i.hop = some hop → hop ≠ 0 →
    ∃ g, encode s.params (i.setHop (hop - 1)) = .ok g ∧
      (s.unmapped i.header.destId.toNat → exec i s = .next (s.ended rest [] .dropUnmapped)) ∧
      (¬ s.unmapped i.header.destId.toNat →
        exec i s = .next (s.ended rest (s.fanOut i.header.destId.toNat g) .forwarded))

/-- R172, R198: a terminal MAINT_RD_REQ. If every word with a non-zero lane mask is implemented, the response carries the
masked words with status DONE; otherwise it carries none, with status ERROR. It leaves by the ingress port, with the device
IDs swapped, the request's transaction ID and hop count 0xFF; nothing else changes. -/
def Obligations.TerminalReadIsAnswered : Prop :=
  ∀ (s : State) (port : Nat) (f : Frame) (rest : List Event) (h : Header) (tid : BitVec 8) (off : BitVec 21) (sp : Span)
    (m : DWord),
    s.inbox = .ingress port f :: rest → s.fatal = false → s.params.Legal →
    (Instr.maintRdReq h tid 0 off sp).wf s.params = true → rdwrDwMaskFromSpan sp.rdwrBytes sp.dwOffset = .ok m →
    let cnt := divCeil8 sp.rdwrBytes
    let a := 8 * off.toNat
    let word := fun j => (s.localRead32 (a + 4 * j)).getD 0 &&& laneMask m j
    ((∀ j, j < 2 * cnt → laneMask m j ≠ 0 → s.implemented (a + 4 * j)) →
      ∃ g, encode s.params
          (.maintRdResp h.swap 0 tid 0xFF ((List.range cnt).map fun k => word (2 * k + 1) ++ word (2 * k))) = .ok g ∧
        exec (.maintRdReq h tid 0 off sp) s = .next (s.ended rest [.deliver port g] .responded)) ∧
      ((∃ j, j < 2 * cnt ∧ laneMask m j ≠ 0 ∧ ¬ s.implemented (a + 4 * j)) →
        ∃ g, encode s.params (.maintRdResp h.swap 7 tid 0xFF []) = .ok g ∧
          exec (.maintRdReq h tid 0 off sp) s = .next (s.ended rest [.deliver port g] .responded))

/-- R173, R176, R198, R231: a terminal MAINT_WR_REQ. Each word whose call is made merges its entry; the words after the
first failing call, and every byte outside the words whose calls are made, stay as they were. The response has status DONE
if every word with a non-zero lane mask is implemented and ERROR otherwise. -/
def Obligations.TerminalWriteIsAnswered : Prop :=
  ∀ (s : State) (port : Nat) (f : Frame) (rest : List Event) (h : Header) (tid : BitVec 8) (off : BitVec 21) (sp : Span)
    (pl : List DWord) (m : DWord),
    s.inbox = .ingress port f :: rest → s.fatal = false → s.params.Legal → s.mem.wf = true →
    (Instr.maintWrReq h tid 0 off sp pl).wf s.params = true → rdwrDwMaskFromSpan sp.rdwrBytes sp.dwOffset = .ok m →
    let cnt := divCeil8 sp.rdwrBytes
    let a := 8 * off.toNat
    let slice := fun j => ((pl.getD (j / 2) 0) >>> (32 * (j % 2))).setWidth 32
    ∃ t st g, exec (.maintWrReq h tid 0 off sp pl) s = .next t ∧
      encode s.params (.maintWrResp h.swap st tid 0xFF) = .ok g ∧
      ((∀ j, j < 2 * cnt → laneMask m j ≠ 0 → s.implemented (a + 4 * j)) → st = 0) ∧
      ((∃ j, j < 2 * cnt ∧ laneMask m j ≠ 0 ∧ ¬ s.implemented (a + 4 * j)) → st = 7) ∧
      t.inbox = rest ∧ t.outputs = s.outputs ++ [.deliver port g, .ended .responded] ∧
      t.params = s.params ∧ t.malformedCnt = s.malformedCnt ∧ t.fatal = s.fatal ∧
      (∀ d j, d < s.params.nDest → s.writeAttempted m a cnt j → a + 4 * j = s.params.mapBase + 4 * d →
        t.entry d = (s.entry d &&& ~~~(laneMask m j &&& s.params.nrMask)) ||| (slice j &&& (laneMask m j &&& s.params.nrMask))) ∧
      ∀ b, (∀ j, s.writeAttempted m a cnt j → s.implemented (a + 4 * j) → b < a + 4 * j ∨ a + 4 * j + 4 ≤ b) →
        t.mem.readByte b = s.mem.readByte b

/-- R199: a maintenance response that arrives with hop count 0 is dropped; nothing else changes. -/
def Obligations.TerminalResponsesAreDropped : Prop :=
  ∀ (s : State) (port : Nat) (f : Frame) (rest : List Event) (h : Header) (st : BitVec 4) (tid : BitVec 8)
    (pl : List DWord),
    s.inbox = .ingress port f :: rest → s.fatal = false →
    exec (.maintRdResp h st tid 0 pl) s = .next (s.ended rest [] .dropMaintUnhandled) ∧
      exec (.maintWrResp h st tid 0) s = .next (s.ended rest [] .dropMaintUnhandled)

/-- R174, R254: a terminal request the decoder could not have produced sets `fatal`; no response, no access. That this is a
next state, and not a fault as R254 and U9 call it, is the model's choice (log entry 7). -/
def Obligations.IllegalTerminalRequestSetsFatal : Prop :=
  ∀ (s : State) (port : Nat) (f : Frame) (rest : List Event) (h : Header) (tid : BitVec 8) (off : BitVec 21) (sp : Span)
    (pl : List DWord),
    s.inbox = .ingress port f :: rest → s.fatal = false →
    (rdwrDwMaskFromSpan sp.rdwrBytes sp.dwOffset = .error .badSpan →
      exec (.maintRdReq h tid 0 off sp) s = .next (({ s with fatal := true } : State).ended rest [] .fatal)) ∧
      (pl.length ≠ divCeil8 sp.rdwrBytes ∨ rdwrDwMaskFromSpan sp.rdwrBytes sp.dwOffset = .error .badSpan →
        exec (.maintWrReq h tid 0 off sp pl) s = .next (({ s with fatal := true } : State).ended rest [] .fatal))

/-- R234: with `MAP_BASE` 0, the 4-byte write request at `config_offset` d div 2, `dw_offset` 4(d mod 2), writes entry `d`
and no other. -/
def Obligations.FourByteWriteReachesItsEntry : Prop :=
  ∀ (s : State) (d : Nat) (v : Word) (x : DWord), s.mem.wf = true → s.params.mapBase = 0 → d < s.params.nDest →
    (x >>> (32 * (d % 2))).setWidth 32 = v →
    ∃ acc, maintWrite localTarget
        { ftype := 8, transaction := 1, configOffset := d / 2, rdwrBytes := 4, dwOffset := 4 * (d % 2), payload := [x] } s =
          .ok acc ∧
      acc.status = 0 ∧
      acc.target.entry d = (s.entry d &&& ~~~s.params.nrMask) ||| (v &&& s.params.nrMask) ∧
      ∀ e, e ≠ d → acc.target.entry e = s.entry e

/-! ### Steps -/

/-- R191: a step on an arriving frame that decodes is exec of the decoded instruction, at every value of `fatal`. -/
def Obligations.StepRunsTheDecodedInstruction : Prop :=
  ∀ (s : State) (port : Nat) (f : Frame) (rest : List Event) (i : Instr) (n : Nat),
    s.inbox = .ingress port f :: rest → port < s.params.nPorts → decode s.params f = .ok (i, n) → step s = exec i s

/-- R191: a step on an arriving frame is the engine's algorithm. -/
def Obligations.StepIsTheIngressAlgorithm : Prop :=
  ∀ (s : State) (port : Nat) (f : Frame) (rest : List Event),
    s.inbox = .ingress port f :: rest → port < s.params.nPorts → step s = .next (ingress port f s)

/-- R192: a frame whose header, or whose maintenance body, does not decode is counted and dropped; nothing else changes. -/
def Obligations.MalformedFramesAreCountedAndDropped : Prop :=
  ∀ (s : State) (port : Nat) (f : Frame) (rest : List Event) (r : DecodeError),
    s.inbox = .ingress port f :: rest → port < s.params.nPorts → s.fatal = false →
    (decodeHeader s.params f = .error r ∨
      ∃ H c, decodeHeader s.params f = .ok (H, c) ∧ H.ftype = 8 ∧ decodeBody s.params H f c = .error r) →
    step s = .next (({ s with malformedCnt := s.malformedCnt + 1 } : State).ended rest [] (.dropDecode r))

/-- R193 to R195: a frame whose common header decodes and whose type is not maintenance is forwarded as it is, whatever its
body. -/
def Obligations.NonMaintenanceFramesAreForwardedBlind : Prop :=
  ∀ (s : State) (port : Nat) (f : Frame) (rest : List Event) (H : Packet) (c : Nat),
    s.inbox = .ingress port f :: rest → port < s.params.nPorts → s.fatal = false →
    decodeHeader s.params f = .ok (H, c) → H.ftype ≠ 8 →
    (s.unmapped H.destId → step s = .next (s.ended rest [] .dropUnmapped)) ∧
      (¬ s.unmapped H.destId → step s = .next (s.ended rest (s.fanOut H.destId f) .forwarded))

/-- R200, on the bytes: the forwarded maintenance frame is the arriving one with the hop-count byte one lower, the reserved
bits cleared and the bytes after the packet gone. -/
def Obligations.ForwardedMaintenanceFrameBitByBit : Prop :=
  ∀ (s : State) (port : Nat) (f : Frame) (rest : List Event) (P : Packet) (n : Nat) (k : Kind),
    s.inbox = .ingress port f :: rest → port < s.params.nPorts → s.fatal = false →
    decodePacket s.params f = .ok (P, n) → P.ftype = 8 → P.hopCount ≠ 0 → kindOf P.ftype P.transaction = some k →
    let hopBit := 8 * (commonLen P.tt + 2)
    ∃ g, g.length = n ∧ bits f hopBit 8 = P.hopCount ∧ bits g hopBit 8 = P.hopCount - 1 ∧
      (∀ b < 8 * n, (b < hopBit ∨ hopBit + 8 ≤ b) →
        bits g b 1 = if reservedBit k (commonLen P.tt) b then 0 else bits f b 1) ∧
      (s.unmapped P.destId → step s = .next (s.ended rest [] .dropUnmapped)) ∧
      (¬ s.unmapped P.destId → step s = .next (s.ended rest (s.fanOut P.destId g) .forwarded))

/-- R38, R191, R259: while `fatal` is set every arriving frame is ignored, decodable or not; only reset clears the flag. -/
def Obligations.FatalFlagIgnoresFramesUntilReset : Prop :=
  (∀ (s : State) (port : Nat) (f : Frame) (rest : List Event),
      s.inbox = .ingress port f :: rest → port < s.params.nPorts → s.fatal = true →
      step s = .next (s.ended rest [] .ignoredFatal) ∧ ∀ i, exec i s = .next (s.ended rest [] .ignoredFatal)) ∧
    ∀ s t : State, step s = .next t → s.fatal = true → s.inbox.head? ≠ some .reset → t.fatal = true

/-- R38, R204: under legal parameters no step sets `fatal`. -/
def Obligations.FatalIsUnreachable : Prop :=
  ∀ s t : State, s.params.Legal → s.fatal = false → step s = .next t → t.fatal = false ∧ t.params.Legal

/-- R28 and the canonical form: the invariant every step keeps. -/
def Obligations.InvariantIsKeptByEveryStep : Prop :=
  ∀ s t : State, s.Inv → step s = .next t → t.Inv ∧ t.params = s.params

/-- The invariant holds right after reset, under any parameters. -/
def Obligations.InvariantHoldsAtReset : Prop :=
  State.reset.Inv ∧ ∀ p, (State.resetWith p).Inv

/-- R202: every ingress event ends in exactly one disposition, with the deliveries and the state change of its row, under
legal parameters; and the dispositions' codes. -/
def Obligations.EveryIngressEventEndsInOneDisposition : Prop :=
  (∀ (s : State) (port : Nat) (f : Frame) (rest : List Event),
      s.params.Legal → s.inbox = .ingress port f :: rest → port < s.params.nPorts →
      ∃ t outs d, step s = .next t ∧ t.outputs = s.outputs ++ (outs ++ [.ended d]) ∧ t.inbox = rest ∧ t.params = s.params ∧
        (∀ o ∈ outs, ∃ p g, o = .deliver p g) ∧
        match d with
        | .forwarded => outs.length ≤ s.params.nPorts ∧ t.mem = s.mem ∧ t.malformedCnt = s.malformedCnt ∧ t.fatal = s.fatal
        | .responded => (∃ g, outs = [.deliver port g]) ∧ t.malformedCnt = s.malformedCnt ∧ t.fatal = s.fatal
        | .dropDecode _ => outs = [] ∧ t.mem = s.mem ∧ t.malformedCnt = s.malformedCnt + 1 ∧ t.fatal = s.fatal
        | .dropUnmapped => outs = [] ∧ t.mem = s.mem ∧ t.malformedCnt = s.malformedCnt ∧ t.fatal = s.fatal
        | .dropMaintUnhandled => outs = [] ∧ t.mem = s.mem ∧ t.malformedCnt = s.malformedCnt ∧ t.fatal = s.fatal
        | .fatal => outs = [] ∧ t.mem = s.mem ∧ t.malformedCnt = s.malformedCnt ∧ t.fatal = true
        | .ignoredFatal => s.fatal = true ∧ outs = [] ∧ t.mem = s.mem ∧ t.malformedCnt = s.malformedCnt ∧ t.fatal = s.fatal) ∧
    Disposition.code .forwarded = 0 ∧ Disposition.code .responded = 1 ∧ (∀ r, Disposition.code (.dropDecode r) = 2) ∧
    Disposition.code .dropUnmapped = 3 ∧ Disposition.code .dropMaintUnhandled = 4 ∧ Disposition.code .fatal = 5 ∧
    Disposition.code .ignoredFatal = 6

/-- R29: the table changes only by a host write, a reset, or a maintenance write request that arrives with hop count 0. -/
def Obligations.OnlyWritesAndResetChangeTheTable : Prop :=
  ∀ s t : State, step s = .next t → t.mem ≠ s.mem →
    (∃ a v m rest, s.inbox = .hostWrite a v m :: rest) ∨ (∃ rest, s.inbox = .reset :: rest) ∨
      ∃ port f rest h tid off sp pl n, s.inbox = .ingress port f :: rest ∧
        decode s.params f = .ok (.maintWrReq h tid 0 off sp pl, n)

/-- R37: the counter goes up by one, modulo 2^32, with every event that ends in DROP_DECODE, and nothing else changes it but
reset. -/
def Obligations.MalformedCountRule : Prop :=
  ∀ s t : State, step s = .next t → s.inbox.head? ≠ some .reset →
    (∀ r, t.outputs = s.outputs ++ [.ended (.dropDecode r)] →
      t.malformedCnt.toNat = (s.malformedCnt.toNat + 1) % 2 ^ 32) ∧
      ((∀ r, t.outputs ≠ s.outputs ++ [.ended (.dropDecode r)]) → t.malformedCnt = s.malformedCnt)

/-- R282: what the switch does straight after reset, under legal parameters. -/
def Obligations.StraightAfterReset : Prop :=
  ∀ (p : Params) (port : Nat) (f : Frame), p.Legal → port < p.nPorts →
    let s : State := { State.resetWith p with inbox := [.ingress port f] }
    (∀ H c, decodeHeader p f = .ok (H, c) → H.ftype ≠ 8 → step s = .next (s.ended [] [] .dropUnmapped)) ∧
      (∀ P n, decodePacket p f = .ok (P, n) → P.ftype = 8 → P.hopCount ≠ 0 → step s = .next (s.ended [] [] .dropUnmapped)) ∧
      (∀ P n, decodePacket p f = .ok (P, n) → P.ftype = 8 → P.hopCount = 0 → P.transaction ≤ 1 →
        ∃ t g, step s = .next t ∧ t.outputs = [.deliver port g, .ended .responded]) ∧
      ∀ H c r, decodeHeader p f = .error r ∨
          decodeHeader p f = .ok (H, c) ∧ H.ftype = 8 ∧ decodeBody p H f c = .error r →
        ∃ t, step s = .next t ∧ t.outputs = [.ended (.dropDecode r)] ∧ t.malformedCnt = 1

/-- R196: two states that differ only in the mapping type of one entry forward a frame alike, be it a frame that is not
maintenance or a maintenance frame with hops left. -/
def Obligations.MappingTypeHasNoEffectOnForwarding : Prop :=
  ∀ (s : State) (d : Nat) (v : Word) (port : Nat) (f : Frame) (rest : List Event) (H : Packet) (c : Nat),
    s.mem.wf = true → (∀ k, k ≠ 1 → k ≠ 2 → v.getLsbD k = (s.entry d).getLsbD k) →
    s.inbox = .ingress port f :: rest → port < s.params.nPorts → decodeHeader s.params f = .ok (H, c) →
    (H.ftype ≠ 8 ∨ ∃ P n, decodeBody s.params H f c = .ok (P, n) ∧ P.hopCount ≠ 0) →
    ∃ t u, step s = .next t ∧ step (s.setEntry d v) = .next u ∧ u.outputs = t.outputs ∧ u.malformedCnt = t.malformedCnt ∧
      u.fatal = t.fatal

/-- R195: the ports of a fan-out, in ascending order, each once. -/
def Obligations.FanOutServesEachSelectedPortOnceInOrder : Prop :=
  ∀ (n : Nat) (bm : BitVec 8), (selectedPorts n bm).Pairwise (· < ·) ∧
    ∀ p, p ∈ selectedPorts n bm ↔ p < n ∧ bm.getLsbD p = true

/-- The model's own choices (log entries 4 and 5): a step with no event waiting changes nothing, an ingress event on a port
that is not wired is refused, and a meaning called on a state whose next event is not an arriving frame faults. -/
def Obligations.IdleUnwiredAndStrayCases : Prop :=
  (∀ s : State, s.inbox = [] → step s = .next s) ∧
    (∀ (s : State) (port : Nat) (f : Frame) (rest : List Event), s.inbox = .ingress port f :: rest →
      s.params.nPorts ≤ port → step s = .refused (.portNotWired port)) ∧
    ∀ (s : State) (i : Instr), (∀ port f rest, s.inbox ≠ .ingress port f :: rest) →
      exec i s = .fault .noIngressEvent
end

