-- ==== Sys2Proof/Laws/Bits.lean ====
section
/-! SUPPORT. Bit fields of a byte sequence: what appending does to them, and the bytes a number is written as. -/

namespace Sys2Proof

/-! ### The number a byte sequence spells -/

@[simp] theorem beNat_nil : beNat [] = 0 := rfl

theorem beNat_foldl (f : Frame) (acc : Nat) :
    f.foldl (fun acc b => 256 * acc + b.toNat) acc = acc * 256 ^ f.length + beNat f := by
  induction f generalizing acc with
  | nil => simp
  | cons b f ih =>
    unfold beNat
    simp only [List.foldl_cons, List.length_cons, Nat.mul_zero, Nat.zero_add]
    rw [ih, ih b.toNat, Nat.pow_succ]
    ring

theorem beNat_cons (b : Byte) (f : Frame) : beNat (b :: f) = b.toNat * 256 ^ f.length + beNat f := by
  rw [← beNat_foldl]
  simp [beNat]

theorem beNat_append (x y : Frame) : beNat (x ++ y) = beNat x * 256 ^ y.length + beNat y := by
  rw [← beNat_foldl]
  simp [beNat]

theorem beNat_lt (f : Frame) : beNat f < 256 ^ f.length := by
  induction f with
  | nil => simp
  | cons b f ih =>
    rw [beNat_cons, List.length_cons, Nat.pow_succ]
    have := b.isLt
    nlinarith

/-- A byte sequence is the number it spells, written in its own length. -/
theorem beNat_injective {x y : Frame} (hl : x.length = y.length) (h : beNat x = beNat y) : x = y := by
  induction x generalizing y with
  | nil => exact (List.length_eq_zero_iff.1 hl.symm).symm
  | cons a x ih =>
    cases y with
    | nil => simp at hl
    | cons b y =>
      have hl' : x.length = y.length := by simpa using hl
      rw [beNat_cons, beNat_cons, hl'] at h
      have hx := beNat_lt x
      have hy := beNat_lt y
      rw [hl'] at hx
      have hpos : 0 < 256 ^ y.length := Nat.pos_of_ne_zero (by positivity)
      have hab : a.toNat = b.toNat := by
        have := congrArg (· / 256 ^ y.length) h
        simpa [Nat.mul_comm _ (256 ^ y.length), Nat.mul_add_div hpos, Nat.div_eq_of_lt hx, Nat.div_eq_of_lt hy] using this
      rw [BitVec.eq_of_toNat_eq hab, ih hl' (by rw [hab] at h; omega)]

/-! ### Writing a number as bytes -/

@[simp] theorem length_beBytes (n v : Nat) : (beBytes n v).length = n := by
  induction n with
  | zero => rfl
  | succ n ih => simp [beBytes, ih]

theorem beNat_beBytes (n v : Nat) : beNat (beBytes n v) = v % 256 ^ n := by
  induction n with
  | zero => simp [beBytes, Nat.mod_one]
  | succ n ih =>
    rw [beBytes, beNat_cons, ih, length_beBytes, Nat.pow_succ, BitVec.toNat_ofNat, Nat.mod_mul]
    ring

/-- The payload's bytes. -/
theorem length_payload (ds : List DWord) : (ds.flatMap fun d => beBytes 8 d.toNat).length = 8 * ds.length := by
  induction ds with
  | nil => rfl
  | cons d ds ih =>
    simp only [List.flatMap_cons, List.length_append, length_beBytes, ih, List.length_cons]
    ring

/-! ### Fields -/

theorem bits_lt (f : Frame) (p w : Nat) : bits f p w < 2 ^ w :=
  Nat.mod_lt _ (by positivity)

theorem two_pow_eight_mul (n : Nat) : 2 ^ (8 * n) = 256 ^ n := by
  rw [Nat.pow_mul]

/-- A field inside the first part of a frame. -/
theorem bits_append_left {x : Frame} (y : Frame) {p w : Nat} (h : p + w ≤ 8 * x.length) :
    bits (x ++ y) p w = bits x p w := by
  unfold bits
  rw [beNat_append, List.length_append, ← two_pow_eight_mul,
    show 8 * (x.length + y.length) - (p + w) = 8 * y.length + (8 * x.length - (p + w)) by omega, Nat.pow_add,
    ← Nat.div_div_eq_div_mul]
  congr 2
  have hy := beNat_lt y
  rw [← two_pow_eight_mul] at hy
  rw [Nat.mul_comm, Nat.mul_add_div (by positivity), Nat.div_eq_of_lt hy, Nat.add_zero]

/-- A field inside the second part of a frame. -/
theorem bits_append_right (x : Frame) {y : Frame} {p w : Nat} (h : p + w ≤ 8 * y.length) :
    bits (x ++ y) (8 * x.length + p) w = bits y p w := by
  unfold bits
  rw [beNat_append, List.length_append, ← two_pow_eight_mul,
    show 8 * (x.length + y.length) - (8 * x.length + p + w) = 8 * y.length - (p + w) by omega]
  obtain ⟨k, hk⟩ : ∃ k, 8 * y.length = (8 * y.length - (p + w)) + w + k := ⟨p, by omega⟩
  generalize 8 * y.length - (p + w) = q at hk ⊢
  rw [hk, show beNat x * 2 ^ (q + w + k) = 2 ^ q * (2 ^ w * (beNat x * 2 ^ k)) by rw [Nat.pow_add, Nat.pow_add]; ring,
    Nat.mul_add_div (by positivity), Nat.mul_add_mod]

/-- A field of a number written as bytes. -/
theorem bits_beBytes (n v p w : Nat) (h : p + w ≤ 8 * n) :
    bits (beBytes n v) p w = v / 2 ^ (8 * n - (p + w)) % 2 ^ w := by
  unfold bits
  rw [beNat_beBytes, length_beBytes, ← two_pow_eight_mul]
  obtain ⟨k, hk⟩ : ∃ k, 8 * n = (8 * n - (p + w)) + w + k := ⟨p, by omega⟩
  generalize 8 * n - (p + w) = q at hk ⊢
  rw [hk, Nat.add_assoc, Nat.pow_add, Nat.mod_mul_right_div_self, Nat.pow_add, Nat.mod_mul_right_mod]

/-- A whole number read back from the bytes it was written as. -/
theorem bits_beBytes_whole {n v : Nat} (h : v < 2 ^ (8 * n)) : bits (beBytes n v) 0 (8 * n) = v := by
  rw [bits_beBytes _ _ _ _ (by omega), Nat.zero_add, Nat.sub_self, Nat.pow_zero, Nat.div_one, Nat.mod_eq_of_lt h]

/-- Bit `j` of a field is the stream bit `p + w - 1 - j` (rule R6). -/
theorem testBit_bits {f : Frame} {p w j : Nat} (h : p + w ≤ 8 * f.length) :
    (bits f p w).testBit j = (decide (j < w) && decide (bits f (p + w - 1 - j) 1 = 1)) := by
  unfold bits
  rw [Nat.testBit_mod_two_pow, Nat.testBit_div_two_pow]
  by_cases hj : j < w
  · simp only [hj, decide_true, Bool.true_and]
    rw [show 8 * f.length - (p + w - 1 - j + 1) = j + (8 * f.length - (p + w)) by omega, Nat.pow_one,
      Nat.testBit_eq_decide_div_mod_eq]
  · simp [hj]

/-- Two frames whose stream bits agree over a field hold the same field. -/
theorem bits_congr {f g : Frame} {p w : Nat} (hf : p + w ≤ 8 * f.length) (hg : p + w ≤ 8 * g.length)
    (h : ∀ k, p ≤ k → k < p + w → bits f k 1 = bits g k 1) : bits f p w = bits g p w := by
  refine Nat.eq_of_testBit_eq fun j => ?_
  rw [testBit_bits hf, testBit_bits hg]
  by_cases hj : j < w
  · rw [h (p + w - 1 - j) (by omega) (by omega)]
  · simp [hj]

/-- Two frames of one length whose stream bits agree are equal. -/
theorem frame_ext {f g : Frame} (hl : f.length = g.length) (h : ∀ k < 8 * f.length, bits f k 1 = bits g k 1) : f = g := by
  have := bits_congr (f := f) (g := g) (p := 0) (w := 8 * f.length) (by omega) (by omega) fun k _ hk => h k (by omega)
  unfold bits at this
  rw [← hl, Nat.zero_add, Nat.sub_self, Nat.pow_zero, Nat.div_one, Nat.div_one, two_pow_eight_mul,
    Nat.mod_eq_of_lt (beNat_lt f), Nat.mod_eq_of_lt (by rw [hl]; exact beNat_lt g)] at this
  exact beNat_injective hl this

end Sys2Proof
end

