-- ==== Sys2Proof/Laws/Codec.lean ====
section
/-! SUPPORT. The codec's tables and operations: what each can answer, and the fields of a header that was written by the
encoder. -/

namespace Sys2Proof

/-! ### Tables -/

@[simp] theorem kindOf_kind (k : Kind) : kindOf k.ftype k.transaction = some k := by cases k <;> rfl

/-- A kind's format type is the one it was looked up by. -/
theorem ftype_of_kindOf {ft tr : Nat} {k : Kind} (h : kindOf ft tr = some k) : k.ftype = ft := by
  unfold kindOf at h
  split at h <;> cases h <;> rfl

/-- The transaction a kind was looked up by, for the format types that have one (rule R127). -/
theorem transaction_of_kindOf {ft tr : Nat} {k : Kind} (h : kindOf ft tr = some k)
    (h' : ft ≠ 6 ∧ ft ≠ 10 ∧ ft ≠ 11) : k.transaction = tr := by
  unfold kindOf at h
  split at h <;> cases h <;> simp_all [Kind.transaction]

/-- Every kind's format type has its layout's length (rules R85, R88 to R95). -/
@[simp] theorem logicalLen_kind (k : Kind) : logicalLen k.ftype = some k.layout.len := by cases k <;> rfl

theorem kind_ftype_lt (k : Kind) : k.ftype < 16 := by cases k <;> decide

@[simp] theorem idWidth_tt_lt (w : IdWidth) : w.tt < 3 := by cases w <;> decide

@[simp] theorem idWidth_ofTt_tt (w : IdWidth) : IdWidth.ofTt w.tt = w := by cases w <;> rfl

/-- The size table's span for a code has that code (rule R128). -/
theorem sizeEncode_sizeDecode {sz wp : Nat} (hs : sz < 16) (hw : wp < 2) : sizeEncode (sizeDecode sz wp) = some (sz, wp) := by
  interval_cases sz <;> interval_cases wp <;> rfl

/-- The code a span has stands for that span and fits its fields (rule R128). -/
theorem sizeDecode_of_sizeEncode {sp : Span} {c : Nat × Nat} (h : sizeEncode sp = some c) :
    sizeDecode c.1 c.2 = sp ∧ c.1 < 16 ∧ c.2 < 2 := by
  refine ⟨by simpa using List.find?_some h, ?_⟩
  have hm := List.mem_of_find?_eq_some h
  simp only [sizeCodes, List.mem_flatMap, List.mem_range, List.mem_cons, List.not_mem_nil, or_false] at hm
  obtain ⟨a, ha, rfl | rfl⟩ := hm <;> simp [ha]

/-! ### Packets and instructions -/

@[simp] theorem Instr.toPacket_ftype (i : Instr) : i.toPacket.ftype = i.kind.ftype := by cases i <;> rfl
@[simp] theorem Instr.toPacket_transaction (i : Instr) : i.toPacket.transaction = i.kind.transaction := by cases i <;> rfl
@[simp] theorem Instr.toPacket_prio (i : Instr) : i.toPacket.prio = i.header.prio.toNat := by cases i <;> rfl
@[simp] theorem Instr.toPacket_tt (i : Instr) : i.toPacket.tt = i.header.width.tt := by cases i <;> rfl
@[simp] theorem Instr.toPacket_destId (i : Instr) : i.toPacket.destId = i.header.destId.toNat := by cases i <;> rfl
@[simp] theorem Instr.toPacket_srcId (i : Instr) : i.toPacket.srcId = i.header.srcId.toNat := by cases i <;> rfl

@[simp] theorem Packet.kind_toInstr (P : Packet) (k : Kind) : (P.toInstr k).kind = k := by cases k <;> rfl
@[simp] theorem Packet.header_toInstr (P : Packet) (k : Kind) : (P.toInstr k).header = P.header := by cases k <;> rfl

/-- The kind of an instruction's packet. -/
theorem kindOf_toPacket (i : Instr) : kindOf i.toPacket.ftype i.toPacket.transaction = some i.kind := by simp

/-! ### Decoding -/

/-- Everything `decodeHeader` can answer, in the order of rule R257. -/
theorem decodeHeader_cases (pr : Params) (f : Frame) :
    (pr.maxFrameBytes < f.length ∧ decodeHeader pr f = .error .frameTooLong) ∨
      (f.length ≤ pr.maxFrameBytes ∧ f.length < 1 ∧ decodeHeader pr f = .error .truncated) ∨
      (f.length ≤ pr.maxFrameBytes ∧ 1 ≤ f.length ∧ bits f 2 2 = 3 ∧ decodeHeader pr f = .error .badTt) ∨
      (f.length ≤ pr.maxFrameBytes ∧ 1 ≤ f.length ∧ bits f 2 2 < 3 ∧ logicalLen (bits f 4 4) = none ∧
        decodeHeader pr f = .error .badFtype) ∨
      (f.length ≤ pr.maxFrameBytes ∧ 1 ≤ f.length ∧ bits f 2 2 < 3 ∧ (∃ l, logicalLen (bits f 4 4) = some l) ∧
        f.length < commonLen (bits f 2 2) ∧ decodeHeader pr f = .error .truncated) ∨
      (f.length ≤ pr.maxFrameBytes ∧ 1 ≤ f.length ∧ bits f 2 2 < 3 ∧ (∃ l, logicalLen (bits f 4 4) = some l) ∧
        commonLen (bits f 2 2) ≤ f.length ∧
        decodeHeader pr f =
          .ok ({ prio := bits f 0 2, tt := bits f 2 2, ftype := bits f 4 4,
                 destId := bits f 8 (8 * idBytes (bits f 2 2)),
                 srcId := bits f (8 + 8 * idBytes (bits f 2 2)) (8 * idBytes (bits f 2 2)) },
               commonLen (bits f 2 2))) := by
  have htt := bits_lt f 2 2
  unfold decodeHeader
  split <;> rename_i h1
  · exact .inl ⟨h1, rfl⟩
  split <;> rename_i h2
  · exact .inr (.inl ⟨by omega, h2, rfl⟩)
  simp only
  split <;> rename_i h3
  · exact .inr (.inr (.inl ⟨by omega, by omega, h3, rfl⟩))
  split <;> rename_i h4
  · exact .inr (.inr (.inr (.inl ⟨by omega, by omega, by omega, h4, rfl⟩)))
  have h4' : ∃ l, logicalLen (bits f 4 4) = some l := Option.ne_none_iff_exists'.1 h4
  split <;> rename_i h5
  · exact .inr (.inr (.inr (.inr (.inl ⟨by omega, by omega, by omega, h4', h5, rfl⟩))))
  · exact .inr (.inr (.inr (.inr (.inr ⟨by omega, by omega, by omega, h4', by omega, rfl⟩))))

/-- What `decodeHeader` answers when it succeeds (rule R120). -/
theorem decodeHeader_ok {pr : Params} {f : Frame} {H : Packet} {c : Nat} (h : decodeHeader pr f = .ok (H, c)) :
    f.length ≤ pr.maxFrameBytes ∧ 1 ≤ f.length ∧ bits f 2 2 < 3 ∧ (∃ l, logicalLen (bits f 4 4) = some l) ∧
      commonLen (bits f 2 2) ≤ f.length ∧ c = commonLen (bits f 2 2) ∧
      H = { prio := bits f 0 2, tt := bits f 2 2, ftype := bits f 4 4,
            destId := bits f 8 (8 * idBytes (bits f 2 2)),
            srcId := bits f (8 + 8 * idBytes (bits f 2 2)) (8 * idBytes (bits f 2 2)) } := by
  rcases decodeHeader_cases pr f with ⟨-, e⟩ | ⟨-, -, e⟩ | ⟨-, -, -, e⟩ | ⟨-, -, -, -, e⟩ | ⟨-, -, -, -, -, e⟩ |
    ⟨h1, h2, h3, h4, h5, e⟩
  case inr.inr.inr.inr.inr =>
    rw [e] at h
    cases h
    exact ⟨h1, h2, h3, h4, h5, rfl, rfl⟩
  all_goals
    rw [e] at h
    cases h

/-- Everything the payload part can answer (rules R99, R121). -/
theorem decodePayload_cases (pr : Params) (rule : PayloadRule) (P : Packet) (f : Frame) (q : Nat) :
    (rule = .noPayload ∧ decodePayload pr rule P f q = .ok ({ P with payload := [] }, q)) ∨
      (rule = .span ∧ f.length < q + 8 * divCeil8 P.rdwrBytes ∧ decodePayload pr rule P f q = .error .truncated) ∨
      (rule = .span ∧ q + 8 * divCeil8 P.rdwrBytes ≤ f.length ∧
        decodePayload pr rule P f q =
          .ok ({ P with payload := readPayload f q (divCeil8 P.rdwrBytes) }, q + 8 * divCeil8 P.rdwrBytes)) ∨
      (rule = .len ∧ pr.maxPayloadDw < (f.length - q) / 8 ∧ decodePayload pr rule P f q = .error .spanTooLarge) ∨
      (rule = .len ∧ (f.length - q) / 8 ≤ pr.maxPayloadDw ∧
        decodePayload pr rule P f q =
          .ok ({ P with rdwrBytes := 8 * ((f.length - q) / 8), dwOffset := 0,
                        payload := readPayload f q ((f.length - q) / 8) }, q + 8 * ((f.length - q) / 8))) := by
  cases rule with
  | noPayload => exact .inl ⟨rfl, rfl⟩
  | span =>
    unfold decodePayload
    dsimp only
    split <;> rename_i h
    · exact .inr (.inl ⟨rfl, h, rfl⟩)
    · exact .inr (.inr (.inl ⟨rfl, by omega, rfl⟩))
  | len =>
    unfold decodePayload
    dsimp only
    split <;> rename_i h
    · exact .inr (.inr (.inr (.inl ⟨rfl, h, rfl⟩)))
    · exact .inr (.inr (.inr (.inr ⟨rfl, by omega, rfl⟩)))

/-- What `decodeBody` answers when it succeeds (rule R121). -/
theorem decodeBody_ok {pr : Params} {H P : Packet} {f : Frame} {c n : Nat} (h : decodeBody pr H f c = .ok (P, n)) :
    ∃ k, kindOf H.ftype (bits f (8 * c) 4) = some k ∧ c + k.layout.len ≤ f.length ∧ decodeKind pr k H f c = .ok (P, n) := by
  unfold decodeBody at h
  split at h
  · cases h
  · rename_i len hl
    split at h
    · cases h
    · split at h
      · cases h
      · rename_i hlen k hk
        refine ⟨k, hk, ?_, h⟩
        have := logicalLen_kind k
        rw [ftype_of_kindOf hk, hl] at this
        cases this
        omega

/-- What `decodePacket` answers when it succeeds (rule R122). -/
theorem decodePacket_ok {pr : Params} {f : Frame} {P : Packet} {n : Nat} (h : decodePacket pr f = .ok (P, n)) :
    ∃ H c, decodeHeader pr f = .ok (H, c) ∧ decodeBody pr H f c = .ok (P, n) := by
  unfold decodePacket at h
  split at h
  · cases h
  · rename_i H c e
    exact ⟨H, c, e, h⟩

/-- What `decode` answers when it succeeds. -/
theorem decode_ok {pr : Params} {f : Frame} {i : Instr} {n : Nat} (h : decode pr f = .ok (i, n)) :
    ∃ P k, decodePacket pr f = .ok (P, n) ∧ kindOf P.ftype P.transaction = some k ∧ i = P.toInstr k := by
  unfold decode at h
  split at h
  · cases h
  · rename_i P m e
    split at h
    · rename_i k hk
      cases h
      exact ⟨P, k, e, hk, rfl⟩
    · cases h

/-! ### Encoding -/

/-- Everything `encodePacket` has checked when it succeeds (rule R123). -/
theorem encodePacket_ok {pr : Params} {P : Packet} {f : Frame} (h : encodePacket pr P = .ok f) :
    ∃ k code, P.tt < 3 ∧ kindOf P.ftype P.transaction = some k ∧ P.prio < 4 ∧ P.destId < 2 ^ (8 * idBytes P.tt) ∧
      P.srcId < 2 ^ (8 * idBytes P.tt) ∧ spanCode pr k.layout P = some code ∧ fieldsFit P code k.layout.fields = true ∧
      payloadFits pr k.payloadRule P = true ∧ (frameOf k P code).length ≤ pr.maxFrameBytes ∧ f = frameOf k P code := by
  unfold encodePacket at h
  split at h <;> rename_i h1
  · cases h
  split at h
  · cases h
  rename_i k hk
  split at h <;> rename_i h2
  · cases h
  split at h
  · cases h
  rename_i code hc
  split at h <;> rename_i h3
  · cases h
  split at h <;> rename_i h4
  · cases h
  split at h <;> rename_i h5
  · cases h
  cases h
  exact ⟨k, code, by omega, hk, by omega, by omega, by omega, hc, by simpa using h3, by simpa using h4, by omega, rfl⟩

/-- When the checks pass, `encodePacket` writes the frame (rule R123). -/
theorem encodePacket_of_checks {pr : Params} {P : Packet} {k : Kind} {code : Nat × Nat} (h1 : P.tt < 3)
    (h2 : kindOf P.ftype P.transaction = some k) (h3 : P.prio < 4) (h4 : P.destId < 2 ^ (8 * idBytes P.tt))
    (h5 : P.srcId < 2 ^ (8 * idBytes P.tt)) (h6 : spanCode pr k.layout P = some code)
    (h7 : fieldsFit P code k.layout.fields = true) (h8 : payloadFits pr k.payloadRule P = true)
    (h9 : (frameOf k P code).length ≤ pr.maxFrameBytes) : encodePacket pr P = .ok (frameOf k P code) := by
  simp only [encodePacket, h1, not_true_eq_false, if_false, h2, h6, h7, h8, Bool.true_eq_false]
  rw [if_neg (by omega), if_neg (by omega)]

/-- The length of an encoded frame (rule R80). -/
theorem length_frameOf (k : Kind) (P : Packet) (code : Nat × Nat) :
    (frameOf k P code).length = commonLen P.tt + k.layout.len + 8 * P.payloadLen := by
  simp only [frameOf, List.length_append, length_beBytes, length_payload, commonLen, Packet.payloadLen]
  ring

/-- What the span check gives: a layout with a size field has the code of its span, within the payload bound. -/
theorem spanCode_some {pr : Params} {l : Layout} {P : Packet} {code : Nat × Nat} (h : spanCode pr l P = some code) :
    (l.hasSize = true ∧ sizeEncode P.span = some code ∧ divCeil8 P.rdwrBytes ≤ pr.maxPayloadDw) ∨
      (l.hasSize = false ∧ code = (0, 0)) := by
  unfold spanCode at h
  split at h <;> rename_i hs
  · split at h
    · cases h
    · rename_i c hc
      split at h <;> rename_i hd
      · cases h
      · cases h
        exact .inl ⟨hs, hc, by omega⟩
  · cases h
    exact .inr ⟨by simpa using hs, rfl⟩

/-! ### The fields of an encoded header -/

/-- The width of a run of fields. -/
def fieldsWidth (fields : List LayoutField) : Nat :=
  (fields.map LayoutField.width).sum

theorem packFields_foldl (P : Packet) (code : Nat × Nat) (fields : List LayoutField) (acc : Nat) :
    fields.foldl (fun acc lf => acc * 2 ^ lf.width + fieldValue P code lf.field) acc =
      acc * 2 ^ fieldsWidth fields + packFields P code fields := by
  induction fields generalizing acc with
  | nil => simp [fieldsWidth, packFields]
  | cons lf fs ih =>
    unfold packFields
    simp only [List.foldl_cons, Nat.zero_mul, Nat.zero_add]
    rw [ih, ih (fieldValue P code lf.field)]
    simp only [fieldsWidth, List.map_cons, List.sum_cons, Nat.pow_add]
    ring

theorem packFields_append (P : Packet) (code : Nat × Nat) (xs ys : List LayoutField) :
    packFields P code (xs ++ ys) = packFields P code xs * 2 ^ fieldsWidth ys + packFields P code ys := by
  rw [← packFields_foldl]
  simp [packFields]

theorem packFields_cons (P : Packet) (code : Nat × Nat) (lf : LayoutField) (fs : List LayoutField) :
    packFields P code (lf :: fs) = fieldValue P code lf.field * 2 ^ fieldsWidth fs + packFields P code fs := by
  rw [← packFields_foldl]
  simp [packFields]

/-- Fields that fit make a number that fits. -/
theorem packFields_lt {P : Packet} {code : Nat × Nat} {fs : List LayoutField} (h : fieldsFit P code fs = true) :
    packFields P code fs < 2 ^ fieldsWidth fs := by
  induction fs with
  | nil => simp [packFields, fieldsWidth]
  | cons lf fs ih =>
    simp only [fieldsFit, List.all_cons, Bool.and_eq_true, decide_eq_true_eq] at h
    have := ih h.2
    rw [packFields_cons]
    simp only [fieldsWidth, List.map_cons, List.sum_cons, Nat.pow_add] at this ⊢
    have h1 := h.1
    generalize (2 : Nat) ^ (fs.map LayoutField.width).sum = X at this ⊢
    generalize (2 : Nat) ^ lf.width = Y at h1 ⊢
    nlinarith

/-- One field of the packed number. -/
theorem packFields_field {P : Packet} {code : Nat × Nat} {lf : LayoutField} {pre post : List LayoutField}
    (h : fieldsFit P code (pre ++ lf :: post) = true) :
    packFields P code (pre ++ lf :: post) / 2 ^ fieldsWidth post % 2 ^ lf.width = fieldValue P code lf.field := by
  simp only [fieldsFit, List.all_append, List.all_cons, Bool.and_eq_true, decide_eq_true_eq] at h
  have hpost : packFields P code post < 2 ^ fieldsWidth post := packFields_lt h.2.2
  rw [packFields_append, packFields_cons]
  have hw : fieldsWidth (lf :: post) = lf.width + fieldsWidth post := by simp [fieldsWidth]
  rw [hw, Nat.pow_add]
  have : packFields P code pre * (2 ^ lf.width * 2 ^ fieldsWidth post) +
      (fieldValue P code lf.field * 2 ^ fieldsWidth post + packFields P code post) =
      2 ^ fieldsWidth post * (2 ^ lf.width * packFields P code pre + fieldValue P code lf.field) +
        packFields P code post := by ring
  rw [this, Nat.mul_add_div (by positivity), Nat.div_eq_of_lt hpost, Nat.add_zero, Nat.mul_add_mod,
    Nat.mod_eq_of_lt h.2.1]

/-- The layouts are contiguous and fill their header (rules R88 to R95): each field starts where the ones before it end, and
the ones after it reach to the end. -/
theorem layout_contiguous {l : Layout} {pre post : List LayoutField} {lf : LayoutField} (h : l.fields = pre ++ lf :: post) :
    lf.offset = fieldsWidth pre ∧ lf.offset + lf.width + fieldsWidth post = 8 * l.len := by
  have key : ∀ n, n < l.fields.length → ∀ x, l.fields[n]? = some x →
      x.offset = fieldsWidth (l.fields.take n) ∧
        x.offset + x.width + fieldsWidth (l.fields.drop (n + 1)) = 8 * l.len := by
    cases l <;> decide
  have hn : pre.length < l.fields.length := by rw [h]; simp
  have := key pre.length hn lf (by rw [h]; simp)
  rw [h] at this
  have hdrop : (pre ++ lf :: post).drop (pre.length + 1) = post := by
    rw [← List.drop_drop, List.drop_left]
    rfl
  rwa [List.take_left, hdrop] at this

/-- Every field of an encoded logical header reads back (rules R88 to R95, R123). -/
theorem bits_packFields {P : Packet} {code : Nat × Nat} {l : Layout} (hf : fieldsFit P code l.fields = true)
    {lf : LayoutField} (h : lf ∈ l.fields) :
    bits (beBytes l.len (packFields P code l.fields)) lf.offset lf.width = fieldValue P code lf.field := by
  obtain ⟨pre, post, e⟩ := List.append_of_mem h
  obtain ⟨-, h2⟩ := layout_contiguous e
  rw [bits_beBytes _ _ _ _ (by omega), show 8 * l.len - (lf.offset + lf.width) = fieldsWidth post by omega, e]
  rw [e] at hf
  exact packFields_field hf

/-- A layout field lies inside its logical header. -/
theorem layout_field_le {l : Layout} {lf : LayoutField} (h : lf ∈ l.fields) : lf.offset + lf.width ≤ 8 * l.len := by
  obtain ⟨pre, post, e⟩ := List.append_of_mem h
  have := (layout_contiguous e).2
  omega

/-- The walk over a layout depends on the field values only. -/
theorem readFields_congr {f : Frame} {c : Nat} {fields : List LayoutField} {val : Field → Nat} (r : RawPacket)
    (h : ∀ lf ∈ fields, bits f (8 * c + lf.offset) lf.width = val lf.field) :
    readFields f c fields r = fields.foldl (fun r lf => storeField r lf.field (val lf.field)) r := by
  induction fields generalizing r with
  | nil => rfl
  | cons lf fs ih =>
    have h1 := h lf (by simp)
    have h2 : ∀ x ∈ fs, bits f (8 * c + x.offset) x.width = val x.field := fun x hx => h x (by simp [hx])
    have := ih (storeField r lf.field (val lf.field)) h2
    simp only [readFields, List.foldl_cons, h1] at this ⊢
    exact this

/-- The payload of a frame whose payload bytes were written by the encoder. -/
theorem readPayload_encoded {f x : Frame} {ds : List DWord} {y : Frame}
    (h : f = x ++ (ds.flatMap fun d => beBytes 8 d.toNat) ++ y) : readPayload f x.length ds.length = ds := by
  refine List.ext_getElem (by simp [readPayload]) fun i hi hi' => ?_
  simp only [readPayload, List.getElem_map, List.getElem_range]
  have hsplit : f = (x ++ (ds.take i).flatMap fun d => beBytes 8 d.toNat) ++
      (beBytes 8 ds[i].toNat ++ (((ds.drop (i + 1)).flatMap fun d => beBytes 8 d.toNat) ++ y)) := by
    have hd : ds = ds.take i ++ ds[i] :: ds.drop (i + 1) := by simp
    have hb : (ds.flatMap fun d => beBytes 8 d.toNat) =
        ((ds.take i).flatMap fun d => beBytes 8 d.toNat) ++
          (beBytes 8 ds[i].toNat ++ (ds.drop (i + 1)).flatMap fun d => beBytes 8 d.toNat) := by
      conv_lhs => rw [hd]
      rw [List.flatMap_append, List.flatMap_cons]
    rw [h, hb]
    simp only [List.append_assoc]
  have hlen : (x ++ (ds.take i).flatMap fun d => beBytes 8 d.toNat).length = x.length + 8 * i := by
    rw [List.length_append, length_payload, List.length_take, Nat.min_eq_left (by omega)]
  rw [hsplit, show 8 * (x.length + 8 * i) = 8 * (x ++ (ds.take i).flatMap fun d => beBytes 8 d.toNat).length + 0 by omega,
    bits_append_right _ (by simp; omega), bits_append_left _ (by simp), bits_beBytes_whole (n := 8) ds[i].isLt,
    BitVec.ofNat_toNat, BitVec.setWidth_eq]

/-! ### The parts of an encoded frame (rule R80) -/

/-- The first byte of an encoded frame reads back (rule R82). -/
theorem frame_head {k : Kind} {P : Packet} {code : Nat × Nat} (h1 : P.prio < 4) (h2 : P.tt < 4) (h3 : P.ftype < 16) :
    bits (frameOf k P code) 0 2 = P.prio ∧ bits (frameOf k P code) 2 2 = P.tt ∧ bits (frameOf k P code) 4 4 = P.ftype := by
  simp only [frameOf, List.append_assoc]
  refine ⟨?_, ?_, ?_⟩ <;> rw [bits_append_left _ (by simp), bits_beBytes _ _ _ _ (by omega)] <;> simp <;> omega

/-- The device IDs of an encoded frame read back (rule R84). -/
theorem frame_ids {k : Kind} {P : Packet} {code : Nat × Nat} (h1 : P.destId < 2 ^ (8 * idBytes P.tt))
    (h2 : P.srcId < 2 ^ (8 * idBytes P.tt)) :
    bits (frameOf k P code) 8 (8 * idBytes P.tt) = P.destId ∧
      bits (frameOf k P code) (8 + 8 * idBytes P.tt) (8 * idBytes P.tt) = P.srcId := by
  simp only [frameOf, List.append_assoc]
  generalize P.prio * 64 + P.tt * 16 + P.ftype = v
  generalize (beBytes k.layout.len (packFields P code k.layout.fields) ++ P.payload.flatMap fun d => beBytes 8 d.toNat) = z
  constructor
  · have := bits_append_right (beBytes 1 v) (y := beBytes (idBytes P.tt) P.destId ++ (beBytes (idBytes P.tt) P.srcId ++ z))
      (p := 0) (w := 8 * idBytes P.tt) (by simp)
    simp only [length_beBytes, Nat.mul_one, Nat.add_zero] at this
    rw [this, bits_append_left _ (by simp), bits_beBytes_whole h1]
  · have := bits_append_right (beBytes 1 v ++ beBytes (idBytes P.tt) P.destId) (y := beBytes (idBytes P.tt) P.srcId ++ z)
      (p := 0) (w := 8 * idBytes P.tt) (by simp)
    simp only [length_beBytes, List.length_append, Nat.mul_add, Nat.mul_one, Nat.add_zero, List.append_assoc] at this
    rw [this, bits_append_left _ (by simp), bits_beBytes_whole h2]

/-- Every field of the logical header of an encoded frame reads back, in place (rules R88 to R95). -/
theorem frame_field {k : Kind} {P : Packet} {code : Nat × Nat} (hf : fieldsFit P code k.layout.fields = true)
    {lf : LayoutField} (h : lf ∈ k.layout.fields) :
    bits (frameOf k P code) (8 * commonLen P.tt + lf.offset) lf.width = fieldValue P code lf.field := by
  simp only [frameOf, List.append_assoc]
  generalize P.prio * 64 + P.tt * 16 + P.ftype = v
  have hle := layout_field_le h
  have := bits_append_right (beBytes 1 v ++ (beBytes (idBytes P.tt) P.destId ++ beBytes (idBytes P.tt) P.srcId))
    (y := beBytes k.layout.len (packFields P code k.layout.fields) ++ P.payload.flatMap fun d => beBytes 8 d.toNat)
    (p := lf.offset) (w := lf.width) (by simp; omega)
  have e : 8 * commonLen P.tt =
      8 * (beBytes 1 v ++ (beBytes (idBytes P.tt) P.destId ++ beBytes (idBytes P.tt) P.srcId)).length := by
    simp [commonLen]; ring
  rw [e]
  simp only [List.append_assoc] at this ⊢
  rw [this, bits_append_left _ (by simp; omega), bits_packFields hf h]

/-- The payload of an encoded frame reads back, in place (rule R51). -/
theorem frame_payload (k : Kind) (P : Packet) (code : Nat × Nat) :
    readPayload (frameOf k P code) (commonLen P.tt + k.layout.len) P.payloadLen = P.payload := by
  have := readPayload_encoded (f := frameOf k P code)
    (x := beBytes 1 (P.prio * 64 + P.tt * 16 + P.ftype) ++ beBytes (idBytes P.tt) P.destId ++
      beBytes (idBytes P.tt) P.srcId ++ beBytes k.layout.len (packFields P code k.layout.fields))
    (ds := P.payload) (y := []) (by simp [frameOf])
  rw [← this]
  congr 1
  simp [commonLen]; ring

end Sys2Proof
end

