-- ==== Sys2Proof/Laws/Memory.lean ====
section
/-! SUPPORT. The laws of the register space's bytes and words: reading after writing, what a write leaves alone, and the
canonical form. -/

namespace Sys2Proof.Machine

open Sys2Proof

@[simp] theorem Memory.readByte_nil (a : Nat) : Memory.readByte [] a = Memory.blank := rfl

theorem Memory.readByte_cons (b : Nat) (v : Byte) (m : Memory) (a : Nat) :
    Memory.readByte ((b, v) :: m) a = if b = a then v else m.readByte a := rfl

@[simp] theorem Memory.wf_nil : Memory.wf [] = true := rfl

theorem Memory.wf_cons {a : Nat} {v : Byte} {m : Memory} :
    Memory.wf ((a, v) :: m) = true ↔ v ≠ Memory.blank ∧ (∀ c ∈ m, a < c.1) ∧ m.wf = true := by
  simp [Memory.wf, and_assoc]

/-- Below every listed address nothing is listed. -/
theorem Memory.readByte_of_lt {m : Memory} {a : Nat} (h : ∀ c ∈ m, a < c.1) : m.readByte a = Memory.blank := by
  induction m with
  | nil => rfl
  | cons c m ih =>
    obtain ⟨b, v⟩ := c
    have hb : a < b := h (b, v) (by simp)
    rw [Memory.readByte_cons, if_neg (by omega)]
    exact ih fun c hc => h c (by simp [hc])

/-- The addresses listed after a byte write are the old ones and the written one. -/
theorem Memory.mem_writeByte {m : Memory} {a : Nat} {v : Byte} {c : Host.Cell} (h : c ∈ m.writeByte a v) :
    c ∈ m ∨ c.1 = a := by
  induction m with
  | nil =>
    simp only [Memory.writeByte] at h
    split at h <;> simp_all
  | cons e m ih =>
    obtain ⟨b, x⟩ := e
    simp only [Memory.writeByte] at h
    split at h
    · split at h
      · exact .inl h
      · rcases List.mem_cons.1 h with rfl | h
        · exact .inr rfl
        · exact .inl h
    · split at h
      · split at h
        · exact .inl (by simp [h])
        · rcases List.mem_cons.1 h with rfl | h
          · exact .inr rfl
          · exact .inl (by simp [h])
      · rcases List.mem_cons.1 h with rfl | h
        · exact .inl (by simp)
        · rcases ih h with h | h
          · exact .inl (by simp [h])
          · exact .inr h

/-- A byte write keeps the canonical form. -/
theorem Memory.writeByte_wf {m : Memory} (hm : m.wf = true) (a : Nat) (v : Byte) : (m.writeByte a v).wf = true := by
  induction m with
  | nil =>
    simp only [Memory.writeByte]
    split
    · rfl
    · simp_all [Memory.wf]
  | cons e m ih =>
    obtain ⟨b, x⟩ := e
    have hm' := hm
    obtain ⟨hx, hlt, hw⟩ := Memory.wf_cons.1 hm
    simp only [Memory.writeByte]
    split
    · rename_i hab
      split
      · exact hm'
      · rename_i hv
        refine Memory.wf_cons.2 ⟨hv, ?_, hm'⟩
        intro c hc
        rcases List.mem_cons.1 hc with rfl | hc
        · exact hab
        · exact Nat.lt_trans hab (hlt c hc)
    · split
      · rename_i _ hab
        subst hab
        split
        · exact hw
        · rename_i hv
          exact Memory.wf_cons.2 ⟨hv, hlt, hw⟩
      · refine Memory.wf_cons.2 ⟨hx, ?_, ih hw⟩
        intro c hc
        rcases Memory.mem_writeByte hc with hc | hc
        · exact hlt c hc
        · omega

/-- A byte write leaves every other address alone. -/
theorem Memory.readByte_writeByte_other {m : Memory} {a b : Nat} (v : Byte) (h : b ≠ a) :
    (m.writeByte a v).readByte b = m.readByte b := by
  induction m with
  | nil =>
    simp only [Memory.writeByte]
    split
    · rfl
    · simp [Memory.readByte_cons, Ne.symm h]
  | cons e m ih =>
    obtain ⟨c, x⟩ := e
    simp only [Memory.writeByte]
    split
    · split
      · rfl
      · simp [Memory.readByte_cons, Ne.symm h]
    · split
      · rename_i _ hac
        subst hac
        split <;> simp [Memory.readByte_cons, Ne.symm h]
      · simp only [Memory.readByte_cons, ih]

/-- A byte write is read back. -/
theorem Memory.readByte_writeByte_same {m : Memory} (hm : m.wf = true) (a : Nat) (v : Byte) :
    (m.writeByte a v).readByte a = v := by
  induction m with
  | nil =>
    simp only [Memory.writeByte]
    split
    · simp_all
    · simp [Memory.readByte_cons]
  | cons e m ih =>
    obtain ⟨c, x⟩ := e
    obtain ⟨-, hlt, hw⟩ := Memory.wf_cons.1 hm
    simp only [Memory.writeByte]
    split
    · rename_i hac
      split
      · rename_i hv
        rw [hv]
        refine Memory.readByte_of_lt fun d hd => ?_
        rcases List.mem_cons.1 hd with rfl | hd
        · exact hac
        · exact Nat.lt_trans hac (hlt d hd)
      · simp [Memory.readByte_cons]
    · split
      · rename_i _ hac
        subst hac
        split
        · rename_i hv
          rw [hv]
          exact Memory.readByte_of_lt hlt
        · simp [Memory.readByte_cons]
      · rename_i hac
        rw [Memory.readByte_cons, if_neg (Ne.symm hac)]
        exact ih hw

/-- Equal contents make equal memories: the form is canonical. -/
theorem Memory.eq_of_readByte {m n : Memory} (hm : m.wf = true) (hn : n.wf = true)
    (h : ∀ a, m.readByte a = n.readByte a) : m = n := by
  induction m generalizing n with
  | nil =>
    cases n with
    | nil => rfl
    | cons c n =>
      obtain ⟨b, x⟩ := c
      have := h b
      simp only [Memory.readByte_nil, Memory.readByte_cons, if_true] at this
      exact absurd this.symm (Memory.wf_cons.1 hn).1
  | cons c m ih =>
    obtain ⟨b, x⟩ := c
    obtain ⟨hx, hlt, hw⟩ := Memory.wf_cons.1 hm
    cases n with
    | nil =>
      have := h b
      simp only [Memory.readByte_nil, Memory.readByte_cons, if_true] at this
      exact absurd this hx
    | cons d n =>
      obtain ⟨e, y⟩ := d
      obtain ⟨hy, hlt', hw'⟩ := Memory.wf_cons.1 hn
      have hbe : b = e := by
        rcases Nat.lt_trichotomy b e with hb | hb | hb
        · have hn' := h b
          simp only [Memory.readByte_cons, if_true, if_neg (show ¬ e = b by omega)] at hn'
          rw [Memory.readByte_of_lt fun c hc => Nat.lt_trans hb (hlt' c hc)] at hn'
          exact absurd hn' hx
        · exact hb
        · have hn' := h e
          simp only [Memory.readByte_cons, if_true, if_neg (show ¬ b = e by omega)] at hn'
          rw [Memory.readByte_of_lt fun c hc => Nat.lt_trans hb (hlt c hc)] at hn'
          exact absurd hn'.symm hy
      subst hbe
      have hxy : x = y := by simpa [Memory.readByte_cons] using h b
      subst hxy
      rw [ih hw hw' fun a => ?_]
      by_cases hab : b = a
      · subst hab
        rw [Memory.readByte_of_lt hlt, Memory.readByte_of_lt hlt']
      · simpa [Memory.readByte_cons, hab] using h a

/-- A word write keeps the canonical form. -/
theorem Memory.writeWord_wf {m : Memory} (hm : m.wf = true) (a : Nat) (v : Word) : (m.writeWord a v).wf = true :=
  Memory.writeByte_wf (Memory.writeByte_wf (Memory.writeByte_wf (Memory.writeByte_wf hm _ _) _ _) _ _) _ _

/-- The addresses listed after a word write are the old ones and the four written ones. -/
theorem Memory.mem_writeWord {m : Memory} {a : Nat} {v : Word} {c : Host.Cell} (h : c ∈ m.writeWord a v) :
    c ∈ m ∨ (a ≤ c.1 ∧ c.1 < a + 4) := by
  rcases Memory.mem_writeByte h with h | h
  · rcases Memory.mem_writeByte h with h | h
    · rcases Memory.mem_writeByte h with h | h
      · rcases Memory.mem_writeByte h with h | h
        · exact .inl h
        · exact .inr (by omega)
      · exact .inr (by omega)
    · exact .inr (by omega)
  · exact .inr (by omega)

/-- A word write leaves every byte outside its four alone. -/
theorem Memory.readByte_writeWord_other {m : Memory} {a b : Nat} (v : Word) (h : b < a ∨ a + 4 ≤ b) :
    (m.writeWord a v).readByte b = m.readByte b := by
  unfold Memory.writeWord
  rw [Memory.readByte_writeByte_other _ (by omega), Memory.readByte_writeByte_other _ (by omega),
    Memory.readByte_writeByte_other _ (by omega), Memory.readByte_writeByte_other _ (by omega)]

/-- A word write leaves every word that does not overlap it alone. -/
theorem Memory.readWord_writeWord_other {m : Memory} {a b : Nat} (v : Word) (h : b + 4 ≤ a ∨ a + 4 ≤ b) :
    (m.writeWord a v).readWord b = m.readWord b := by
  unfold Memory.readWord
  rw [Memory.readByte_writeWord_other v (by omega), Memory.readByte_writeWord_other v (by omega),
    Memory.readByte_writeWord_other v (by omega), Memory.readByte_writeWord_other v (by omega)]

/-- Byte lane `j` of a written word (rule R52). -/
theorem Memory.readByte_writeWord_same {m : Memory} (hm : m.wf = true) (a : Nat) (v : Word) {j : Nat} (hj : j < 4) :
    (m.writeWord a v).readByte (a + j) = v.extractLsb' (8 * j) 8 := by
  have h1 := Memory.writeByte_wf hm a (v.extractLsb' 0 8)
  have h2 := Memory.writeByte_wf h1 (a + 1) (v.extractLsb' 8 8)
  have h3 := Memory.writeByte_wf h2 (a + 2) (v.extractLsb' 16 8)
  unfold Memory.writeWord
  match j, hj with
  | 0, _ =>
    rw [Memory.readByte_writeByte_other _ (by omega), Memory.readByte_writeByte_other _ (by omega),
      Memory.readByte_writeByte_other _ (by omega)]
    exact Memory.readByte_writeByte_same hm a _
  | 1, _ =>
    rw [Memory.readByte_writeByte_other _ (by omega), Memory.readByte_writeByte_other _ (by omega)]
    exact Memory.readByte_writeByte_same h1 _ _
  | 2, _ =>
    rw [Memory.readByte_writeByte_other _ (by omega)]
    exact Memory.readByte_writeByte_same h2 _ _
  | 3, _ => exact Memory.readByte_writeByte_same h3 _ _

/-- Bit `k` of a word is bit `k mod 8` of byte lane `k / 8` (rule R52). -/
theorem Memory.getLsbD_readWord (m : Memory) (a k : Nat) (hk : k < 32) :
    (m.readWord a).getLsbD k = (m.readByte (a + k / 8)).getLsbD (k % 8) := by
  unfold Memory.readWord
  rcases (by omega : k / 8 = 0 ∨ k / 8 = 1 ∨ k / 8 = 2 ∨ k / 8 = 3) with h | h | h | h <;>
    rw [h] <;> simp only [BitVec.getLsbD_append]
  · rw [if_pos (by omega), show k % 8 = k by omega, Nat.add_zero]
  · rw [if_neg (by omega), if_pos (by omega), show k - 8 = k % 8 by omega]
  · rw [if_neg (by omega), if_neg (by omega), if_pos (by omega), show k - 8 - 8 = k % 8 by omega]
  · rw [if_neg (by omega), if_neg (by omega), if_neg (by omega), show k - 8 - 8 - 8 = k % 8 by omega]

/-- A word write is read back. -/
theorem Memory.readWord_writeWord_same {m : Memory} (hm : m.wf = true) (a : Nat) (v : Word) :
    (m.writeWord a v).readWord a = v := by
  refine BitVec.eq_of_getLsbD_eq fun k hk => ?_
  rw [Memory.getLsbD_readWord _ _ _ hk, Memory.readByte_writeWord_same hm a v (by omega)]
  simp only [BitVec.getLsbD_extractLsb', show 8 * (k / 8) + k % 8 = k by omega]
  simp [Nat.mod_lt]

end Sys2Proof.Machine
end

