-- ==== Sys2Proof/Laws/State.lean ====
section
/-! SUPPORT. One lemma per field per state update: no proof unfolds a record update. -/

namespace Sys2Proof.Machine

open Sys2Proof

@[simp] theorem State.countMalformed_params (s : State) : s.countMalformed.params = s.params := rfl
@[simp] theorem State.countMalformed_mem (s : State) : s.countMalformed.mem = s.mem := rfl
@[simp] theorem State.countMalformed_malformedCnt (s : State) : s.countMalformed.malformedCnt = s.malformedCnt + 1 := rfl
@[simp] theorem State.countMalformed_fatal (s : State) : s.countMalformed.fatal = s.fatal := rfl
@[simp] theorem State.countMalformed_inbox (s : State) : s.countMalformed.inbox = s.inbox := rfl
@[simp] theorem State.countMalformed_outputs (s : State) : s.countMalformed.outputs = s.outputs := rfl

@[simp] theorem State.setFatal_params (s : State) : s.setFatal.params = s.params := rfl
@[simp] theorem State.setFatal_mem (s : State) : s.setFatal.mem = s.mem := rfl
@[simp] theorem State.setFatal_malformedCnt (s : State) : s.setFatal.malformedCnt = s.malformedCnt := rfl
@[simp] theorem State.setFatal_fatal (s : State) : s.setFatal.fatal = true := rfl
@[simp] theorem State.setFatal_inbox (s : State) : s.setFatal.inbox = s.inbox := rfl
@[simp] theorem State.setFatal_outputs (s : State) : s.setFatal.outputs = s.outputs := rfl

@[simp] theorem State.setEntry_params (s : State) (d : Nat) (v : Word) : (s.setEntry d v).params = s.params := rfl
@[simp] theorem State.setEntry_mem (s : State) (d : Nat) (v : Word) : (s.setEntry d v).mem = s.mem.writeWord (s.entryAddress d) v := rfl
@[simp] theorem State.setEntry_malformedCnt (s : State) (d : Nat) (v : Word) : (s.setEntry d v).malformedCnt = s.malformedCnt := rfl
@[simp] theorem State.setEntry_fatal (s : State) (d : Nat) (v : Word) : (s.setEntry d v).fatal = s.fatal := rfl
@[simp] theorem State.setEntry_inbox (s : State) (d : Nat) (v : Word) : (s.setEntry d v).inbox = s.inbox := rfl
@[simp] theorem State.setEntry_outputs (s : State) (d : Nat) (v : Word) : (s.setEntry d v).outputs = s.outputs := rfl

@[simp] theorem State.endEvent_params (s : State) (outs : List Output) : (s.endEvent outs).params = s.params := rfl
@[simp] theorem State.endEvent_mem (s : State) (outs : List Output) : (s.endEvent outs).mem = s.mem := rfl
@[simp] theorem State.endEvent_malformedCnt (s : State) (outs : List Output) : (s.endEvent outs).malformedCnt = s.malformedCnt := rfl
@[simp] theorem State.endEvent_fatal (s : State) (outs : List Output) : (s.endEvent outs).fatal = s.fatal := rfl
@[simp] theorem State.endEvent_inbox (s : State) (outs : List Output) : (s.endEvent outs).inbox = s.inbox.tail := rfl
@[simp] theorem State.endEvent_outputs (s : State) (outs : List Output) : (s.endEvent outs).outputs = s.outputs ++ outs := rfl

@[simp] theorem State.finish_params (s : State) (outs : List Output) (d : Disposition) : (s.finish outs d).params = s.params := rfl
@[simp] theorem State.finish_mem (s : State) (outs : List Output) (d : Disposition) : (s.finish outs d).mem = s.mem := rfl
@[simp] theorem State.finish_malformedCnt (s : State) (outs : List Output) (d : Disposition) : (s.finish outs d).malformedCnt = s.malformedCnt := rfl
@[simp] theorem State.finish_fatal (s : State) (outs : List Output) (d : Disposition) : (s.finish outs d).fatal = s.fatal := rfl
@[simp] theorem State.finish_inbox (s : State) (outs : List Output) (d : Disposition) : (s.finish outs d).inbox = s.inbox.tail := rfl
@[simp] theorem State.finish_outputs (s : State) (outs : List Output) (d : Disposition) : (s.finish outs d).outputs = s.outputs ++ (outs ++ [.ended d]) := rfl

@[simp] theorem State.applyReset_params (s : State) : s.applyReset.params = s.params := rfl
@[simp] theorem State.applyReset_mem (s : State) : s.applyReset.mem = [] := rfl
@[simp] theorem State.applyReset_malformedCnt (s : State) : s.applyReset.malformedCnt = 0 := rfl
@[simp] theorem State.applyReset_fatal (s : State) : s.applyReset.fatal = false := rfl
@[simp] theorem State.applyReset_inbox (s : State) : s.applyReset.inbox = s.inbox.tail := rfl
@[simp] theorem State.applyReset_outputs (s : State) : s.applyReset.outputs = s.outputs := rfl

@[simp] theorem State.resetWith_params (p : Params) : (State.resetWith p).params = p := rfl
@[simp] theorem State.resetWith_mem (p : Params) : (State.resetWith p).mem = [] := rfl
@[simp] theorem State.resetWith_malformedCnt (p : Params) : (State.resetWith p).malformedCnt = 0 := rfl
@[simp] theorem State.resetWith_fatal (p : Params) : (State.resetWith p).fatal = false := rfl
@[simp] theorem State.resetWith_inbox (p : Params) : (State.resetWith p).inbox = [] := rfl
@[simp] theorem State.resetWith_outputs (p : Params) : (State.resetWith p).outputs = [] := rfl

@[simp] theorem State.withFetchWord_params (s : State) (n w : Nat) : (s.withFetchWord n w).params = s.params := rfl
@[simp] theorem State.withFetchWord_mem (s : State) (n w : Nat) : (s.withFetchWord n w).mem = s.mem := rfl
@[simp] theorem State.withFetchWord_malformedCnt (s : State) (n w : Nat) : (s.withFetchWord n w).malformedCnt = s.malformedCnt := rfl
@[simp] theorem State.withFetchWord_fatal (s : State) (n w : Nat) : (s.withFetchWord n w).fatal = false := rfl
@[simp] theorem State.withFetchWord_inbox (s : State) (n w : Nat) : (s.withFetchWord n w).inbox = .ingress 0 (tableFrame s.params n w) :: s.inbox := rfl
@[simp] theorem State.withFetchWord_outputs (s : State) (n w : Nat) : (s.withFetchWord n w).outputs = s.outputs := rfl

@[simp] theorem State.countMalformed_entryAddress (s : State) (k : Nat) : s.countMalformed.entryAddress k = s.entryAddress k := rfl
@[simp] theorem State.countMalformed_entry (s : State) (k : Nat) : s.countMalformed.entry k = s.entry k := rfl
@[simp] theorem State.countMalformed_entryAt (s : State) (a : Nat) : s.countMalformed.entryAt a = s.entryAt a := rfl
@[simp] theorem State.countMalformed_localRead32 (s : State) (a : Nat) : s.countMalformed.localRead32 a = s.localRead32 a := rfl
@[simp] theorem State.countMalformed_lookup (s : State) (k : Nat) : s.countMalformed.lookup k = s.lookup k := rfl

@[simp] theorem State.setFatal_entryAddress (s : State) (k : Nat) : s.setFatal.entryAddress k = s.entryAddress k := rfl
@[simp] theorem State.setFatal_entry (s : State) (k : Nat) : s.setFatal.entry k = s.entry k := rfl
@[simp] theorem State.setFatal_entryAt (s : State) (a : Nat) : s.setFatal.entryAt a = s.entryAt a := rfl
@[simp] theorem State.setFatal_localRead32 (s : State) (a : Nat) : s.setFatal.localRead32 a = s.localRead32 a := rfl
@[simp] theorem State.setFatal_lookup (s : State) (k : Nat) : s.setFatal.lookup k = s.lookup k := rfl

@[simp] theorem State.setEntry_entryAddress (s : State) (d : Nat) (v : Word) (k : Nat) : (s.setEntry d v).entryAddress k = s.entryAddress k := rfl
@[simp] theorem State.setEntry_entryAt (s : State) (d : Nat) (v : Word) (a : Nat) : (s.setEntry d v).entryAt a = s.entryAt a := rfl

@[simp] theorem State.endEvent_entryAddress (s : State) (outs : List Output) (k : Nat) : (s.endEvent outs).entryAddress k = s.entryAddress k := rfl
@[simp] theorem State.endEvent_entry (s : State) (outs : List Output) (k : Nat) : (s.endEvent outs).entry k = s.entry k := rfl
@[simp] theorem State.endEvent_entryAt (s : State) (outs : List Output) (a : Nat) : (s.endEvent outs).entryAt a = s.entryAt a := rfl
@[simp] theorem State.endEvent_localRead32 (s : State) (outs : List Output) (a : Nat) : (s.endEvent outs).localRead32 a = s.localRead32 a := rfl
@[simp] theorem State.endEvent_lookup (s : State) (outs : List Output) (k : Nat) : (s.endEvent outs).lookup k = s.lookup k := rfl

@[simp] theorem State.finish_entryAddress (s : State) (outs : List Output) (d : Disposition) (k : Nat) : (s.finish outs d).entryAddress k = s.entryAddress k := rfl
@[simp] theorem State.finish_entry (s : State) (outs : List Output) (d : Disposition) (k : Nat) : (s.finish outs d).entry k = s.entry k := rfl
@[simp] theorem State.finish_entryAt (s : State) (outs : List Output) (d : Disposition) (a : Nat) : (s.finish outs d).entryAt a = s.entryAt a := rfl
@[simp] theorem State.finish_localRead32 (s : State) (outs : List Output) (d : Disposition) (a : Nat) : (s.finish outs d).localRead32 a = s.localRead32 a := rfl
@[simp] theorem State.finish_lookup (s : State) (outs : List Output) (d : Disposition) (k : Nat) : (s.finish outs d).lookup k = s.lookup k := rfl

end Sys2Proof.Machine
end

