-- ==== Sys2Proof/Laws/Ops.lean ====
section
/-! SUPPORT. What each shared operation over the register space can do: entries after a write, the two accessors, errors,
and the invariant under each. -/

namespace Sys2Proof.Machine

open Sys2Proof

/-! ### Entries -/

/-- An entry write is read back (rule R24). -/
theorem State.entry_setEntry_same {s : State} (hm : s.mem.wf = true) (d : Nat) (v : Word) :
    (s.setEntry d v).entry d = v := by
  simp only [State.entry, State.setEntry_mem, State.setEntry_entryAddress]
  exact Memory.readWord_writeWord_same hm _ _

/-- An entry write leaves every other entry alone. -/
theorem State.entry_setEntry_other {s : State} {d e : Nat} (v : Word) (h : e ≠ d) :
    (s.setEntry d v).entry e = s.entry e := by
  simp only [State.entry, State.setEntry_mem, State.setEntry_entryAddress]
  exact Memory.readWord_writeWord_other v (by simp only [State.entryAddress]; omega)

/-- The entry an address names, when there is one (rule R57). -/
theorem State.entryAt_eq_some {s : State} {a d : Nat} :
    s.entryAt a = some d ↔
      a % 4 = 0 ∧ s.params.mapBase ≤ a ∧ a < s.params.mapBase + 4 * s.params.nDest ∧ d = (a - s.params.mapBase) / 4 := by
  unfold State.entryAt
  split <;> rename_i h
  · simp only [reduceCtorEq, false_iff]
    omega
  · split <;> rename_i h'
    · simp only [reduceCtorEq, false_iff]
      omega
    · simp only [Option.some.injEq]
      omega

/-- The addresses the accessors answer `Fail` to (rule R57). -/
theorem State.entryAt_eq_none {s : State} {a : Nat} :
    s.entryAt a = none ↔ a % 4 ≠ 0 ∨ a < s.params.mapBase ∨ s.params.mapBase + 4 * s.params.nDest ≤ a := by
  unfold State.entryAt
  split <;> rename_i h
  · simp only [true_iff]
    omega
  · split <;> rename_i h'
    · simp only [true_iff]
      omega
    · simp only [reduceCtorEq, false_iff]
      omega

/-- The address of an entry names that entry, if the table starts at a multiple of 4 (rule R5). -/
theorem State.entryAt_entryAddress {s : State} {d : Nat} (hb : s.params.mapBase % 4 = 0) (hd : d < s.params.nDest) :
    s.entryAt (s.entryAddress d) = some d := by
  rw [State.entryAt_eq_some]
  simp only [State.entryAddress]
  omega

/-- An entry an address names lies in the table. -/
theorem State.entryAt_lt {s : State} {a d : Nat} (h : s.entryAt a = some d) : d < s.params.nDest := by
  rw [State.entryAt_eq_some] at h
  omega

/-- An entry an address names stands at that address, if the table starts at a multiple of 4. -/
theorem State.entryAddress_of_entryAt {s : State} {a d : Nat} (hb : s.params.mapBase % 4 = 0)
    (h : s.entryAt a = some d) : s.entryAddress d = a := by
  rw [State.entryAt_eq_some] at h
  simp only [State.entryAddress]
  omega

/-! ### The accessors -/

/-- `LOCAL.read32` on an address that names an entry (rule R230). -/
theorem State.localRead32_of_some {s : State} {a d : Nat} (h : s.entryAt a = some d) :
    s.localRead32 a = some (s.entry d &&& s.params.nrMask) := by
  simp [State.localRead32, h]

/-- `LOCAL.read32` on any other address (rule R230). -/
theorem State.localRead32_of_none {s : State} {a : Nat} (h : s.entryAt a = none) : s.localRead32 a = none := by
  simp [State.localRead32, h]

/-- Everything `LOCAL.write32` can do: fail and change nothing, or merge one entry (rule R231). -/
theorem State.localWrite32_cases (s : State) (a : Nat) (v m : Word) :
    (s.entryAt a = none ∧ s.localWrite32 a v m = (s, false)) ∨
      ∃ d, s.entryAt a = some d ∧
        s.localWrite32 a v m = (s.setEntry d (mergeEntry s.params.nrMask (s.entry d) v m), true) := by
  unfold State.localWrite32
  cases h : s.entryAt a with
  | none => exact .inl ⟨rfl, rfl⟩
  | some d => exact .inr ⟨d, rfl, rfl⟩

/-- What a merge stores has no reserved bit set that was not set before (rule R28). -/
theorem mergeEntry_reserved (n old v m : Word) : mergeEntry n old v m &&& ~~~n = old &&& ~~~n := by
  refine BitVec.eq_of_getLsbD_eq fun k hk => ?_
  simp only [mergeEntry, BitVec.getLsbD_and, BitVec.getLsbD_or, BitVec.getLsbD_not, hk, decide_true, Bool.true_and]
  cases old.getLsbD k <;> cases v.getLsbD k <;> cases m.getLsbD k <;> cases n.getLsbD k <;> rfl

/-- The fields `LOCAL.write32` never touches. -/
theorem State.localWrite32_frame (s : State) (a : Nat) (v m : Word) :
    (s.localWrite32 a v m).1.params = s.params ∧ (s.localWrite32 a v m).1.malformedCnt = s.malformedCnt ∧
      (s.localWrite32 a v m).1.fatal = s.fatal ∧ (s.localWrite32 a v m).1.inbox = s.inbox ∧
      (s.localWrite32 a v m).1.outputs = s.outputs := by
  rcases s.localWrite32_cases a v m with ⟨-, h⟩ | ⟨d, -, h⟩ <;> simp [h]

/-! ### The invariant -/

/-- The invariant depends on the parameters and the register space only. -/
theorem State.Inv.of_eq {s t : State} (hi : s.Inv) (hp : t.params = s.params) (hm : t.mem = s.mem) : t.Inv := by
  obtain ⟨h1, h2, h3⟩ := hi
  refine ⟨by rw [hm]; exact h1, ?_, ?_⟩
  · unfold State.memInTable
    rw [hm, hp]
    exact h2
  · intro d hd
    have : t.entry d = s.entry d := by simp [State.entry, State.entryAddress, hm, hp]
    rw [this, hp]
    exact h3 d (by rwa [hp] at hd)

/-- The reset state satisfies the invariant under any parameters. -/
theorem State.resetWith_inv (p : Params) : (State.resetWith p).Inv := by
  refine ⟨rfl, fun c hc => absurd hc (by simp [State.resetWith]), fun d _ => ?_⟩
  have : (State.resetWith p).entry d = 0 := by
    simp only [State.entry, State.resetWith_mem, Memory.readWord, Memory.readByte_nil, Memory.blank]
    rfl
  simp [this]

/-- Storing an entry of the table whose reserved bits are clear keeps the invariant. -/
theorem State.Inv.setEntry {s : State} (hi : s.Inv) {d : Nat} (hd : d < s.params.nDest) {v : Word}
    (hv : v &&& ~~~s.params.nrMask = 0) : (s.setEntry d v).Inv := by
  obtain ⟨h1, h2, h3⟩ := hi
  refine ⟨Memory.writeWord_wf h1 _ _, ?_, ?_⟩
  · intro c hc
    rcases Memory.mem_writeWord hc with hc | hc
    · exact h2 c hc
    · simp only [State.entryAddress, State.setEntry_params] at *
      omega
  · intro e he
    by_cases hed : e = d
    · subst hed
      rw [State.entry_setEntry_same h1]
      exact hv
    · rw [State.entry_setEntry_other v hed]
      exact h3 e he

/-- `LOCAL.write32` keeps the invariant (rule R28). -/
theorem State.Inv.localWrite32 {s : State} (hi : s.Inv) (a : Nat) (v m : Word) : (s.localWrite32 a v m).1.Inv := by
  rcases s.localWrite32_cases a v m with ⟨-, h⟩ | ⟨d, hd, h⟩
  · rw [h]
    exact hi
  · rw [h]
    refine hi.setEntry (State.entryAt_lt hd) ?_
    rw [mergeEntry_reserved]
    exact hi.reservedClear d (State.entryAt_lt hd)

/-! ### Errors -/

/-- Everything an error does (rules R250, R258). -/
theorem raiseError_cases (e : EngineError) (s : State) :
    (∃ r, e = .decode r ∧ raiseError e s = s.countMalformed.finish [] (.dropDecode r)) ∨
      (e = .routing ∧ raiseError e s = s.finish [] .dropUnmapped) ∨
      (e = .fatal ∧ raiseError e s = s.setFatal.finish [] .fatal) := by
  cases e with
  | decode r => exact .inl ⟨r, rfl, rfl⟩
  | routing => exact .inr (.inl ⟨rfl, rfl⟩)
  | fatal => exact .inr (.inr ⟨rfl, rfl⟩)

@[simp] theorem raiseError_decode (r : DecodeError) (s : State) :
    raiseError (.decode r) s = s.countMalformed.finish [] (.dropDecode r) := rfl
@[simp] theorem raiseError_routing (s : State) : raiseError .routing s = s.finish [] .dropUnmapped := rfl
@[simp] theorem raiseError_fatal (s : State) : raiseError .fatal s = s.setFatal.finish [] .fatal := rfl

@[simp] theorem raiseError_params (e : EngineError) (s : State) : (raiseError e s).params = s.params := by
  cases e <;> rfl
@[simp] theorem raiseError_mem (e : EngineError) (s : State) : (raiseError e s).mem = s.mem := by
  cases e <;> rfl
@[simp] theorem raiseError_inbox (e : EngineError) (s : State) : (raiseError e s).inbox = s.inbox.tail := by
  cases e <;> rfl

end Sys2Proof.Machine
end

