-- ==== Sys2Proof/Laws/Translator.lean ====
section
/-! SUPPORT. What the maintenance translator can do: the mask helper's cases, reads that leave the local registers alone,
and anything every accessor call keeps. -/

namespace Sys2Proof.Machine

open Sys2Proof

/-- Everything the mask helper can answer (rule R125). -/
theorem rdwrDwMaskFromSpan_cases (b o : Nat) :
    (1 ≤ b ∧ b ≤ 7 ∧ o + b ≤ 8 ∧
        rdwrDwMaskFromSpan b o = .ok (BitVec.ofNat 64 (((1 <<< (b * 8)) - 1) <<< (o * 8)))) ∨
      (8 ≤ b ∧ b % 8 = 0 ∧ o = 0 ∧ rdwrDwMaskFromSpan b o = .ok 0xFFFFFFFFFFFFFFFF) ∨
      (¬ (1 ≤ b ∧ b ≤ 7 ∧ o + b ≤ 8) ∧ ¬ (8 ≤ b ∧ b % 8 = 0 ∧ o = 0) ∧ rdwrDwMaskFromSpan b o = .error .badSpan) := by
  unfold rdwrDwMaskFromSpan
  split <;> rename_i h
  · exact .inl ⟨h.1, h.2.1, h.2.2, rfl⟩
  · split <;> rename_i h'
    · exact .inr (.inl ⟨h'.1, h'.2.1, h'.2.2, rfl⟩)
    · exact .inr (.inr ⟨h, h', rfl⟩)

/-! ### Anything the accessor calls keep -/

section Preserve

variable {σ : Type} {T : Target σ} {p : σ → Prop}

theorem readLane_keeps (hr : ∀ t a, p t → p (T.read32 t a).1) (mask : DWord) (w a : Nat) {t : σ} (h : p t) :
    p (readLane T mask w a t).1 := by
  unfold readLane
  split
  · exact h
  · have := hr t a h
    split <;> rename_i he <;> rw [he] at this <;> exact this

theorem readDouble_keeps (hr : ∀ t a, p t → p (T.read32 t a).1) (mask : DWord) (a : Nat) {t : σ} (h : p t) :
    p (readDouble T mask a t).1 := by
  unfold readDouble
  have h0 := readLane_keeps hr mask 0 a h
  split <;> rename_i he <;> rw [he] at h0
  · exact h0
  · have h1 := readLane_keeps hr mask 1 (a + 4) h0
    split <;> rename_i he' <;> rw [he'] at h1 <;> exact h1

theorem readDoubles_keeps (hr : ∀ t a, p t → p (T.read32 t a).1) (mask : DWord) (cnt a : Nat) {t : σ} (h : p t) :
    p (readDoubles T mask cnt a t).1 := by
  induction cnt generalizing a t with
  | zero => exact h
  | succ n ih =>
    simp only [readDoubles]
    have h0 := readDouble_keeps hr mask a h
    split <;> rename_i he <;> rw [he] at h0
    · exact h0
    · have h1 := ih (a + 8) h0
      split <;> rename_i he' <;> rw [he'] at h1 <;> exact h1

theorem writeLane_keeps (hw : ∀ t a v m, p t → p (T.write32 t a v m).1) (mask : DWord) (w a : Nat) (d : DWord) {t : σ}
    (h : p t) : p (writeLane T mask w a d t).1 := by
  unfold writeLane
  split
  · exact h
  · exact hw _ _ _ _ h

theorem writeDouble_keeps (hw : ∀ t a v m, p t → p (T.write32 t a v m).1) (mask : DWord) (a : Nat) (d : DWord) {t : σ}
    (h : p t) : p (writeDouble T mask a d t).1 := by
  unfold writeDouble
  have h0 := writeLane_keeps hw mask 0 a d h
  split <;> rename_i he <;> rw [he] at h0
  · exact h0
  · exact writeLane_keeps hw mask 1 (a + 4) d h0

theorem writeDoubles_keeps (hw : ∀ t a v m, p t → p (T.write32 t a v m).1) (mask : DWord) (ds : List DWord) (a : Nat)
    {t : σ} (h : p t) : p (writeDoubles T mask ds a t).1 := by
  induction ds generalizing a t with
  | nil => exact h
  | cons d ds ih =>
    simp only [writeDoubles]
    have h0 := writeDouble_keeps hw mask a d h
    split <;> rename_i he <;> rw [he] at h0
    · exact h0
    · exact ih (a + 8) h0

/-- What every read call keeps, a maintenance read keeps. -/
theorem maintRead_keeps (hr : ∀ t a, p t → p (T.read32 t a).1) {P : Packet} {t : σ} {acc : Access σ}
    (he : maintRead T P t = .ok acc) (h : p t) : p acc.target := by
  unfold maintRead at he
  split at he
  · exact absurd he (by simp)
  · rename_i mask _
    have := readDoubles_keeps hr mask (divCeil8 P.rdwrBytes) (configAddress P) h
    split at he <;> rename_i e <;> rw [e] at this <;> cases he <;> exact this

/-- What every write call keeps, a maintenance write keeps. -/
theorem maintWrite_keeps (hw : ∀ t a v m, p t → p (T.write32 t a v m).1) {P : Packet} {t : σ} {acc : Access σ}
    (he : maintWrite T P t = .ok acc) (h : p t) : p acc.target := by
  unfold maintWrite at he
  split at he
  · exact absurd he (by simp)
  · split at he
    · exact absurd he (by simp)
    · rename_i mask _
      have := writeDoubles_keeps hw mask P.payload (configAddress P) h
      split at he <;> rename_i e <;> rw [e] at this <;> cases he <;> exact this

end Preserve

/-! ### Answers -/

section Answers

variable {σ : Type} {T : Target σ}

theorem readDoubles_length {mask : DWord} {cnt a : Nat} {t u : σ} {ds : List DWord}
    (h : readDoubles T mask cnt a t = (u, some ds)) : ds.length = cnt := by
  induction cnt generalizing a t ds with
  | zero =>
    simp only [readDoubles, Prod.mk.injEq, Option.some.injEq] at h
    simp [← h.2]
  | succ n ih =>
    simp only [readDoubles] at h
    split at h
    · simp at h
    · split at h
      · simp at h
      · rename_i e
        simp only [Prod.mk.injEq, Option.some.injEq] at h
        obtain ⟨rfl, rfl⟩ := h
        simp [ih e]

/-- Everything a maintenance read can answer (rules R172, R174). -/
theorem maintRead_cases (P : Packet) (t : σ) :
    (rdwrDwMaskFromSpan P.rdwrBytes P.dwOffset = .error .badSpan ∧ maintRead T P t = .error .badSpan) ∨
      ∃ mask, rdwrDwMaskFromSpan P.rdwrBytes P.dwOffset = .ok mask ∧
        ((∃ u, readDoubles T mask (divCeil8 P.rdwrBytes) (configAddress P) t = (u, none) ∧
            maintRead T P t = .ok ⟨u, statusError, []⟩) ∨
          ∃ u ds, readDoubles T mask (divCeil8 P.rdwrBytes) (configAddress P) t = (u, some ds) ∧
            ds.length = divCeil8 P.rdwrBytes ∧ maintRead T P t = .ok ⟨u, statusDone, ds⟩) := by
  unfold maintRead
  rcases rdwrDwMaskFromSpan_cases P.rdwrBytes P.dwOffset with ⟨-, -, -, h⟩ | ⟨-, -, -, h⟩ | ⟨-, -, h⟩
  case inr.inr => exact .inl ⟨h, by rw [h]⟩
  all_goals
    rw [h]
    refine .inr ⟨_, rfl, ?_⟩
    rcases e : readDoubles T _ (divCeil8 P.rdwrBytes) (configAddress P) t with ⟨u, _ | ds⟩
    · exact .inl ⟨u, rfl, by simp only [e]⟩
    · exact .inr ⟨u, ds, rfl, readDoubles_length e, by simp only [e]⟩

/-- Everything a maintenance write can answer (rules R173, R174). -/
theorem maintWrite_cases (P : Packet) (t : σ) :
    (P.payloadLen ≠ divCeil8 P.rdwrBytes ∧ maintWrite T P t = .error .payloadLen) ∨
      (P.payloadLen = divCeil8 P.rdwrBytes ∧
        ((rdwrDwMaskFromSpan P.rdwrBytes P.dwOffset = .error .badSpan ∧ maintWrite T P t = .error .badSpan) ∨
          ∃ mask u ok, rdwrDwMaskFromSpan P.rdwrBytes P.dwOffset = .ok mask ∧
            writeDoubles T mask P.payload (configAddress P) t = (u, ok) ∧
            maintWrite T P t = .ok ⟨u, if ok then statusDone else statusError, []⟩)) := by
  unfold maintWrite
  by_cases hp : P.payloadLen = divCeil8 P.rdwrBytes
  · rw [if_neg (by simp [hp])]
    refine .inr ⟨hp, ?_⟩
    rcases rdwrDwMaskFromSpan_cases P.rdwrBytes P.dwOffset with ⟨-, -, -, h⟩ | ⟨-, -, -, h⟩ | ⟨-, -, h⟩
    case inr.inr => exact .inl ⟨h, by rw [h]⟩
    all_goals
      rw [h]
      rcases e : writeDoubles T _ P.payload (configAddress P) t with ⟨u, _ | _⟩
      · exact .inr ⟨_, u, false, rfl, e, by simp only [e]; rfl⟩
      · exact .inr ⟨_, u, true, rfl, e, by simp only [e]; rfl⟩
  · rw [if_pos hp]
    exact .inl ⟨hp, rfl⟩

end Answers

/-! ### The local registers as the target -/

/-- A maintenance read of the local registers changes nothing (rule R56). -/
theorem maintRead_local_target {P : Packet} {s : State} {acc : Access State} (h : maintRead localTarget P s = .ok acc) :
    acc.target = s :=
  maintRead_keeps (p := fun t => t = s) (fun _ _ ht => ht) h rfl

/-- A maintenance write of the local registers changes nothing but the register space. -/
theorem maintWrite_local_frame {P : Packet} {s : State} {acc : Access State} (h : maintWrite localTarget P s = .ok acc) :
    acc.target.params = s.params ∧ acc.target.malformedCnt = s.malformedCnt ∧ acc.target.fatal = s.fatal ∧
      acc.target.inbox = s.inbox ∧ acc.target.outputs = s.outputs := by
  refine maintWrite_keeps
    (p := fun t => t.params = s.params ∧ t.malformedCnt = s.malformedCnt ∧ t.fatal = s.fatal ∧ t.inbox = s.inbox ∧
      t.outputs = s.outputs) ?_ h ⟨rfl, rfl, rfl, rfl, rfl⟩
  rintro t a v m ⟨h1, h2, h3, h4, h5⟩
  obtain ⟨g1, g2, g3, g4, g5⟩ := t.localWrite32_frame a v m
  exact ⟨g1.trans h1, g2.trans h2, g3.trans h3, g4.trans h4, g5.trans h5⟩

/-- A maintenance write of the local registers keeps the invariant (rule R28). -/
theorem State.Inv.maintWrite_local {P : Packet} {s : State} {acc : Access State} (hi : s.Inv)
    (h : maintWrite localTarget P s = .ok acc) : acc.target.Inv :=
  maintWrite_keeps (p := State.Inv) (fun _ a v m ht => ht.localWrite32 a v m) h hi

end Sys2Proof.Machine
end

