-- ==== Sys2Proof/Laws/Engine.lean ====
section
/-! SUPPORT. What each engine operation can do, and exec, kind by kind, on the arrival of a frame. -/

namespace Sys2Proof.Machine

open Sys2Proof

/-! ### Lookup and fan-out -/

/-- Everything the lookup can answer (rule R194). -/
theorem State.lookup_cases (s : State) (d : Nat) :
    ((s.params.nDest ≤ d ∨ (s.entry d).getLsbD 0 = false) ∧ s.lookup d = none) ∨
      (d < s.params.nDest ∧ (s.entry d).getLsbD 0 = true ∧ s.lookup d = some ((s.entry d).extractLsb' 24 8)) := by
  unfold State.lookup
  split <;> rename_i h
  · exact .inl ⟨.inl h, rfl⟩
  · split <;> rename_i h'
    · exact .inl ⟨.inr h', rfl⟩
    · exact .inr ⟨by omega, by simpa using h', rfl⟩

/-- Port `p` of an entry's bitmap is entry bit `24 + p` (rule R27). -/
theorem getLsbD_bitmap (e : Word) (p : Nat) : (e.extractLsb' 24 8).getLsbD p = e.getLsbD (24 + p) := by
  rw [BitVec.getLsbD_extractLsb']
  by_cases hp : p < 8
  · simp [hp]
  · simp only [hp, decide_false, Bool.false_and]
    exact (BitVec.getLsbD_of_ge _ _ (by omega)).symm

/-- The ports a fan-out selects (rules R27, R195). -/
theorem mem_selectedPorts {n p : Nat} {bm : BitVec 8} : p ∈ selectedPorts n bm ↔ p < n ∧ bm.getLsbD p = true := by
  simp [selectedPorts]

/-- Everything a forward can do (rule R195). -/
theorem forward_cases (dest : Nat) (g : Frame) (s : State) :
    (s.lookup dest = none ∧ forward dest g s = s.finish [] .dropUnmapped) ∨
      ∃ bm, s.lookup dest = some bm ∧
        forward dest g s = s.finish ((selectedPorts s.params.nPorts bm).map fun p => .deliver p g) .forwarded := by
  unfold forward
  cases h : s.lookup dest with
  | none => exact .inl ⟨rfl, rfl⟩
  | some bm => exact .inr ⟨bm, rfl, rfl⟩

@[simp] theorem forward_params (d : Nat) (g : Frame) (s : State) : (forward d g s).params = s.params := by
  rcases forward_cases d g s with ⟨-, h⟩ | ⟨_, -, h⟩ <;> simp [h]
@[simp] theorem forward_mem (d : Nat) (g : Frame) (s : State) : (forward d g s).mem = s.mem := by
  rcases forward_cases d g s with ⟨-, h⟩ | ⟨_, -, h⟩ <;> simp [h]
@[simp] theorem forward_malformedCnt (d : Nat) (g : Frame) (s : State) :
    (forward d g s).malformedCnt = s.malformedCnt := by
  rcases forward_cases d g s with ⟨-, h⟩ | ⟨_, -, h⟩ <;> simp [h]
@[simp] theorem forward_fatal (d : Nat) (g : Frame) (s : State) : (forward d g s).fatal = s.fatal := by
  rcases forward_cases d g s with ⟨-, h⟩ | ⟨_, -, h⟩ <;> simp [h]
@[simp] theorem forward_inbox (d : Nat) (g : Frame) (s : State) : (forward d g s).inbox = s.inbox.tail := by
  rcases forward_cases d g s with ⟨-, h⟩ | ⟨_, -, h⟩ <;> simp [h]

/-! ### Hop-count forwarding and responses -/

/-- Everything hop-count forwarding can do (rules R200, R204). -/
theorem hopForward_cases (P : Packet) (s : State) :
    (∃ e, encodePacket s.params { P with hopCount := P.hopCount - 1 } = .error e ∧
        hopForward P s = s.setFatal.finish [] .fatal) ∨
      ∃ g, encodePacket s.params { P with hopCount := P.hopCount - 1 } = .ok g ∧ hopForward P s = forward P.destId g s := by
  unfold hopForward
  cases h : encodePacket s.params { P with hopCount := P.hopCount - 1 } with
  | error e => exact .inl ⟨e, rfl, rfl⟩
  | ok g => exact .inr ⟨g, rfl, rfl⟩

/-- Everything the end of terminal handling can do (rules R198, R204). -/
theorem respond_cases (port : Nat) (P : Packet) (r : Except FatalReason (Access State)) (s : State) :
    (∃ e, r = .error e ∧ respond port P r s = s.setFatal.finish [] .fatal) ∨
      ∃ acc, r = .ok acc ∧
        ((∃ e, encodePacket s.params (responsePacket P acc.status acc.payload) = .error e ∧
            respond port P r s = acc.target.setFatal.finish [] .fatal) ∨
          ∃ g, encodePacket s.params (responsePacket P acc.status acc.payload) = .ok g ∧
            respond port P r s = acc.target.finish [.deliver port g] .responded) := by
  unfold respond
  cases r with
  | error e => exact .inl ⟨e, rfl, rfl⟩
  | ok acc =>
    refine .inr ⟨acc, rfl, ?_⟩
    cases h : encodePacket s.params (responsePacket P acc.status acc.payload) with
    | error e => exact .inl ⟨e, rfl, by simp [h]⟩
    | ok g => exact .inr ⟨g, rfl, by simp [h]⟩

/-- A terminal packet that is not a request is dropped (rule R199). -/
theorem terminalUnhandled_eq (s : State) : terminalUnhandled s = s.finish [] .dropMaintUnhandled := rfl

/-! ### The arrival of a frame -/

/-- Everything a meaning can answer, given what it does with the frame. -/
theorem onIngress_cases (s : State) (k : Nat → Frame → State) :
    (∃ port f rest, s.inbox = .ingress port f :: rest ∧ s.fatal = true ∧
        onIngress s k = .next (s.finish [] .ignoredFatal)) ∨
      (∃ port f rest, s.inbox = .ingress port f :: rest ∧ s.fatal = false ∧ onIngress s k = .next (k port f)) ∨
      ((∀ port f rest, s.inbox ≠ .ingress port f :: rest) ∧ onIngress s k = .fault .noIngressEvent) := by
  unfold onIngress
  split
  · rename_i port f rest h
    cases hf : s.fatal
    · exact .inr (.inl ⟨port, f, rest, h, rfl, rfl⟩)
    · exact .inl ⟨port, f, rest, h, rfl, rfl⟩
  · rename_i h
    exact .inr (.inr ⟨fun port f rest he => h port f rest he, rfl⟩)

theorem onIngress_of_fatal {s : State} {port : Nat} {f : Frame} {rest : List Event} (k : Nat → Frame → State)
    (h : s.inbox = .ingress port f :: rest) (hf : s.fatal = true) :
    onIngress s k = .next (s.finish [] .ignoredFatal) := by
  simp [onIngress, h, hf]

theorem onIngress_of_notFatal {s : State} {port : Nat} {f : Frame} {rest : List Event} (k : Nat → Frame → State)
    (h : s.inbox = .ingress port f :: rest) (hf : s.fatal = false) : onIngress s k = .next (k port f) := by
  simp [onIngress, h, hf]

/-- What an instruction does with an arriving frame, kind by kind (rule R205). -/
def handle (i : Instr) (port : Nat) (f : Frame) (s : State) : State :=
  match i with
  | .maintRdReq _ _ hop _ _ => if hop = 0 then terminalRead port i.toPacket s else hopForward i.toPacket s
  | .maintWrReq _ _ hop _ _ _ => if hop = 0 then terminalWrite port i.toPacket s else hopForward i.toPacket s
  | .maintRdResp _ _ _ hop _ => if hop = 0 then terminalUnhandled s else hopForward i.toPacket s
  | .maintWrResp _ _ _ hop => if hop = 0 then terminalUnhandled s else hopForward i.toPacket s
  | _ => forward i.header.destId.toNat f s

/-- Every meaning is `handle` on the arriving frame. -/
theorem exec_eq_onIngress (i : Instr) (s : State) : exec i s = onIngress s fun port f => handle i port f s := by
  cases i <;> rfl

/-- exec on an arriving frame while `fatal` is clear. -/
theorem exec_of_notFatal {s : State} {port : Nat} {f : Frame} {rest : List Event} (i : Instr)
    (h : s.inbox = .ingress port f :: rest) (hf : s.fatal = false) : exec i s = .next (handle i port f s) := by
  rw [exec_eq_onIngress, onIngress_of_notFatal _ h hf]

/-! ### One step -/

/-- Everything a step can do, event by event. -/
theorem step_cases (s : State) :
    (s.inbox = [] ∧ step s = .next s) ∨
      (∃ a rest, s.inbox = .hostRead a :: rest ∧ step s = .next (hostReadEvent a s)) ∨
      (∃ a v m rest, s.inbox = .hostWrite a v m :: rest ∧ step s = .next (hostWriteEvent a v m s)) ∨
      (∃ rest, s.inbox = .hostStatus :: rest ∧ step s = .next (hostStatusEvent s)) ∨
      (∃ rest, s.inbox = .reset :: rest ∧ step s = .next s.applyReset) ∨
      (∃ port f rest, s.inbox = .ingress port f :: rest ∧
        ((s.params.nPorts ≤ port ∧ step s = .refused (.portNotWired port)) ∨
          (port < s.params.nPorts ∧ s.fatal = true ∧ step s = .next (s.finish [] .ignoredFatal)) ∨
          (port < s.params.nPorts ∧ s.fatal = false ∧
            ((∃ i n, decode s.params f = .ok (i, n) ∧ step s = .next (handle i port f s)) ∨
              ∃ e, decode s.params f = .error e ∧ step s = .next (undecoded e f s))))) := by
  unfold step
  split
  · rename_i h
    exact .inl ⟨h, rfl⟩
  · rename_i a rest h
    exact .inr (.inl ⟨a, rest, h, rfl⟩)
  · rename_i a v m rest h
    exact .inr (.inr (.inl ⟨a, v, m, rest, h, rfl⟩))
  · rename_i rest h
    exact .inr (.inr (.inr (.inl ⟨rest, h, rfl⟩)))
  · rename_i rest h
    exact .inr (.inr (.inr (.inr (.inl ⟨rest, h, rfl⟩))))
  · rename_i port f rest h
    refine .inr (.inr (.inr (.inr (.inr ⟨port, f, rest, h, ?_⟩))))
    by_cases hp : s.params.nPorts ≤ port
    · rw [if_pos hp]
      exact .inl ⟨hp, rfl⟩
    · rw [if_neg hp]
      cases hf : s.fatal
      · refine .inr (.inr ⟨by omega, rfl, ?_⟩)
        cases hd : decode s.params f with
        | error e => exact .inr ⟨e, rfl, by simp⟩
        | ok r => exact .inl ⟨r.1, r.2, rfl, by simp [exec_of_notFatal _ h hf]⟩
      · exact .inr (.inl ⟨by omega, rfl, by simp⟩)

/-! ### The outcomes in the statements' terms -/

/-- The end of an ingress event, with the rest of the events named. -/
theorem finish_eq_ended {s : State} {e : Event} {rest : List Event} (h : s.inbox = e :: rest) (outs : List Output)
    (d : Disposition) : s.finish outs d = s.ended rest outs d := by
  simp [State.finish, State.endEvent, State.ended, h]

/-- A forward by the two cases of the lookup (rules R194, R195). -/
theorem forward_eq_ended {s : State} {e : Event} {rest : List Event} (h : s.inbox = e :: rest) (d : Nat) (g : Frame) :
    (s.unmapped d → forward d g s = s.ended rest [] .dropUnmapped) ∧
      (¬ s.unmapped d → forward d g s = s.ended rest (s.fanOut d g) .forwarded) := by
  rcases s.lookup_cases d with ⟨hu, e'⟩ | ⟨h1, h2, e'⟩
  · refine ⟨fun _ => ?_, fun hn => absurd hu hn⟩
    rcases forward_cases d g s with ⟨-, e⟩ | ⟨bm, hb, e⟩
    · rw [e, finish_eq_ended h]
    · simp [e'] at hb
  · refine ⟨fun hu => ?_, fun _ => ?_⟩
    · rcases hu with hu | hu
      · omega
      · rw [h2] at hu; cases hu
    · rcases forward_cases d g s with ⟨hn, e⟩ | ⟨bm, hb, e⟩
      · simp [e'] at hn
      · rw [e'] at hb; cases hb
        rw [e, finish_eq_ended h]
        simp only [State.fanOut, selectedPorts, getLsbD_bitmap]

end Sys2Proof.Machine
end

