-- ==== Sys2Proof/Laws/PerInstr.lean ====
section
/-! SUPPORT. Per-instruction facts: an instruction is what its packet record stands for. -/

namespace Sys2Proof.Laws.PacketFaithful

open Sys2Proof

/-- The packet record of an instruction has the instruction's kind and stands for that instruction. -/
def Statement (i : Instr) : Prop :=
  kindOf i.toPacket.ftype i.toPacket.transaction = some i.kind ∧ i.toPacket.toInstr i.kind = i

/-- The common header survives the packet record. -/
theorem header_packet (i : Instr) : i.toPacket.header = i.header := by
  simp only [Packet.header, Instr.toPacket_prio, Instr.toPacket_tt, Instr.toPacket_destId, Instr.toPacket_srcId,
    idWidth_ofTt_tt, BitVec.ofNat_toNat, BitVec.setWidth_eq]

theorem nread (h : Header) (tid : BitVec 8) (a : BitVec 29) (x : BitVec 2) (sp : Span) :
    Statement (.nread h tid a x sp) :=
  ⟨rfl, by simp [Instr.kind, Packet.toInstr, Packet.header, headerPacket, Instr.toPacket, Packet.span]⟩

theorem nwrite (h : Header) (tid : BitVec 8) (a : BitVec 29) (x : BitVec 2) (sp : Span) (pl : List DWord) :
    Statement (.nwrite h tid a x sp pl) :=
  ⟨rfl, by simp [Instr.kind, Packet.toInstr, Packet.header, headerPacket, Instr.toPacket, Packet.span]⟩

theorem nwriteR (h : Header) (tid : BitVec 8) (a : BitVec 29) (x : BitVec 2) (sp : Span) (pl : List DWord) :
    Statement (.nwriteR h tid a x sp pl) :=
  ⟨rfl, by simp [Instr.kind, Packet.toInstr, Packet.header, headerPacket, Instr.toPacket, Packet.span]⟩

theorem swrite (h : Header) (a : BitVec 29) (x : BitVec 2) (pl : List DWord) : Statement (.swrite h a x pl) :=
  ⟨rfl, by simp [Instr.kind, Packet.toInstr, Packet.header, headerPacket, Instr.toPacket]⟩

theorem maintRdReq (h : Header) (tid hop : BitVec 8) (off : BitVec 21) (sp : Span) :
    Statement (.maintRdReq h tid hop off sp) :=
  ⟨rfl, by simp [Instr.kind, Packet.toInstr, Packet.header, headerPacket, Instr.toPacket, Packet.span]⟩

theorem maintWrReq (h : Header) (tid hop : BitVec 8) (off : BitVec 21) (sp : Span) (pl : List DWord) :
    Statement (.maintWrReq h tid hop off sp pl) :=
  ⟨rfl, by simp [Instr.kind, Packet.toInstr, Packet.header, headerPacket, Instr.toPacket, Packet.span]⟩

theorem maintRdResp (h : Header) (st : BitVec 4) (tid hop : BitVec 8) (pl : List DWord) :
    Statement (.maintRdResp h st tid hop pl) :=
  ⟨rfl, by simp [Instr.kind, Packet.toInstr, Packet.header, headerPacket, Instr.toPacket]⟩

theorem maintWrResp (h : Header) (st : BitVec 4) (tid hop : BitVec 8) : Statement (.maintWrResp h st tid hop) :=
  ⟨rfl, by simp [Instr.kind, Packet.toInstr, Packet.header, headerPacket, Instr.toPacket]⟩

theorem doorbell (h : Header) (tid : BitVec 8) (info : BitVec 16) : Statement (.doorbell h tid info) :=
  ⟨rfl, by simp [Instr.kind, Packet.toInstr, Packet.header, headerPacket, Instr.toPacket]⟩

theorem message (h : Header) (ml ss : BitVec 4) (l mb : BitVec 2) (seg : BitVec 4) (pl : List DWord) :
    Statement (.message h ml ss l mb seg pl) :=
  ⟨rfl, by simp [Instr.kind, Packet.toInstr, Packet.header, headerPacket, Instr.toPacket]⟩

theorem respNodata (h : Header) (st : BitVec 4) (tid : BitVec 8) : Statement (.respNodata h st tid) :=
  ⟨rfl, by simp [Instr.kind, Packet.toInstr, Packet.header, headerPacket, Instr.toPacket]⟩

theorem respMsg (h : Header) (st : BitVec 4) (l mb : BitVec 2) (seg : BitVec 4) : Statement (.respMsg h st l mb seg) :=
  ⟨rfl, by simp [Instr.kind, Packet.toInstr, Packet.header, headerPacket, Instr.toPacket]⟩

theorem respData (h : Header) (st : BitVec 4) (tid : BitVec 8) (pl : List DWord) : Statement (.respData h st tid pl) :=
  ⟨rfl, by simp [Instr.kind, Packet.toInstr, Packet.header, headerPacket, Instr.toPacket]⟩

end Sys2Proof.Laws.PacketFaithful
end

