-- ==== Sys2Proof/Tests/Slice0.lean ====
section
/-! SUPPORT. Tests of one decoding or one step each, with expected results from the spec's vectors (95_test_vectors.md, named
in each docstring) or worked out by hand from the rule named, and a witness for every statement that has hypotheses. -/

namespace Sys2Proof.Tests

open Sys2Proof Sys2Proof.Machine

/-! ### Helpers -/

/-- The parameters of every test. -/
abbrev pr : Params := Params.reference

/-- An 8-bit-ID header. -/
abbrev hd (p : BitVec 2) (d s : BitVec 32) : Header := ⟨p, .w8, d, s⟩

/-- A state with the given table bytes and one event waiting. -/
def one (mem : Memory) (e : Event) : State := { State.reset with mem := mem, inbox := [e] }

/-- What a step answers, less the state's parameters and events: the new outputs, the table bytes and the status items. -/
def result : Host.Outcome State Fault Refusal → Option (List Output × Memory × BitVec 32 × Bool)
  | .next t => some (t.outputs, t.mem, t.malformedCnt, t.fatal)
  | _ => none

/-- The error of a decoding. -/
def errorOf {α : Type} : Except DecodeError α → Option DecodeError
  | .error e => some e
  | .ok _ => none

/-- The error of an encoding. -/
def encodeErrorOf : Except EncodeError Frame → Option EncodeError
  | .error e => some e
  | .ok _ => none

/-! ### Well-formedness: one ill-formed term per check -/

theorem test_wf_refuses_wide_dest : (Instr.doorbell (hd 0 0x100 0) 0 0).wf pr = false := by decide
theorem test_wf_refuses_wide_src : (Instr.doorbell ⟨0, .w16, 0, 0x10000⟩ 0 0).wf pr = false := by decide
theorem test_wf_accepts_ids_at_their_width : (Instr.doorbell ⟨0, .w16, 0xFFFF, 0xFFFF⟩ 0 0).wf pr = true := by decide
theorem test_wf_refuses_span_without_code : (Instr.nread (hd 0 0 0) 0 0 0 ⟨2, 1⟩).wf pr = false := by decide
theorem test_wf_refuses_large_span : (Instr.maintRdReq (hd 0 0 0) 0 0 0 ⟨256, 0⟩).wf pr = false := by decide
theorem test_wf_refuses_short_span_payload : (Instr.nwrite (hd 0 0 0) 0 0 0 ⟨16, 0⟩ [0]).wf pr = false := by decide
theorem test_wf_refuses_long_span_payload : (Instr.maintWrReq (hd 0 0 0) 0 0 0 ⟨8, 0⟩ [0, 0]).wf pr = false := by decide
theorem test_wf_refuses_large_len_payload : (Instr.swrite (hd 0 0 0) 0 0 (List.replicate 31 0)).wf pr = false := by decide
theorem test_wf_accepts_largest_len_payload : (Instr.swrite (hd 0 0 0) 0 0 (List.replicate 30 0)).wf pr = true := by decide

/-! ### Decoding: a frame of every kind, written out from its layout -/

/-- E1, bit by bit: `01 00 0010`, the IDs, `0100 1000`, `src_tid`, 29 address bits, `wdptr` 1, `xamsbs` 10. -/
theorem test_decode_nread :
    decode pr [0b01000010, 0b00010010, 0b00110100, 0b01001000, 0b10101011, 0b00001001, 0b00011010, 0b00101011, 0b00111110] =
      .ok (.nread (hd 1 0x12 0x34) 0xAB 0x1234567 2 ⟨4, 4⟩, 9) := rfl

/-- E2. -/
theorem test_decode_nwrite :
    decode pr [0x15, 0xBE, 0xEF, 0, 1, 0x4B, 1, 0xFF, 0xFF, 0xFF, 0xFB, 0x01, 0x23, 0x45, 0x67, 0x89, 0xAB, 0xCD, 0xEF] =
      .ok (.nwrite ⟨0, .w16, 0xBEEF, 1⟩ 1 0x1FFFFFFF 3 ⟨8, 0⟩ [0x0123456789ABCDEF], 19) := rfl

/-- E3. -/
theorem test_decode_nwriteR :
    decode pr [0xC5, 0xFF, 0, 0x5B, 0xFF, 0, 0, 0, 4, 0x11, 0x11, 0x11, 0x11, 0x11, 0x11, 0x11, 0x11, 0x22, 0x22, 0x22,
        0x22, 0x22, 0x22, 0x22, 0x22] =
      .ok (.nwriteR (hd 3 0xFF 0) 0xFF 0 0 ⟨16, 0⟩ [0x1111111111111111, 0x2222222222222222], 25) := rfl

/-- E4. -/
theorem test_decode_swrite :
    decode pr [0x86, 7, 8, 0, 0, 8, 1, 0xAA, 0xAA, 0xAA, 0xAA, 0xAA, 0xAA, 0xAA, 0xAA, 0x55, 0x55, 0x55, 0x55, 0x55, 0x55,
        0x55, 0x55] =
      .ok (.swrite (hd 2 7 8) 0x100 1 [0xAAAAAAAAAAAAAAAA, 0x5555555555555555], 23) := rfl

/-- E5, bit by bit: `00 00 1000`, the IDs, `0000 1000`, `src_tid`, `hop_count`, 21 offset bits, `wdptr` 0, `00`. -/
theorem test_decode_maintRdReq :
    decode pr [0b00001000, 0b00000101, 0b00001001, 0b00001000, 0b01000010, 0, 0, 0, 0b00010000] =
      .ok (.maintRdReq (hd 0 5 9) 0x42 0 2 ⟨4, 0⟩, 9) := rfl

/-- E6. -/
theorem test_decode_maintWrReq :
    decode pr [8, 5, 9, 0x18, 0x43, 3, 0xFF, 0xFF, 0xFC, 0xCA, 0xFE, 0xF0, 0x0D, 0, 0, 0, 0] =
      .ok (.maintWrReq (hd 0 5 9) 0x43 3 0x1FFFFF ⟨4, 4⟩ [0xCAFEF00D00000000], 17) := rfl

/-- E7. -/
theorem test_decode_maintRdResp :
    decode pr [8, 9, 5, 0x20, 0x42, 0xFF, 0, 0, 0, 0, 0, 0, 0, 0xDE, 0xAD, 0xBE, 0xEF] =
      .ok (.maintRdResp (hd 0 9 5) 0 0x42 0xFF [0x00000000DEADBEEF], 17) := rfl

/-- E8. -/
theorem test_decode_maintWrResp :
    decode pr [8, 9, 5, 0x37, 0x43, 0xFF, 0, 0, 0] = .ok (.maintWrResp (hd 0 9 5) 7 0x43 0xFF, 9) := rfl

/-- E9. -/
theorem test_decode_doorbell :
    decode pr [0x5A, 1, 2, 3, 4, 0, 0x77, 0xBE, 0xEF] = .ok (.doorbell ⟨1, .w16, 0x0102, 0x0304⟩ 0x77 0xBEEF, 9) := rfl

/-- E10, the logical header bit by bit: `1111 1110 10 01 1001`. -/
theorem test_decode_message :
    decode pr [0b00001011, 0x21, 0x22, 0b11111110, 0b10011001, 8, 7, 6, 5, 4, 3, 2, 1] =
      .ok (.message (hd 0 0x21 0x22) 0xF 0xE 2 1 9 [0x0807060504030201], 13) := rfl

/-- E11. -/
theorem test_decode_respNodata : decode pr [0x8D, 0x34, 0x12, 0, 0xAB] = .ok (.respNodata (hd 2 0x34 0x12) 0 0xAB, 5) := rfl

/-- E12, the logical header bit by bit: `0001 0011 10 01 1001`. -/
theorem test_decode_respMsg :
    decode pr [0x8D, 0x22, 0x21, 0b00010011, 0b10011001] = .ok (.respMsg (hd 2 0x22 0x21) 3 2 1 9, 5) := rfl

/-- E13. -/
theorem test_decode_respData :
    decode pr [0xAD, 0xA1, 0xB2, 0xC3, 0xD4, 1, 2, 3, 4, 0x80, 0xAB, 0xFF, 0xFF, 0xFF, 0xFF, 0xFF, 0xFF, 0xFF, 0xFF] =
      .ok (.respData ⟨2, .w32, 0xA1B2C3D4, 0x01020304⟩ 0 0xAB [0xFFFFFFFFFFFFFFFF], 19) := rfl

/-- X12: reserved bits and excess bytes are ignored, and the frame is shorter again when encoded. -/
theorem test_decode_ignores_reserved_and_excess :
    decode pr [8, 5, 9, 8, 0x42, 0, 0, 0, 0x13, 0xFF, 0xFF] = .ok (.maintRdReq (hd 0 5 9) 0x42 0 2 ⟨4, 0⟩, 9) ∧
      encode pr (.maintRdReq (hd 0 5 9) 0x42 0 2 ⟨4, 0⟩) = .ok [8, 5, 9, 8, 0x42, 0, 0, 0, 0x10] := ⟨rfl, rfl⟩

/-- X1, X2, X3, X4, X5, X6, X8, X9, X10, X11 and X19. -/
theorem test_decode_rejections :
    errorOf (decode pr []) = some .truncated ∧ errorOf (decode pr [0x32, 1, 2, 3]) = some .badTt ∧
      errorOf (decode pr [7, 1, 2, 0, 0, 0, 0]) = some .badFtype ∧ errorOf (decode pr [2, 1]) = some .truncated ∧
      errorOf (decode pr [0x12, 0, 1, 0, 2]) = some .truncated ∧
      errorOf (decode pr [2, 0x12, 0x34, 0x54, 0xAB, 0, 0, 0, 0]) = some .badTransaction ∧
      errorOf (decode pr [2, 0x12, 0x34, 0x48, 0xAB, 0, 0, 0]) = some .truncated ∧
      errorOf (decode pr [5, 5, 9, 0x4B, 1, 0, 0, 0, 0, 0x11, 0x22, 0x33]) = some .truncated ∧
      errorOf (decode pr [2, 0x12, 0x34, 0x4F, 0xAB, 0, 0, 0, 4]) = some .spanTooLarge ∧
      errorOf (decode pr [8, 5, 9, 0x50, 0x42, 0, 0, 0, 0x10]) = some .badTransaction ∧
      errorOf (decode pr (List.replicate 257 0)) = some .frameTooLong := by
  decide +kernel

/-- X17 and X18: one double-word too many, and the most there may be. -/
theorem test_decode_payload_bound :
    errorOf (decode pr ([6, 0, 0, 0, 0, 0, 0] ++ List.replicate 248 0)) = some .spanTooLarge ∧
      errorOf (decode pr ([6, 0, 0, 0, 0, 0, 0] ++ List.replicate 240 0)) = none := by
  decide +kernel

/-- E14, N1, N2, N3, N4, N5, N6, N7, N8, N9 and N10. -/
theorem test_encode_refusals :
    encodeErrorOf (encodePacket pr { ftype := 2, transaction := 4 }) = some .badSpan ∧
      encodeErrorOf (encodePacket pr { ftype := 8, transaction := 1, rdwrBytes := 2, dwOffset := 1, payload := [0] }) =
        some .badSpan ∧
      encodeErrorOf (encodePacket pr { ftype := 8, transaction := 1, rdwrBytes := 8 }) = some .payloadLen ∧
      encodeErrorOf (encodePacket pr { ftype := 8, rdwrBytes := 8, payload := [1] }) = some .payloadLen ∧
      encodeErrorOf (encodePacket pr { ftype := 8, transaction := 4 }) = some .badKind ∧
      encodeErrorOf (encodePacket pr { ftype := 7 }) = some .badKind ∧
      encodeErrorOf (encodePacket pr { ftype := 10, destId := 0x100 }) = some .fieldRange ∧
      encodeErrorOf (encodePacket pr { ftype := 2, transaction := 4, rdwrBytes := 256 }) = some .badSpan ∧
      encodeErrorOf (encodePacket pr { ftype := 10, tt := 3 }) = some .badKind ∧
      encodeErrorOf (encodePacket pr { ftype := 6, payload := List.replicate 31 0 }) = some .payloadLen ∧
      encodeErrorOf (encodePacket pr { ftype := 8, rdwrBytes := 8, configOffset := 0x200000 }) = some .fieldRange :=
  ⟨rfl, rfl, rfl, rfl, rfl, rfl, rfl, rfl, rfl, rfl, rfl⟩

/-- The opcode table's `match` numbers, read as headers. -/
theorem test_table_words :
    (decodeTableWord 72 0x020000400000000000).map Instr.kind = some .nread ∧
      (decodeTableWord 72 0x050000400000000000).map Instr.kind = some .nwrite ∧
      (decodeTableWord 72 0x050000500000000000).map Instr.kind = some .nwriteR ∧
      (decodeTableWord 56 0x06000000000000).map Instr.kind = some .swrite ∧
      (decodeTableWord 72 0x080000000000000000).map Instr.kind = some .maintRdReq ∧
      (decodeTableWord 72 0x080000100000000000).map Instr.kind = some .maintWrReq ∧
      (decodeTableWord 72 0x080000200000000000).map Instr.kind = some .maintRdResp ∧
      (decodeTableWord 72 0x080000300000000000).map Instr.kind = some .maintWrResp ∧
      (decodeTableWord 56 0x0A000000000000).map Instr.kind = some .doorbell ∧
      (decodeTableWord 40 0x0B00000000).map Instr.kind = some .message ∧
      (decodeTableWord 40 0x0D00000000).map Instr.kind = some .respNodata ∧
      (decodeTableWord 40 0x0D00001000).map Instr.kind = some .respMsg ∧
      (decodeTableWord 40 0x0D00008000).map Instr.kind = some .respData := by
  decide +kernel

/-! ### Steps -/

/-- The table of program P2: `map[0x20]` = 0x05000003. -/
def mapP2 : Memory := [(0x80, 3), (0x83, 5)]

/-- P1, event 1: MAINT_WR_REQ stores entry 5 and is answered on its own port. -/
theorem test_step_maintWrReq :
    result (step (one [] (.ingress 1 [8, 0, 9, 0x18, 1, 0, 0, 0, 0x14, 4, 0, 0, 1, 0, 0, 0, 0]))) =
      some ([.deliver 1 [8, 9, 0, 0x30, 1, 0xFF, 0, 0, 0], .ended .responded], [(0x14, 1), (0x17, 4)], 0, false) := rfl

/-- P3, event 1: a write across the end of the table keeps its first two words and is answered with ERROR. -/
theorem test_step_maintWrReq_partial :
    result (step (one [(0x3F8, 1), (0x3FB, 1), (0x3FC, 1), (0x3FF, 2)] (.ingress 3 [8, 0, 9, 0x1B, 0x21, 0, 0, 3, 0xFC, 8, 0,
        0, 5, 4, 0, 0, 3, 0xFF, 0xFF, 0xFF, 0xFF, 0xFF, 0xFF, 0xFF, 0xFF]))) =
      some ([.deliver 3 [8, 9, 0, 0x37, 0x21, 0xFF, 0, 0, 0], .ended .responded],
        [(0x3F8, 3), (0x3FB, 4), (0x3FC, 5), (0x3FF, 8)], 0, false) := rfl

/-- P1, event 2: MAINT_RD_REQ reads entries 4 and 5; the word at the lower address travels last (rule R53). -/
theorem test_step_maintRdReq :
    result (step (one [(0x14, 1), (0x17, 4)] (.ingress 1 [8, 0, 9, 0xB, 2, 0, 0, 0, 0x10]))) =
      some ([.deliver 1 [8, 9, 0, 0x20, 2, 0xFF, 0, 0, 0, 4, 0, 0, 1, 0, 0, 0, 0], .ended .responded],
        [(0x14, 1), (0x17, 4)], 0, false) := rfl

/-- P5, event 3: a read outside the table is answered with ERROR and no payload. -/
theorem test_step_maintRdReq_error :
    result (step (one [] (.ingress 0 [8, 0, 9, 8, 0x33, 0, 0, 4, 0]))) =
      some ([.deliver 0 [8, 9, 0, 0x27, 0x33, 0xFF, 0, 0, 0], .ended .responded], [], 0, false) := rfl

/-- P2, event 2: MAINT_RD_RESP goes on with hop count 0xFE, to port 0 although it came from there. -/
theorem test_step_maintRdResp :
    result (step (one mapP2 (.ingress 0 [8, 0x20, 0x33, 0x20, 0x10, 0xFF, 0, 0, 0, 0, 0, 0, 0, 0xDE, 0xAD, 0xBE, 0xEF]))) =
      some ([.deliver 0 [8, 0x20, 0x33, 0x20, 0x10, 0xFE, 0, 0, 0, 0, 0, 0, 0, 0xDE, 0xAD, 0xBE, 0xEF],
        .deliver 2 [8, 0x20, 0x33, 0x20, 0x10, 0xFE, 0, 0, 0, 0, 0, 0, 0, 0xDE, 0xAD, 0xBE, 0xEF], .ended .forwarded],
        mapP2, 0, false) := rfl

/-- P4, event 9: MAINT_RD_RESP with hop count 0 is dropped. -/
theorem test_step_maintRdResp_unhandled :
    result (step (one [(0xC, 3), (0xF, 3)]
        (.ingress 1 [8, 3, 9, 0x20, 0x79, 0, 0, 0, 0, 0, 0, 0, 0, 0, 0, 0, 1]))) =
      some ([.ended .dropMaintUnhandled], [(0xC, 3), (0xF, 3)], 0, false) := rfl

/-- R200: MAINT_WR_RESP with hop count 1 goes on with hop count 0, its reserved bytes cleared and its excess byte gone. -/
theorem test_step_maintWrResp :
    result (step (one mapP2 (.ingress 3 [8, 0x20, 5, 0x37, 0x43, 1, 0xFF, 0xFF, 0xFF, 0xEE]))) =
      some ([.deliver 0 [8, 0x20, 5, 0x37, 0x43, 0, 0, 0, 0], .deliver 2 [8, 0x20, 5, 0x37, 0x43, 0, 0, 0, 0],
        .ended .forwarded], mapP2, 0, false) := rfl

/-- P2, event 3: a DOORBELL with 16-bit IDs fans out unchanged. -/
theorem test_step_doorbell :
    result (step (one mapP2 (.ingress 2 [0x9A, 0, 0x20, 0, 9, 0, 0x11, 0x12, 0x34]))) =
      some ([.deliver 0 [0x9A, 0, 0x20, 0, 9, 0, 0x11, 0x12, 0x34], .deliver 2 [0x9A, 0, 0x20, 0, 9, 0, 0x11, 0x12, 0x34],
        .ended .forwarded], mapP2, 0, false) := rfl

/-- P2, event 4: a destination at or above `N_DEST` is unmapped. -/
theorem test_step_dest_out_of_table :
    result (step (one mapP2 (.ingress 2 [0x9A, 1, 0x20, 0, 9, 0, 0x11, 0x12, 0x34]))) =
      some ([.ended .dropUnmapped], mapP2, 0, false) := rfl

/-- P1, event 3: an NWRITE reaches port 2 with its 17 bytes as they were. -/
theorem test_step_nwrite :
    result (step (one [(0x14, 1), (0x17, 4)] (.ingress 0
        [0x45, 5, 9, 0x4B, 3, 0, 0, 0, 0x80, 1, 0x23, 0x45, 0x67, 0x89, 0xAB, 0xCD, 0xEF]))) =
      some ([.deliver 2 [0x45, 5, 9, 0x4B, 3, 0, 0, 0, 0x80, 1, 0x23, 0x45, 0x67, 0x89, 0xAB, 0xCD, 0xEF],
        .ended .forwarded], [(0x14, 1), (0x17, 4)], 0, false) := rfl

/-- R193: NREAD, NWRITE_R, SWRITE, MESSAGE, RESP_NODATA, RESP_MSG and RESP_DATA keep their reserved bits and excess bytes. -/
theorem test_step_other_kinds_forward :
    (∀ f ∈ ([[2, 0x20, 9, 0x48, 1, 0, 0, 0, 4, 0xEE], [5, 0x20, 9, 0x5B, 1, 0, 0, 0, 4, 1, 2, 3, 4, 5, 6, 7, 8, 9],
        [6, 0x20, 9, 0, 0, 0, 0xFF, 0xEE], [0xB, 0x20, 9, 1, 2, 3], [0xD, 0x20, 9, 0, 1, 2], [0xD, 0x20, 9, 0x10, 1, 2],
        [0xD, 0x20, 9, 0x80, 1, 1, 2, 3, 4, 5, 6, 7, 8, 9]] : List Frame),
      result (step (one mapP2 (.ingress 1 f))) = some ([.deliver 0 f, .deliver 2 f, .ended .forwarded], mapP2, 0, false)) := by
  decide

/-- P4, events 5 and 6: the body of a frame that is not maintenance is not looked at. -/
theorem test_step_blind_forward :
    result (step (one mapP2 (.ingress 2 [2, 0x20, 9, 4, 0xAB, 0, 0, 0, 0]))) =
        some ([.deliver 0 [2, 0x20, 9, 4, 0xAB, 0, 0, 0, 0], .deliver 2 [2, 0x20, 9, 4, 0xAB, 0, 0, 0, 0], .ended .forwarded],
          mapP2, 0, false) ∧
      result (step (one mapP2 (.ingress 2 [2, 0x20, 9]))) =
        some ([.deliver 0 [2, 0x20, 9], .deliver 2 [2, 0x20, 9], .ended .forwarded], mapP2, 0, false) := ⟨rfl, rfl⟩

/-- P4, event 8: a bitmap of unimplemented ports only delivers nothing and still ends FORWARDED. -/
theorem test_step_unimplemented_ports :
    result (step (one [(4, 1), (7, 0xF0)] (.ingress 0 [0xA, 1, 9, 0, 0x78, 0, 0xFF]))) =
      some ([.ended .forwarded], [(4, 1), (7, 0xF0)], 0, false) := rfl

/-- P4, events 1 to 4: malformed frames are counted. -/
theorem test_step_malformed :
    result (step (one [] (.ingress 0 []))) = some ([.ended (.dropDecode .truncated)], [], 1, false) ∧
      result (step (one [] (.ingress 0 [0x37, 1, 2]))) = some ([.ended (.dropDecode .badTt)], [], 1, false) ∧
      result (step (one [] (.ingress 0 [8, 1, 9, 0x50, 0, 0, 0, 0, 0]))) =
        some ([.ended (.dropDecode .badTransaction)], [], 1, false) ∧
      result (step (one [] (.ingress 0 [8, 1, 9, 0x48, 0]))) = some ([.ended (.dropDecode .truncated)], [], 1, false) :=
  ⟨rfl, rfl, rfl, rfl⟩

/-- Section 9: the counter wraps. -/
theorem test_step_malformed_wraps :
    result (step { one [] (.ingress 0 []) with malformedCnt := 0xFFFFFFFF }) =
      some ([.ended (.dropDecode .truncated)], [], 0, false) := rfl

/-- P6: with `fatal` set a frame is ignored, the host port works, and reset clears the flag and the table. -/
theorem test_step_fatal :
    result (step { one [(0x14, 1), (0x17, 4)] (.ingress 0 [0xA, 5, 9, 0, 0x77, 0, 0xFF]) with fatal := true }) =
        some ([.ended .ignoredFatal], [(0x14, 1), (0x17, 4)], 0, true) ∧
      result (step { one [(0x14, 1), (0x17, 4)] (.hostRead 0x14) with fatal := true }) =
        some ([.hostReadDone (some 0x04000001)], [(0x14, 1), (0x17, 4)], 0, true) ∧
      result (step { one [(0x14, 1), (0x17, 4)] .reset with fatal := true }) = some ([], [], 0, false) := ⟨rfl, rfl, rfl⟩

/-- L1, L5 and L6: the host port. -/
theorem test_step_host :
    result (step (one [] (.hostWrite 0x14 0xFFFFFFFF 0xFFFFFFFF))) =
        some ([.hostWriteDone true], [(0x14, 7), (0x17, 0xFF)], 0, false) ∧
      result (step (one [] (.hostWrite 0x400 1 0xFFFFFFFF))) = some ([.hostWriteDone false], [], 0, false) ∧
      result (step (one [] (.hostRead 0x3FC))) = some ([.hostReadDone (some 0)], [], 0, false) ∧
      result (step (one [] (.hostRead 0x16))) = some ([.hostReadDone none], [], 0, false) ∧
      result (step (one [] .hostStatus)) = some ([.status 0 false], [], 0, false) := ⟨rfl, rfl, rfl, rfl, rfl⟩

/-! ### The translator over another target -/

/-- A target of two registers, at 0x100 and 0x104 (section 5 of the vectors). -/
def pair : Target (Word × Word) where
  read32 t a := (t, if a = 0x100 then some t.1 else if a = 0x104 then some t.2 else none)
  write32 t a v m :=
    if a = 0x100 then (((t.1 &&& ~~~m) ||| (v &&& m), t.2), true)
    else if a = 0x104 then ((t.1, (t.2 &&& ~~~m) ||| (v &&& m)), true)
    else (t, false)

/-- What a translator operation did: the registers, the calls, the status and the payload. -/
def accessOf {σ : Type} : Except FatalReason (Access σ) → Option (σ × Nat × List DWord)
  | .ok acc => some (acc.target, acc.status, acc.payload)
  | .error _ => none

/-- T1, T4 and T5: reads of one and of two words. -/
theorem test_maintRead :
    accessOf (maintRead (recording pair) { configOffset := 0x20, rdwrBytes := 4 } ((0xDEADBEEF, 0x11223344), [])) =
        some (((0xDEADBEEF, 0x11223344), [.read 0x100]), 0, [0x00000000DEADBEEF]) ∧
      accessOf (maintRead (recording pair) { configOffset := 0x20, rdwrBytes := 3, dwOffset := 5 }
          ((0xDEADBEEF, 0x11223344), [])) =
        some (((0xDEADBEEF, 0x11223344), [.read 0x104]), 0, [0x1122330000000000]) ∧
      accessOf (maintRead (recording pair) { configOffset := 0x20, rdwrBytes := 6, dwOffset := 2 }
          ((0xDEADBEEF, 0x11223344), [])) =
        some (((0xDEADBEEF, 0x11223344), [.read 0x100, .read 0x104]), 0, [0x11223344DEAD0000]) := ⟨rfl, rfl, rfl⟩

/-- T8 and T9: partial-word writes. -/
theorem test_maintWrite :
    accessOf (maintWrite (recording pair)
          { configOffset := 0x20, rdwrBytes := 2, dwOffset := 1, payload := [0x1122334455667788] }
          ((0xFFFFFFFF, 0xFFFFFFFF), [])) =
        some (((0xFF6677FF, 0xFFFFFFFF), [.write 0x100 0x55667788 0x00FFFF00]), 0, []) ∧
      accessOf (maintWrite (recording pair)
          { configOffset := 0x20, rdwrBytes := 5, dwOffset := 3, payload := [0x1122334455667788] } ((0, 0), [])) =
        some (((0x55000000, 0x11223344), [.write 0x100 0x55667788 0xFF000000, .write 0x104 0x11223344 0xFFFFFFFF]), 0, []) :=
  ⟨rfl, rfl⟩

/-- Rule R176: a failing call ends the write, and the words before it stay written. -/
theorem test_maintWrite_partial :
    accessOf (maintWrite (recording pair) { configOffset := 0x20, rdwrBytes := 16, payload := [0x0000000200000001, 3] }
          ((0, 0), [])) =
      some (((1, 2), [.write 0x100 1 0xFFFFFFFF, .write 0x104 2 0xFFFFFFFF, .write 0x108 3 0xFFFFFFFF]), 7, []) := rfl

/-! ### Witnesses: values that meet the hypotheses of the statements, clause by clause -/

/-- A doorbell to destination 0x20 with 16-bit IDs, and its frame. -/
def bell : Instr := .doorbell ⟨2, .w16, 0x20, 9⟩ 0x11 0x1234
def bellFrame : Frame := [0x9A, 0, 0x20, 0, 9, 0, 0x11, 0x12, 0x34]

/-- A maintenance read request to destination 0x20 with hop count 3, and its frame. -/
def readOn : Instr := .maintRdReq (hd 0 0x20 9) 0x10 3 0x100 ⟨4, 0⟩
def readOnFrame : Frame := [8, 0x20, 9, 8, 0x10, 3, 0, 8, 0]

theorem witness_DecodeOfEncodeGivesTheInstructionBack :
    pr.Legal ∧ (Instr.nread (hd 3 0xFF 0xFF) 0xFF 0x1FFFFFFF 3 ⟨224, 0⟩).wf pr = true := by decide

theorem witness_ExactlyWellFormedInstructionsEncode :
    pr.Legal ∧ encode pr bell = .ok bellFrame ∧ encode pr (.nread (hd 0 0 0) 0 0 0 ⟨2, 1⟩) = .error .badSpan :=
  ⟨by decide, rfl, rfl⟩

theorem witness_DecodedInstructionsAreWellFormed : decode pr (bellFrame ++ [0xEE]) = .ok (bell, 9) := rfl

/-- A packet that is not its own canonical form. -/
theorem witness_EncodedPacketDecodesToItsCanon :
    encodePacket pr { ftype := 10, destId := 1, transaction := 3, hopCount := 7 } = .ok [0xA, 1, 0, 0, 0, 0, 0] := rfl

/-- X12, with reserved bits and excess bytes. -/
theorem witness_ReencodingClearsOnlyReservedBits :
    decodePacket pr [8, 5, 9, 8, 0x42, 0, 0, 0, 0x13, 0xFF, 0xFF] =
      .ok ({ ftype := 8, destId := 5, srcId := 9, srcTid := 0x42, configOffset := 2, rdwrBytes := 4 }, 9) := rfl

theorem witness_CanonIsANormalForm :
    decodePacket pr [0xA, 1, 2, 0xFF, 0x77, 0xBE, 0xEF] =
      .ok ({ ftype := 10, destId := 1, srcId := 2, srcTid := 0x77, info := 0xBEEF }, 7) := rfl

/-- Two frames that differ in the two reserved bits of MREQ and in their excess bytes. -/
theorem witness_ReservedBitsAndExcessBytesAreIgnored :
    decodePacket pr [8, 5, 9, 8, 0x42, 0, 0, 0, 0x10, 0xFF, 0xFF] =
        .ok ({ ftype := 8, destId := 5, srcId := 9, srcTid := 0x42, configOffset := 2, rdwrBytes := 4 }, 9) ∧
      kindOf 8 0 = some .maintRdReq ∧
      ∀ b < 8 * 9, reservedBit .maintRdReq (commonLen 0) b = false →
        bits [8, 5, 9, 8, 0x42, 0, 0, 0, 0x13, 0xEE, 0xEE] b 1 = bits [8, 5, 9, 8, 0x42, 0, 0, 0, 0x10, 0xFF, 0xFF] b 1 :=
  ⟨rfl, rfl, by decide +kernel⟩

/-- Each clause at a boundary: 257 and 256 bytes, `tt` 3, `ftype` 7, one ID byte short, the IDs just there. -/
theorem witness_HeaderDecodingFollowsTheBytes :
    pr.maxFrameBytes < (List.replicate 257 (0 : Byte)).length ∧ (List.replicate 256 (2 : Byte)).length ≤ pr.maxFrameBytes ∧
      (0x32 : Byte).toNat / 16 % 4 = 3 ∧ (7 : Byte).toNat % 16 ∉ [2, 5, 6, 8, 10, 11, 13] ∧
      ([0x12, 0, 1, 0] : Frame).length < 1 + 2 * 2 ^ ((0x12 : Byte).toNat / 16 % 4) ∧
      1 + 2 * 2 ^ ((0x12 : Byte).toNat / 16 % 4) ≤ ([0x12, 0, 1, 0, 2] : Frame).length := by decide +kernel

theorem witness_HeaderDecodingReadsOnlyTheCommonHeader :
    decodeHeader pr [2, 3, 9, 4] = .ok ({ ftype := 2, destId := 3, srcId := 9 }, 3) ∧
      ([2, 3, 9, 0xFF, 0xFF] : Frame).length ≤ pr.maxFrameBytes ∧ 3 ≤ ([2, 3, 9, 0xFF, 0xFF] : Frame).length ∧
      ([2, 3, 9, 0xFF, 0xFF] : Frame).take 3 = ([2, 3, 9, 4] : Frame).take 3 := ⟨rfl, by decide, by decide, rfl⟩

/-- The shortest frame, the longest one, and legal parameters. -/
theorem witness_FrameLengthBounds :
    pr.Legal ∧ decode pr [0xD, 0x34, 0x12, 0, 0xAB] = .ok (.respNodata (hd 0 0x34 0x12) 0 0xAB, 5) ∧
      encode pr bell = .ok bellFrame := ⟨by decide, rfl, rfl⟩

/-- (1, 7), (7, 1) and (8, 0); 16 at 0; then 0 at 0, 4 at 5, 8 at 1, 12 at 0 and 16 at 4, which have no mask. -/
theorem witness_MaskSelectsTheBytesOfTheSpan :
    (∀ p ∈ [((1 : Nat), (7 : Nat)), (7, 1), (8, 0)], 1 ≤ p.1 ∧ p.1 ≤ 8 ∧ p.2 + p.1 ≤ 8) ∧ (8 ≤ 16 ∧ 16 % 8 = 0) ∧
      ∀ p ∈ [((0 : Nat), (0 : Nat)), (4, 5), (8, 1), (12, 0), (16, 4)],
        ¬ (1 ≤ p.1 ∧ p.1 ≤ 7 ∧ p.2 + p.1 ≤ 8) ∧ ¬ (8 ≤ p.1 ∧ p.1 % 8 = 0 ∧ p.2 = 0) := by decide

/-- A 16-byte span over a target that fails from 0x108 on: both clauses' hypotheses. -/
theorem witness_AccessorCallsInOrderUpToTheFirstFail :
    rdwrDwMaskFromSpan 16 0 = .ok 0xFFFFFFFFFFFFFFFF ∧
      (∀ (u : Word × Word) a, (pair.read32 u a).2 = none ↔ (!(a == 0x100 || a == 0x104)) = true) ∧
      (∀ (u : Word × Word) a v w, (pair.write32 u a v w).2 = !(!(a == 0x100 || a == 0x104))) ∧
      ([1, 2] : List DWord).length = divCeil8 16 := by
  refine ⟨rfl, fun u a => ?_, fun u a v w => ?_, rfl⟩ <;> by_cases h1 : a = 0x100 <;> by_cases h2 : a = 0x104 <;>
    simp [pair, h1, h2]

theorem witness_IllegalRequestsAreFatalToTheTranslator :
    ([] : List DWord).length ≠ divCeil8 8 ∧ ([0] : List DWord).length = divCeil8 4 ∧
      rdwrDwMaskFromSpan 4 5 = .error .badSpan ∧ rdwrDwMaskFromSpan 12 0 = .error .badSpan := ⟨by decide, rfl, rfl, rfl⟩

/-- A misaligned address, the first addresses outside the table and the first and last inside it. -/
theorem witness_LocalReadRule :
    0x16 % 4 ≠ 0 ∧ ¬ State.reset.implemented 0x400 ∧ ¬ (State.resetWith { pr with mapBase := 8 }).implemented 4 ∧
      State.reset.implemented 0 ∧ State.reset.implemented 0x3FC := by decide

theorem witness_LocalWriteRule :
    (one mapP2 .hostStatus).mem.wf = true ∧ (0x16 % 4 ≠ 0 ∨ ¬ (one mapP2 .hostStatus).implemented 0x16) ∧
      ¬ (one mapP2 .hostStatus).implemented 0x400 ∧ (one mapP2 .hostStatus).implemented 0x3FC ∧ 0x3FC % 4 = 0 := by decide

theorem witness_LookupSeesTheLastWrite :
    (one mapP2 .hostStatus).mem.wf = true ∧ (one mapP2 .hostStatus).params.Legal ∧
      (one mapP2 .hostStatus).params.nrMask = 0xFF000007 ∧ 255 < (one mapP2 .hostStatus).params.nDest := by decide

theorem witness_HostEventsAnswerAndChangeNothingElse :
    (one mapP2 (.hostRead 0x80)).inbox = [.hostRead 0x80] ∧ (one mapP2 (.hostWrite 0x80 1 2)).inbox = [.hostWrite 0x80 1 2] ∧
      (one mapP2 .hostStatus).inbox = [.hostStatus] ∧ (one mapP2 .reset).inbox = [.reset] := by decide

theorem witness_ResetEventRestoresEveryPieceOfState :
    ({ one mapP2 .reset with malformedCnt := 7, fatal := true } : State).inbox = [.reset] := by decide

/-- A mapped destination, one above the table and one whose `valid` bit is 0. -/
theorem witness_NonMaintenanceKindsForwardTheOriginalBytes :
    (one mapP2 (.ingress 2 bellFrame)).inbox = [.ingress 2 bellFrame] ∧ (one mapP2 (.ingress 2 bellFrame)).fatal = false ∧
      bell.kind ∈ [Kind.nread, .nwrite, .nwriteR, .swrite, .doorbell, .message, .respNodata, .respMsg, .respData] ∧
      ¬ (one mapP2 (.ingress 2 bellFrame)).unmapped 0x20 ∧ (one mapP2 (.ingress 2 bellFrame)).unmapped 0x100 ∧
      (one mapP2 (.ingress 2 bellFrame)).unmapped 0xFF := by decide

theorem witness_MaintenanceKindsForwardWithDecrement :
    (one mapP2 (.ingress 2 readOnFrame)).params.Legal ∧ readOn.wf pr = true ∧ readOn.hop = some 3 ∧ (3 : BitVec 8) ≠ 0 ∧
      (Instr.maintWrResp (hd 0 0xFF 9) 7 1 1).wf pr = true ∧ (Instr.maintWrResp (hd 0 0xFF 9) 7 1 1).hop = some 1 ∧
      ¬ (one mapP2 (.ingress 2 readOnFrame)).unmapped 0x20 ∧ (one mapP2 (.ingress 2 readOnFrame)).unmapped 0xFF := by decide

/-- The last two entries, and the span that runs out of the table at its third word. -/
theorem witness_TerminalReadIsAnswered :
    (Instr.maintRdReq (hd 0 0 9) 2 0 0x7F ⟨8, 0⟩).wf pr = true ∧ rdwrDwMaskFromSpan 8 0 = .ok 0xFFFFFFFFFFFFFFFF ∧
      (∀ j < 2 * divCeil8 8, laneMask 0xFFFFFFFFFFFFFFFF j ≠ 0 → State.reset.implemented (8 * 0x7F + 4 * j)) ∧
      (Instr.maintRdReq (hd 0 0 9) 2 0 0x7F ⟨16, 0⟩).wf pr = true ∧ rdwrDwMaskFromSpan 16 0 = .ok 0xFFFFFFFFFFFFFFFF ∧
      2 < 2 * divCeil8 16 ∧ laneMask 0xFFFFFFFFFFFFFFFF 2 ≠ 0 ∧ ¬ State.reset.implemented (8 * 0x7F + 4 * 2) ∧
      State.reset.params.Legal ∧ State.reset.fatal = false := ⟨by decide, rfl, by decide, by decide, rfl, by decide⟩

/-- A frame waits on port 1 and the table is not empty. -/
def writeAt : State := one mapP2 (.ingress 1 readOnFrame)

/-- The same two spans on one state; words 0 and 1 are attempted and inside, word 2 is attempted and outside, word 3 is not
attempted. -/
theorem witness_TerminalWriteIsAnswered :
    writeAt.inbox = [.ingress 1 readOnFrame] ∧ writeAt.fatal = false ∧ writeAt.params.Legal ∧ writeAt.mem.wf = true ∧
      (Instr.maintWrReq (hd 0 0 9) 2 0 0x7F ⟨8, 0⟩ [1]).wf writeAt.params = true ∧
      rdwrDwMaskFromSpan 8 0 = .ok 0xFFFFFFFFFFFFFFFF ∧
      (∀ j < 2 * divCeil8 8, laneMask 0xFFFFFFFFFFFFFFFF j ≠ 0 → writeAt.implemented (8 * 0x7F + 4 * j)) ∧
      (Instr.maintWrReq (hd 0 0 9) 2 0 0x7F ⟨16, 0⟩ [1, 2]).wf writeAt.params = true ∧
      rdwrDwMaskFromSpan 16 0 = .ok 0xFFFFFFFFFFFFFFFF ∧ 255 < writeAt.params.nDest ∧
      writeAt.writeAttempted 0xFFFFFFFFFFFFFFFF (8 * 0x7F) 2 1 ∧ 8 * 0x7F + 4 * 1 = writeAt.params.mapBase + 4 * 255 ∧
      writeAt.writeAttempted 0xFFFFFFFFFFFFFFFF (8 * 0x7F) 2 2 ∧ ¬ writeAt.implemented (8 * 0x7F + 4 * 2) ∧
      ¬ writeAt.writeAttempted 0xFFFFFFFFFFFFFFFF (8 * 0x7F) 2 3 := by
  unfold State.writeAttempted
  exact ⟨rfl, rfl, by decide, by decide, by decide, rfl, by decide, by decide, rfl, by decide⟩

theorem witness_TerminalResponsesAreDropped :
    (one [] (.ingress 1 readOnFrame)).inbox = [.ingress 1 readOnFrame] ∧ (one [] (.ingress 1 readOnFrame)).fatal = false := by
  decide

theorem witness_IllegalTerminalRequestSetsFatal :
    rdwrDwMaskFromSpan 4 5 = .error .badSpan ∧ ([] : List DWord).length ≠ divCeil8 8 ∧
      (one [] (.ingress 1 readOnFrame)).fatal = false := ⟨rfl, by decide, rfl⟩

/-- Entry 255, in the high word of its double-word, and entry 0, in the low one. -/
theorem witness_FourByteWriteReachesItsEntry :
    (one mapP2 .hostStatus).mem.wf = true ∧ (one mapP2 .hostStatus).params.mapBase = 0 ∧
      255 < (one mapP2 .hostStatus).params.nDest ∧ ((0xDEADBEEF00000000 : DWord) >>> (32 * (255 % 2))).setWidth 32 = 0xDEADBEEF#32 ∧
      ((0x00000000DEADBEEF : DWord) >>> (32 * (0 % 2))).setWidth 32 = 0xDEADBEEF#32 := by decide

/-- For StepRunsTheDecodedInstruction and StepIsTheIngressAlgorithm. -/
theorem witness_StepRunsTheDecodedInstruction :
    (one mapP2 (.ingress 3 readOnFrame)).inbox = [.ingress 3 readOnFrame] ∧
      3 < (one mapP2 (.ingress 3 readOnFrame)).params.nPorts ∧ decode pr readOnFrame = .ok (readOn, 9) :=
  ⟨rfl, by decide, rfl⟩

theorem witness_StepIsTheIngressAlgorithm :
    (one mapP2 (.ingress 3 [7])).inbox = [.ingress 3 [7]] ∧ 3 < (one mapP2 (.ingress 3 [7])).params.nPorts := by decide

/-- A header that does not decode, and a maintenance body that does not. -/
theorem witness_MalformedFramesAreCountedAndDropped :
    decodeHeader pr [0x37, 1, 2] = .error .badTt ∧
      decodeHeader pr [8, 1, 9, 0x48, 0] = .ok ({ ftype := 8, destId := 1, srcId := 9 }, 3) ∧
      decodeBody pr { ftype := 8, destId := 1, srcId := 9 } [8, 1, 9, 0x48, 0] 3 = .error .truncated ∧
      (one [] (.ingress 0 [0x37, 1, 2])).fatal = false := ⟨rfl, rfl, rfl, rfl⟩

theorem witness_NonMaintenanceFramesAreForwardedBlind :
    decodeHeader pr [2, 0x20, 9] = .ok ({ ftype := 2, destId := 0x20, srcId := 9 }, 3) ∧ 2 ≠ 8 ∧
      ¬ (one mapP2 (.ingress 2 [2, 0x20, 9])).unmapped 0x20 ∧ (one mapP2 (.ingress 2 [2, 0x21, 9])).unmapped 0x21 :=
  ⟨rfl, by decide⟩

/-- Port 3, the highest, a frame with an excess byte, and the destination mapped and unmapped. -/
theorem witness_ForwardedMaintenanceFrameBitByBit :
    decodePacket pr (readOnFrame ++ [0xEE]) =
        .ok ({ ftype := 8, destId := 0x20, srcId := 9, srcTid := 0x10, hopCount := 3, configOffset := 0x100, rdwrBytes := 4 }, 9) ∧
      kindOf 8 0 = some .maintRdReq ∧
      ∀ m ∈ [mapP2, []], (one m (.ingress 3 (readOnFrame ++ [0xEE]))).inbox = [.ingress 3 (readOnFrame ++ [0xEE])] ∧
        (one m (.ingress 3 (readOnFrame ++ [0xEE]))).params = pr ∧ 3 < pr.nPorts ∧
        (one m (.ingress 3 (readOnFrame ++ [0xEE]))).fatal = false ∧
        ((one m (.ingress 3 (readOnFrame ++ [0xEE]))).unmapped 0x20 ↔ m = []) := ⟨rfl, rfl, by decide⟩

/-- A frame, decodable or not, and a host event, on a state with `fatal` set. -/
theorem witness_FatalFlagIgnoresFramesUntilReset :
    ({ one mapP2 (.ingress 0 []) with fatal := true } : State).fatal = true ∧
      (result (step { one mapP2 (.ingress 0 []) with fatal := true })).isSome = true ∧
      ({ one mapP2 (.hostRead 0) with fatal := true } : State).inbox.head? ≠ some .reset ∧
      (result (step { one mapP2 (.hostRead 0) with fatal := true })).isSome = true := by decide

theorem witness_FatalIsUnreachable :
    (one mapP2 (.ingress 2 readOnFrame)).params.Legal ∧ (one mapP2 (.ingress 2 readOnFrame)).fatal = false ∧
      (result (step (one mapP2 (.ingress 2 readOnFrame)))).isSome = true := by decide

theorem witness_InvariantIsKeptByEveryStep :
    (one mapP2 (.hostWrite 0x14 0xFFFFFFFF 0xFFFFFFFF)).Inv ∧
      (result (step (one mapP2 (.hostWrite 0x14 0xFFFFFFFF 0xFFFFFFFF)))).isSome = true :=
  ⟨⟨rfl, by unfold State.memInTable; decide, by unfold State.reservedClear; decide +kernel⟩, rfl⟩

theorem witness_EveryIngressEventEndsInOneDisposition :
    (one mapP2 (.ingress 3 bellFrame)).params.Legal ∧ 3 < (one mapP2 (.ingress 3 bellFrame)).params.nPorts := by decide

/-- A host write, a reset and a terminal write request, each changing the table. -/
theorem witness_OnlyWritesAndResetChangeTheTable :
    (∃ t, step (one mapP2 (.hostWrite 0x14 1 1)) = .next t ∧ t.mem ≠ mapP2) ∧
      (∃ t, step (one mapP2 .reset) = .next t ∧ t.mem ≠ mapP2) ∧
      ∃ t, step (one mapP2 (.ingress 1 [8, 0, 9, 0x18, 1, 0, 0, 0, 0x14, 4, 0, 0, 1, 0, 0, 0, 0])) = .next t ∧ t.mem ≠ mapP2 :=
  ⟨⟨_, rfl, by decide⟩, ⟨_, rfl, by decide⟩, ⟨_, rfl, by decide⟩⟩

/-- A malformed frame at the counter's last value, and a frame that is forwarded. -/
theorem witness_MalformedCountRule :
    (∃ t, step { one mapP2 (.ingress 0 []) with malformedCnt := 0xFFFFFFFF } = .next t ∧
        t.outputs = [.ended (.dropDecode .truncated)]) ∧
      ∃ t, step (one mapP2 (.ingress 0 bellFrame)) = .next t ∧ ∀ r, t.outputs ≠ [.ended (.dropDecode r)] :=
  ⟨⟨_, rfl, rfl⟩, ⟨_, rfl, fun r => by cases r <;> decide⟩⟩

/-- A frame for each of the four clauses. -/
theorem witness_StraightAfterReset :
    pr.Legal ∧ 3 < pr.nPorts ∧ decodeHeader pr [2, 3, 9] = .ok ({ ftype := 2, destId := 3, srcId := 9 }, 3) ∧
      decodePacket pr readOnFrame =
        .ok ({ ftype := 8, destId := 0x20, srcId := 9, srcTid := 0x10, hopCount := 3, configOffset := 0x100, rdwrBytes := 4 }, 9) ∧
      decodePacket pr [8, 5, 9, 8, 0x42, 0, 0, 0, 0x10] =
        .ok ({ ftype := 8, destId := 5, srcId := 9, srcTid := 0x42, configOffset := 2, rdwrBytes := 4 }, 9) ∧
      decodeHeader pr [0x37, 1, 2] = .error .badTt := ⟨by decide, by decide, rfl, rfl, rfl, rfl⟩

/-- The entry of program P2 with mapping type 3 in place of 1. -/
theorem witness_MappingTypeHasNoEffectOnForwarding :
    (one mapP2 (.ingress 2 bellFrame)).mem.wf = true ∧
      (∀ k, k ≠ 1 → k ≠ 2 →
        (0x05000007 : Word).getLsbD k = ((one mapP2 (.ingress 2 bellFrame)).entry 0x20).getLsbD k) ∧
      2 < (one mapP2 (.ingress 2 bellFrame)).params.nPorts ∧
      decodeHeader pr bellFrame = .ok ({ prio := 2, tt := 1, ftype := 10, destId := 0x20, srcId := 9 }, 5) ∧ 10 ≠ 8 ∧
      decodeBody pr { ftype := 8, destId := 0x20, srcId := 9 } readOnFrame 3 =
        .ok ({ ftype := 8, destId := 0x20, srcId := 9, srcTid := 0x10, hopCount := 3, configOffset := 0x100, rdwrBytes := 4 }, 9) := by
  refine ⟨rfl, fun k h1 h2 => ?_, by decide, rfl, by decide, rfl⟩
  by_cases hk : k < 32
  · revert h1 h2
    revert hk
    revert k
    decide
  · rw [BitVec.getLsbD_of_ge _ _ (by omega), BitVec.getLsbD_of_ge _ _ (by omega)]

/-- No event, a port that is not wired, and a host event. -/
theorem witness_IdleUnwiredAndStrayCases :
    State.reset.inbox = [] ∧ (one [] (.ingress 4 [])).params.nPorts ≤ 4 ∧
      ∀ port f rest, (one [] .hostStatus).inbox ≠ .ingress port f :: rest := ⟨rfl, by decide, fun _ _ _ h => by cases h⟩

/-- Memory and invariant at reset (rule R281). -/
theorem test_reset_memory_wf : State.reset.mem.wf = true := rfl

end Sys2Proof.Tests
end

section
/-! SUPPORT. What a packet that decoded looks like: its kind, its common header, its span and its payload, and from these
that the instruction it stands for is well-formed (rules R31, R121, R122). -/

namespace Sys2Proof

/-! ### The walk over a layout -/

/-- The walk over a logical header leaves the common header alone (rule R121). -/
theorem readFields_frame (f : Frame) (c : Nat) (fields : List LayoutField) (r : RawPacket) :
    (readFields f c fields r).packet.header = r.packet.header ∧
      (readFields f c fields r).packet.ftype = r.packet.ftype := by
  induction fields generalizing r with
  | nil => exact ⟨rfl, rfl⟩
  | cons lf fields ih =>
    obtain ⟨hh, hft⟩ := ih (storeField r lf.field (bits f (8 * c + lf.offset) lf.width))
    rw [readFields, List.foldl_cons, ← readFields, hh, hft]
    cases lf.field <;> exact ⟨rfl, rfl⟩

/-- A layout with a size field reads a 4-bit `size` and a 1-bit `wdptr` (rules R88, R90). -/
theorem readFields_sizeCode_lt (f : Frame) (c : Nat) {l : Layout} (hl : l.hasSize = true) (r : RawPacket) :
    (readFields f c l.fields r).size < 16 ∧ (readFields f c l.fields r).wdptr < 2 := by
  cases l with
  | req | mreq => exact ⟨bits_lt f _ 4, bits_lt f _ 1⟩
  | _ => cases hl

/-- The transaction is the first field of every kind that has one (rules R88 to R95). -/
theorem readFields_transaction (f : Frame) (c : Nat) (k : Kind) (r : RawPacket)
    (hk : k.ftype ≠ 6 ∧ k.ftype ≠ 10 ∧ k.ftype ≠ 11) :
    (readFields f c k.layout.fields r).packet.transaction = bits f (8 * c) 4 := by
  cases k with
  | swrite | doorbell | message => simp [Kind.ftype] at hk
  | _ => rfl

/-- The kinds of format types 6, 10 and 11 are looked up by the format type alone (rule R127). -/
theorem kindOf_any_transaction {ft : Nat} (h : ft = 6 ∨ ft = 10 ∨ ft = 11) (tr tr' : Nat) : kindOf ft tr = kindOf ft tr' := by
  rcases h with rfl | rfl | rfl <;> rfl

theorem withSpan_frame (l : Layout) (r : RawPacket) :
    (withSpan l r).header = r.packet.header ∧ (withSpan l r).ftype = r.packet.ftype ∧
      (withSpan l r).transaction = r.packet.transaction := by
  unfold withSpan
  split <;> exact ⟨rfl, rfl, rfl⟩

/-- When a span is well-formed (rules R97, R98, R101). -/
theorem Span.wf_iff {pr : Params} {sp : Span} :
    sp.wf pr = true ↔ (∃ code, sizeEncode sp = some code) ∧ divCeil8 sp.rdwrBytes ≤ pr.maxPayloadDw := by
  simp only [Span.wf, Bool.and_eq_true, decide_eq_true_eq, Option.isSome_iff_exists]

/-- A span read from the wire has a size code (rules R97, R128). -/
theorem sizeEncode_withSpan {l : Layout} (hl : l.hasSize = true) {r : RawPacket} (hs : r.size < 16) (hw : r.wdptr < 2) :
    sizeEncode (withSpan l r).span = some (r.size, r.wdptr) := by
  simp only [withSpan, hl, if_true, Packet.span]
  exact sizeEncode_sizeDecode hs hw

/-! ### The payload -/

/-- The encoder's payload test, rule by rule (rules R99, R123). -/
theorem payloadFits_noPayload {pr : Params} {P : Packet} : payloadFits pr .noPayload P = true ↔ P.payloadLen = 0 := by
  simp only [payloadFits, Bool.and_eq_true, decide_eq_true_eq]
  omega

theorem payloadFits_span {pr : Params} {P : Packet} :
    payloadFits pr .span P = true ↔ P.payloadLen = divCeil8 P.rdwrBytes ∧ P.payloadLen ≤ pr.maxPayloadDw := by
  simp [payloadFits]

theorem payloadFits_len {pr : Params} {P : Packet} :
    payloadFits pr .len P = true ↔ P.payloadLen ≤ pr.maxPayloadDw := by
  simp [payloadFits]

@[simp] theorem length_readPayload (f : Frame) (q cnt : Nat) : (readPayload f q cnt).length = cnt := by simp [readPayload]

/-- The payload part leaves the common header and the transaction alone (rule R121). -/
theorem decodePayload_frame {pr : Params} {rule : PayloadRule} {P Q : Packet} {f : Frame} {q n : Nat}
    (h : decodePayload pr rule P f q = .ok (Q, n)) :
    Q.header = P.header ∧ Q.ftype = P.ftype ∧ Q.transaction = P.transaction ∧ (rule ≠ .len → Q.span = P.span) := by
  rcases decodePayload_cases pr rule P f q with ⟨-, e⟩ | ⟨-, -, e⟩ | ⟨-, -, e⟩ | ⟨-, -, e⟩ | ⟨rfl, -, e⟩ <;>
    rw [e] at h <;> cases h
  · exact ⟨rfl, rfl, rfl, fun _ => rfl⟩
  · exact ⟨rfl, rfl, rfl, fun _ => rfl⟩
  · exact ⟨rfl, rfl, rfl, fun hr => absurd rfl hr⟩

/-- A payload that is read lies in the frame (rule R121). -/
theorem decodePayload_length_le {pr : Params} {rule : PayloadRule} {P Q : Packet} {f : Frame} {q n : Nat}
    (h : decodePayload pr rule P f q = .ok (Q, n)) (hq : q ≤ f.length) : n ≤ f.length := by
  rcases decodePayload_cases pr rule P f q with ⟨-, e⟩ | ⟨-, -, e⟩ | ⟨-, hl, e⟩ | ⟨-, -, e⟩ | ⟨-, -, e⟩ <;>
    rw [e] at h <;> cases h <;> omega

/-- A payload that is read passes the encoder's payload test, if its span does (rules R99, R123). -/
theorem decodePayload_fits {pr : Params} {rule : PayloadRule} {P Q : Packet} {f : Frame} {q n : Nat}
    (h : decodePayload pr rule P f q = .ok (Q, n)) (hs : rule = .span → divCeil8 P.rdwrBytes ≤ pr.maxPayloadDw) :
    payloadFits pr rule Q = true := by
  rcases decodePayload_cases pr rule P f q with ⟨rfl, e⟩ | ⟨-, -, e⟩ | ⟨rfl, -, e⟩ | ⟨-, -, e⟩ | ⟨rfl, hl, e⟩ <;>
    rw [e] at h <;> cases h
  · exact payloadFits_noPayload.2 rfl
  · exact payloadFits_span.2 ⟨length_readPayload .., (length_readPayload ..).trans_le (hs rfl)⟩
  · exact payloadFits_len.2 ((length_readPayload ..).trans_le hl)

/-! ### The decoded packet -/

theorem hasSize_of_payloadRule_span {k : Kind} (h : k.payloadRule = .span) : k.layout.hasSize = true := by
  cases k with
  | nwrite | nwriteR | maintWrReq => rfl
  | _ => cases h

theorem payloadRule_ne_len_of_hasSize {k : Kind} (h : k.layout.hasSize = true) : k.payloadRule ≠ .len := by
  cases k with
  | nread | nwrite | nwriteR | maintRdReq | maintWrReq => decide
  | _ => cases h

/-- What `decodeKind` has done when it succeeds (rule R121). -/
theorem decodeKind_ok {pr : Params} {k : Kind} {H P : Packet} {f : Frame} {c n : Nat}
    (h : decodeKind pr k H f c = .ok (P, n)) :
    ∃ Q, Q = withSpan k.layout (readFields f c k.layout.fields { packet := H }) ∧
      (k.layout.hasSize = true → divCeil8 Q.rdwrBytes ≤ pr.maxPayloadDw) ∧
      decodePayload pr k.payloadRule Q f (c + k.layout.len) = .ok (P, n) := by
  unfold decodeKind at h
  simp only at h
  split at h <;> rename_i hs
  · cases h
  · exact ⟨_, rfl, fun hl => Nat.not_lt.1 fun hlt => hs ⟨hl, hlt⟩, h⟩

/-- The body of a frame leaves the common header as it was (rule R121). -/
theorem decodeKind_frame {pr : Params} {k : Kind} {H P : Packet} {f : Frame} {c n : Nat}
    (h : decodeKind pr k H f c = .ok (P, n)) : P.header = H.header ∧ P.ftype = H.ftype := by
  obtain ⟨Q, rfl, -, hp⟩ := decodeKind_ok h
  obtain ⟨hh, hft, -, -⟩ := decodePayload_frame hp
  obtain ⟨hh', hft', -⟩ := withSpan_frame k.layout (readFields f c k.layout.fields { packet := H })
  obtain ⟨hh'', hft''⟩ := readFields_frame f c k.layout.fields { packet := H }
  exact ⟨hh.trans (hh'.trans hh''), hft.trans (hft'.trans hft'')⟩

/-- The decoded packet has the kind its body was read as (rule R127). -/
theorem kindOf_decodeKind {pr : Params} {k : Kind} {H P : Packet} {f : Frame} {c n : Nat}
    (hk : kindOf H.ftype (bits f (8 * c) 4) = some k) (h : decodeKind pr k H f c = .ok (P, n)) :
    kindOf P.ftype P.transaction = some k := by
  obtain ⟨-, hft⟩ := decodeKind_frame h
  rw [hft]
  by_cases hany : H.ftype = 6 ∨ H.ftype = 10 ∨ H.ftype = 11
  · rw [kindOf_any_transaction hany _ (bits f (8 * c) 4), hk]
  · obtain ⟨Q, rfl, -, hp⟩ := decodeKind_ok h
    obtain ⟨-, -, htr, -⟩ := decodePayload_frame hp
    obtain ⟨-, -, htr'⟩ := withSpan_frame k.layout (readFields f c k.layout.fields { packet := H })
    rw [htr, htr', readFields_transaction f c k _ (by rw [ftype_of_kindOf hk]; simpa using hany), hk]

/-- The decoded packet's span is well-formed, where the kind has one (rules R97, R101). -/
theorem decodeKind_span_wf {pr : Params} {k : Kind} {H P : Packet} {f : Frame} {c n : Nat}
    (h : decodeKind pr k H f c = .ok (P, n)) (hl : k.layout.hasSize = true) : P.span.wf pr = true := by
  obtain ⟨Q, rfl, hs, hp⟩ := decodeKind_ok h
  obtain ⟨-, -, -, hspan⟩ := decodePayload_frame hp
  obtain ⟨hsz, hw⟩ := readFields_sizeCode_lt f c hl { packet := H }
  have hcode := sizeEncode_withSpan hl hsz hw
  rw [hspan (payloadRule_ne_len_of_hasSize hl)]
  exact Span.wf_iff.2 ⟨⟨_, hcode⟩, hs hl⟩

/-- The decoded packet passes the encoder's payload test (rules R99, R121). -/
theorem decodeKind_payloadFits {pr : Params} {k : Kind} {H P : Packet} {f : Frame} {c n : Nat}
    (h : decodeKind pr k H f c = .ok (P, n)) : payloadFits pr k.payloadRule P = true := by
  obtain ⟨Q, -, hs, hp⟩ := decodeKind_ok h
  exact decodePayload_fits hp fun hr => hs (hasSize_of_payloadRule_span hr)

/-! ### The instruction -/

/-- The common header of a frame that decodes fits its width class (rules R83, R84). -/
theorem decodeHeader_header_wf {pr : Params} {f : Frame} {H : Packet} {c : Nat}
    (h : decodeHeader pr f = .ok (H, c)) : H.header.wf = true := by
  obtain ⟨-, -, htt, -, -, -, rfl⟩ := decodeHeader_ok h
  have hof : (IdWidth.ofTt (bits f 2 2)).tt = bits f 2 2 := by interval_cases bits f 2 2 <;> rfl
  simp only [Header.wf, Packet.header, hof, BitVec.toNat_ofNat, Bool.and_eq_true, decide_eq_true_eq]
  exact ⟨(Nat.mod_le _ _).trans_lt (bits_lt ..), (Nat.mod_le _ _).trans_lt (bits_lt ..)⟩

/-- A packet whose header, span and payload are well-formed stands for a well-formed instruction. -/
theorem Packet.toInstr_wf {pr : Params} {P : Packet} {k : Kind} (hh : P.header.wf = true)
    (hs : k.layout.hasSize = true → P.span.wf pr = true) (hp : payloadFits pr k.payloadRule P = true) :
    (P.toInstr k).wf pr = true := by
  cases k with
  | nread | maintRdReq => exact Bool.and_eq_true_iff.2 ⟨hh, hs rfl⟩
  | nwrite | nwriteR | maintWrReq =>
    obtain ⟨hlen, -⟩ := payloadFits_span.1 hp
    exact Bool.and_eq_true_iff.2 ⟨hh, Bool.and_eq_true_iff.2 ⟨hs rfl, decide_eq_true hlen⟩⟩
  | swrite | maintRdResp | message | respData =>
    exact Bool.and_eq_true_iff.2 ⟨hh, decide_eq_true (payloadFits_len.1 hp)⟩
  | maintWrResp | doorbell | respNodata | respMsg => exact hh

/-- Settles O3: the kind the body was read as is the packet's own, and each part of that packet is well-formed. -/
theorem decodedInstructionsAreWellFormed : Obligations.DecodedInstructionsAreWellFormed := by
  intro pr f i n h
  obtain ⟨P, k, hdec, hk, rfl⟩ := decode_ok h
  obtain ⟨H, c, hhead, hbody⟩ := decodePacket_ok hdec
  obtain ⟨k', hk', hlen, hkind⟩ := decodeBody_ok hbody
  obtain rfl : k' = k := Option.some.inj ((kindOf_decodeKind hk' hkind).symm.trans hk)
  obtain ⟨hheader, -⟩ := decodeKind_frame hkind
  obtain ⟨_, -, -, hpay⟩ := decodeKind_ok hkind
  exact ⟨Packet.toInstr_wf (hheader ▸ decodeHeader_header_wf hhead) (decodeKind_span_wf hkind)
    (decodeKind_payloadFits hkind), decodePayload_length_le hpay hlen⟩

end Sys2Proof
end

section
/-! SUPPORT. What one step can do to the state, said once (`StepEffect`, `step_effect`), and what follows from it: the
invariant, who changes the table, the malformed-frame counter and the fatal flag. -/

namespace Sys2Proof.Machine

open Sys2Proof

/-! ### How the engine ends an event -/

/-- `t` ends the event that `u` is handling, and not with DROP_DECODE: deliveries and a disposition, or the fatal flag
(rules R202, R250). `u` is the state after the accesses the event has made. -/
inductive EndsFrom (u : State) : State → Prop
  | finished (outs : List Output) (d : Disposition) (hd : ∀ r, d ≠ .dropDecode r) : EndsFrom u (u.finish outs d)
  | fatal : EndsFrom u (u.setFatal.finish [] .fatal)

theorem EndsFrom.params_eq {u t : State} (h : EndsFrom u t) : t.params = u.params := by cases h <;> rfl

theorem EndsFrom.mem_eq {u t : State} (h : EndsFrom u t) : t.mem = u.mem := by cases h <;> rfl

theorem EndsFrom.malformedCnt_eq {u t : State} (h : EndsFrom u t) : t.malformedCnt = u.malformedCnt := by
  cases h <;> rfl

/-- Ending an event never clears the flag (rules R38, R259). -/
theorem EndsFrom.fatal_of_fatal {u t : State} (h : EndsFrom u t) (hf : u.fatal = true) : t.fatal = true := by
  cases h with
  | finished => exact hf
  | fatal => rfl

theorem EndsFrom.outputs_ne_dropDecode {u t : State} (h : EndsFrom u t) (r : DecodeError) :
    t.outputs ≠ u.outputs ++ [.ended (.dropDecode r)] := by
  cases h with
  | finished outs d hd =>
    intro he
    have hlast := congrArg List.getLast? (List.append_cancel_left he)
    simp only [List.getLast?_append, List.getLast?_singleton, Option.some_or, Option.some.injEq,
      Output.ended.injEq] at hlast
    exact hd r hlast
  | fatal => simp

theorem EndsFrom.inv {u t : State} (h : EndsFrom u t) (hi : u.Inv) : t.Inv := hi.of_eq h.params_eq h.mem_eq

/-! ### The engine's operations -/

theorem forward_endsFrom (dest : Nat) (g : Frame) (s : State) : EndsFrom s (forward dest g s) := by
  rcases forward_cases dest g s with ⟨-, h⟩ | ⟨bm, -, h⟩ <;> rw [h]
  · exact .finished _ _ (by simp)
  · exact .finished _ _ (by simp)

theorem hopForward_endsFrom (P : Packet) (s : State) : EndsFrom s (hopForward P s) := by
  rcases hopForward_cases P s with ⟨e, -, h⟩ | ⟨g, -, h⟩ <;> rw [h]
  · exact .fatal
  · exact forward_endsFrom _ _ _

theorem terminalUnhandled_endsFrom (s : State) : EndsFrom s (terminalUnhandled s) := .finished _ _ (by simp)

/-- The end of terminal handling starts from the state the accesses left, if there were any (rule R198). -/
theorem respond_endsFrom (port : Nat) (P : Packet) (r : Except FatalReason (Access State)) (s : State) :
    EndsFrom s (respond port P r s) ∨ ∃ acc, r = .ok acc ∧ EndsFrom acc.target (respond port P r s) := by
  rcases respond_cases port P r s with ⟨e, -, h⟩ | ⟨acc, hr, ⟨e, -, h⟩ | ⟨g, -, h⟩⟩ <;> rw [h]
  · exact .inl .fatal
  · exact .inr ⟨acc, hr, .fatal⟩
  · exact .inr ⟨acc, hr, .finished _ _ (by simp)⟩

/-- A terminal read leaves the register space alone (rules R56, R198). -/
theorem terminalRead_endsFrom (port : Nat) (P : Packet) (s : State) : EndsFrom s (terminalRead port P s) := by
  rcases respond_endsFrom port P (maintRead localTarget P s) s with h | ⟨acc, ha, h⟩
  · exact h
  · rwa [maintRead_local_target ha] at h

/-- Terminal handling or one hop less, by the hop count (rule R197). -/
theorem EndsFrom.ite_hopForward {s t : State} (ht : EndsFrom s t) (hop : BitVec 8) (P : Packet) :
    EndsFrom s (if hop = 0 then t else hopForward P s) := by
  split
  · exact ht
  · exact hopForward_endsFrom P s

/-- Only a maintenance write request with hop count 0 has accesses that can change the state its event ends from
(rules R29, R205). -/
theorem handle_endsFrom (i : Instr) (port : Nat) (f : Frame) (s : State) :
    EndsFrom s (handle i port f s) ∨
      ∃ h tid off sp pl acc, i = .maintWrReq h tid 0 off sp pl ∧ maintWrite localTarget i.toPacket s = .ok acc ∧
        EndsFrom acc.target (handle i port f s) := by
  cases i with
  | maintRdReq h tid hop off sp => exact .inl ((terminalRead_endsFrom _ _ _).ite_hopForward _ _)
  | maintWrReq h tid hop off sp pl =>
    by_cases hhop : hop = 0
    · subst hhop
      rcases respond_endsFrom port _ (maintWrite localTarget _ s) s with he | ⟨acc, ha, he⟩
      · exact .inl he
      · exact .inr ⟨h, tid, off, sp, pl, acc, rfl, ha, he⟩
    · simp only [handle, hhop, if_false]
      exact .inl (hopForward_endsFrom _ _)
  | maintRdResp h st tid hop pl => exact .inl ((terminalUnhandled_endsFrom _).ite_hopForward _ _)
  | maintWrResp h st tid hop => exact .inl ((terminalUnhandled_endsFrom _).ite_hopForward _ _)
  | _ => exact .inl (forward_endsFrom _ _ _)

/-- A frame that does not decode whole is counted and dropped, or forwarded on its common header (rules R192, R193). -/
theorem undecoded_cases (e : DecodeError) (f : Frame) (s : State) :
    (∃ r, undecoded e f s = s.countMalformed.finish [] (.dropDecode r)) ∨ EndsFrom s (undecoded e f s) := by
  unfold undecoded
  split
  · exact .inl ⟨_, rfl⟩
  · split
    · exact .inl ⟨_, rfl⟩
    · exact .inr (forward_endsFrom _ _ _)

/-! ### One step -/

/-- Everything a step that answers can do, by what it does to the state. -/
inductive StepEffect (s : State) : State → Prop
  | idle : StepEffect s s
  /-- A host read or a look at the status outputs: one answer, which is no disposition. -/
  | answered (o : Output) (ho : ∀ d, o ≠ .ended d) : StepEffect s (s.endEvent [o])
  | hostWrite {a : Nat} {v m : Word} {rest : List Event} (hin : s.inbox = .hostWrite a v m :: rest) :
      StepEffect s (hostWriteEvent a v m s)
  | reset {rest : List Event} (hin : s.inbox = .reset :: rest) : StepEffect s s.applyReset
  /-- A DecodeError (rule R192). -/
  | malformed (r : DecodeError) : StepEffect s (s.countMalformed.finish [] (.dropDecode r))
  | ended {t : State} (he : EndsFrom s t) : StepEffect s t
  /-- A terminal maintenance write request whose accesses left `acc.target` (rule R198). -/
  | written {port : Nat} {f : Frame} {rest : List Event} {h : Header} {tid : BitVec 8} {off : BitVec 21} {sp : Span}
      {pl : List DWord} {n : Nat} {acc : Access State} {t : State} (hin : s.inbox = .ingress port f :: rest)
      (hdec : decode s.params f = .ok (.maintWrReq h tid 0 off sp pl, n))
      (hacc : maintWrite localTarget (Instr.maintWrReq h tid 0 off sp pl).toPacket s = .ok acc)
      (he : EndsFrom acc.target t) : StepEffect s t

/-- A step on an arriving frame that decodes has the effect of what its instruction does. -/
theorem handle_effect {s : State} {port : Nat} {f : Frame} {rest : List Event} {i : Instr} {n : Nat}
    (hin : s.inbox = .ingress port f :: rest) (hdec : decode s.params f = .ok (i, n)) :
    StepEffect s (handle i port f s) := by
  rcases handle_endsFrom i port f s with he | ⟨h, tid, off, sp, pl, acc, rfl, hacc, he⟩
  · exact .ended he
  · exact .written hin hdec hacc he

theorem undecoded_effect (e : DecodeError) (f : Frame) (s : State) : StepEffect s (undecoded e f s) := by
  rcases undecoded_cases e f s with ⟨r, h⟩ | he
  · rw [h]
    exact .malformed r
  · exact .ended he

/-- Every step that answers a next state has one of the listed effects. -/
theorem step_effect {s t : State} (h : step s = .next t) : StepEffect s t := by
  rcases step_cases s with ⟨-, e⟩ | ⟨a, rest, -, e⟩ | ⟨a, v, m, rest, hin, e⟩ | ⟨rest, -, e⟩ | ⟨rest, hin, e⟩ |
    ⟨port, f, rest, hin, ⟨-, e⟩ | ⟨-, -, e⟩ | ⟨-, -, ⟨i, n, hdec, e⟩ | ⟨r, -, e⟩⟩⟩ <;> rw [e] at h <;> cases h
  · exact .idle
  · exact .answered _ (by simp)
  · exact .hostWrite hin
  · exact .answered _ (by simp)
  · exact .reset hin
  · exact .ended (.finished _ _ (by simp))
  · exact handle_effect hin hdec
  · exact undecoded_effect _ _ _

/-! ### A host write -/

/-- The fields a host write never touches, and its answer (rule R232). -/
@[simp] theorem hostWriteEvent_frame (a : Nat) (v m : Word) (s : State) :
    (hostWriteEvent a v m s).params = s.params ∧ (hostWriteEvent a v m s).malformedCnt = s.malformedCnt ∧
      (hostWriteEvent a v m s).fatal = s.fatal ∧
      (hostWriteEvent a v m s).outputs = s.outputs ++ [.hostWriteDone (s.localWrite32 a v m).2] := by
  obtain ⟨hp, hc, hf, -, ho⟩ := s.localWrite32_frame a v m
  exact ⟨hp, hc, hf, by rw [hostWriteEvent, State.endEvent_outputs, ho]⟩

theorem State.Inv.hostWriteEvent {s : State} (hi : s.Inv) (a : Nat) (v m : Word) : (hostWriteEvent a v m s).Inv :=
  (hi.localWrite32 a v m).of_eq rfl rfl

/-! ### What every step keeps -/

/-- No step changes the parameters (rule R281). -/
theorem StepEffect.params_eq {s t : State} (h : StepEffect s t) : t.params = s.params := by
  cases h with
  | idle => rfl
  | answered => rfl
  | hostWrite => simp
  | reset => rfl
  | malformed => rfl
  | ended he => exact he.params_eq
  | written _ _ hacc he =>
    obtain ⟨hp, -, -, -, -⟩ := maintWrite_local_frame hacc
    exact he.params_eq.trans hp

/-- Every step keeps the invariant (rule R28). -/
theorem StepEffect.inv {s t : State} (h : StepEffect s t) (hi : s.Inv) : t.Inv := by
  cases h with
  | idle => exact hi
  | answered => exact hi.of_eq rfl rfl
  | hostWrite => exact hi.hostWriteEvent _ _ _
  | reset => exact (State.resetWith_inv s.params).of_eq rfl rfl
  | malformed => exact hi.of_eq rfl rfl
  | ended he => exact he.inv hi
  | written _ _ hacc he => exact he.inv (hi.maintWrite_local hacc)

/-- Nothing but reset clears the fatal flag (rules R38, R259). -/
theorem StepEffect.fatal_of_fatal {s t : State} (h : StepEffect s t) (hf : s.fatal = true)
    (hr : s.inbox.head? ≠ some .reset) : t.fatal = true := by
  cases h with
  | idle => exact hf
  | answered => exact hf
  | hostWrite => simpa using hf
  | reset hin => simp [hin] at hr
  | malformed => exact hf
  | ended he => exact he.fatal_of_fatal hf
  | written _ _ hacc he =>
    obtain ⟨-, -, hfat, -, -⟩ := maintWrite_local_frame hacc
    exact he.fatal_of_fatal (hfat.trans hf)

/-- Only a DecodeError and reset touch the malformed-frame counter, and a DecodeError alone ends DROP_DECODE (rule R37). -/
theorem StepEffect.malformedCnt_cases {s t : State} (h : StepEffect s t) (hr : s.inbox.head? ≠ some .reset) :
    (t.malformedCnt = s.malformedCnt + 1 ∧ ∃ r, t.outputs = s.outputs ++ [.ended (.dropDecode r)]) ∨
      (t.malformedCnt = s.malformedCnt ∧ ∀ r, t.outputs ≠ s.outputs ++ [.ended (.dropDecode r)]) := by
  cases h with
  | idle => exact .inr ⟨rfl, by simp⟩
  | answered o ho => exact .inr ⟨rfl, fun r => by simpa using ho (.dropDecode r)⟩
  | hostWrite => exact .inr ⟨by simp, by simp⟩
  | reset hin => simp [hin] at hr
  | malformed r => exact .inl ⟨rfl, r, rfl⟩
  | ended he => exact .inr ⟨he.malformedCnt_eq, he.outputs_ne_dropDecode⟩
  | written _ _ hacc he =>
    obtain ⟨-, hcnt, -, -, hout⟩ := maintWrite_local_frame hacc
    exact .inr ⟨he.malformedCnt_eq.trans hcnt, hout ▸ he.outputs_ne_dropDecode⟩

/-! ### Reset and the fatal flag -/

/-- Every entry is 0 after reset (rule R36). -/
@[simp] theorem State.resetWith_entry (p : Params) (d : Nat) : (State.resetWith p).entry d = 0 := by
  simp only [State.entry, State.resetWith_mem, Memory.readWord, Memory.readByte_nil, Memory.blank]
  rfl

/-- While `fatal` is set an arriving frame is ignored before it is decoded (rules R38, R191). -/
theorem step_of_fatal {s : State} {port : Nat} {f : Frame} {rest : List Event} (hin : s.inbox = .ingress port f :: rest)
    (hp : port < s.params.nPorts) (hf : s.fatal = true) : step s = .next (s.finish [] .ignoredFatal) := by
  simp [step, hin, hf, Nat.not_le.2 hp]

theorem exec_of_fatal {s : State} {port : Nat} {f : Frame} {rest : List Event} (i : Instr)
    (hin : s.inbox = .ingress port f :: rest) (hf : s.fatal = true) : exec i s = .next (s.finish [] .ignoredFatal) := by
  rw [exec_eq_onIngress, onIngress_of_fatal _ hin hf]

/-! ### The obligations -/

/-- Settles O38: every effect of a step keeps the invariant and the parameters. -/
theorem invariantIsKeptByEveryStep : Obligations.InvariantIsKeptByEveryStep :=
  fun _ _ hi h => ⟨(step_effect h).inv hi, (step_effect h).params_eq⟩

/-- Settles O41: the effects that are no write and no reset leave the register bytes alone. -/
theorem onlyWritesAndResetChangeTheTable : Obligations.OnlyWritesAndResetChangeTheTable := by
  intro s t h hne
  cases step_effect h with
  | idle => exact absurd rfl hne
  | answered => exact absurd rfl hne
  | hostWrite hin => exact .inl ⟨_, _, _, _, hin⟩
  | reset hin => exact .inr (.inl ⟨_, hin⟩)
  | malformed => exact absurd rfl hne
  | ended he => exact absurd he.mem_eq hne
  | written hin hdec => exact .inr (.inr ⟨_, _, _, _, _, _, _, _, _, hin, hdec⟩)

/-- Settles O42, from what each effect does to the counter and the outputs. -/
theorem malformedCountRule : Obligations.MalformedCountRule := by
  intro s t h hr
  rcases (step_effect h).malformedCnt_cases hr with ⟨hcnt, r, hout⟩ | ⟨hcnt, hout⟩
  · exact ⟨fun _ _ => by rw [hcnt, BitVec.toNat_add]; rfl, fun hn => absurd hout (hn r)⟩
  · exact ⟨fun r hd => absurd hd (hout r), fun _ => hcnt⟩

/-- Settles O23. -/
theorem resetValues : Obligations.ResetValues :=
  ⟨State.resetWith_entry, fun _ => ⟨rfl, rfl⟩, State.resetWith_entry _, rfl, rfl⟩

/-- Settles O36: the flag is looked at before the frame, and no effect but reset clears it. -/
theorem fatalFlagIgnoresFramesUntilReset : Obligations.FatalFlagIgnoresFramesUntilReset := by
  refine ⟨fun s port f rest hin hp hf => ?_, fun s t h hf hr => (step_effect h).fatal_of_fatal hf hr⟩
  rw [← finish_eq_ended hin]
  exact ⟨step_of_fatal hin hp hf, fun i => exec_of_fatal i hin hf⟩

/-- Settles O39. -/
theorem invariantHoldsAtReset : Obligations.InvariantHoldsAtReset :=
  ⟨State.resetWith_inv _, State.resetWith_inv⟩

end Sys2Proof.Machine
end

section
/-! SUPPORT. The mapping table read back through the lookup: what a merged entry holds bit by bit, and which destinations a
register write can change the lookup of (rules R63, R194, R231). -/

namespace Sys2Proof.Machine

open Sys2Proof

/-! ### The merged entry -/

/-- A merge takes the written bit where the write mask and the non-reserved mask are both set, and keeps the old one
elsewhere (rule R231). -/
theorem getLsbD_mergeEntry (n old v m : Word) (k : Nat) :
    (mergeEntry n old v m).getLsbD k = if m.getLsbD k && n.getLsbD k then v.getLsbD k else old.getLsbD k := by
  by_cases hk : k < 32
  · simp only [mergeEntry, BitVec.getLsbD_and, BitVec.getLsbD_or, BitVec.getLsbD_not, hk, decide_true, Bool.true_and]
    cases m.getLsbD k <;> cases n.getLsbD k <;> simp
  · simp [BitVec.getLsbD_of_ge _ k (Nat.le_of_not_lt hk)]

/-- The bits the reference mask lets through are the three low ones and the bitmap (rules R4, R25 to R27). -/
theorem getLsbD_referenceMask {k : Nat} (hk : k < 32) :
    (0xFF000007 : Word).getLsbD k = true ↔ k < 3 ∨ 24 ≤ k := by
  revert k
  decide

/-- A whole-word write stores every non-reserved bit it is given (rule R231). -/
theorem getLsbD_mergeEntry_wholeWord (old v : Word) {k : Nat} (hk : k < 32) (hn : k < 3 ∨ 24 ≤ k) :
    (mergeEntry 0xFF000007 old v 0xFFFFFFFF).getLsbD k = v.getLsbD k := by
  have hm : (0xFFFFFFFF : Word).getLsbD k = true := BitVec.getLsbD_allOnes (v := 32).trans (decide_eq_true hk)
  rw [getLsbD_mergeEntry, hm, (getLsbD_referenceMask hk).2 hn]
  rfl

/-- The bitmap of an entry written whole is the written one (rules R27, R231). -/
theorem bitmap_mergeEntry_wholeWord (old v : Word) :
    (mergeEntry 0xFF000007 old v 0xFFFFFFFF).extractLsb' 24 8 = v.extractLsb' 24 8 := by
  refine BitVec.eq_of_getLsbD_eq fun p hp => ?_
  rw [getLsbD_bitmap, getLsbD_bitmap, getLsbD_mergeEntry_wholeWord old v (by omega) (by omega)]

/-! ### The lookup -/

/-- The lookup of a destination of the table answers by the entry's `valid` bit and bitmap (rule R194). -/
theorem State.lookup_of_lt {s : State} {d : Nat} (hd : d < s.params.nDest) :
    s.lookup d = if (s.entry d).getLsbD 0 then some ((s.entry d).extractLsb' 24 8) else none := by
  rcases s.lookup_cases d with ⟨hge | hv, e⟩ | ⟨-, hv, e⟩
  · omega
  · rw [e, hv]
    rfl
  · rw [e, if_pos hv]

/-- The lookup reads the parameters and its own entry alone (rule R194). -/
theorem State.lookup_congr {s t : State} {e : Nat} (hp : t.params = s.params) (he : t.entry e = s.entry e) :
    t.lookup e = s.lookup e := by
  simp only [State.lookup, hp, he]

/-- Storing an entry leaves the lookup of every other destination alone (rule R63). -/
theorem State.lookup_setEntry_other {s : State} {d e : Nat} (v : Word) (h : e ≠ d) :
    (s.setEntry d v).lookup e = s.lookup e :=
  State.lookup_congr (s.setEntry_params d v) (State.entry_setEntry_other v h)

/-- The lookup of a destination whose entry was just stored answers by the stored word (rule R63). -/
theorem State.lookup_setEntry_same {s : State} (hm : s.mem.wf = true) {d : Nat} (hd : d < s.params.nDest) (v : Word) :
    (s.setEntry d v).lookup d = if v.getLsbD 0 then some (v.extractLsb' 24 8) else none := by
  rw [State.lookup_of_lt (s := s.setEntry d v) hd, State.entry_setEntry_same hm]

/-! ### The accessor -/

/-- `LOCAL.write32` on an address that names an entry (rule R231). -/
theorem State.localWrite32_of_some {s : State} {a d : Nat} (h : s.entryAt a = some d) (v m : Word) :
    s.localWrite32 a v m = (s.setEntry d (mergeEntry s.params.nrMask (s.entry d) v m), true) := by
  simp [State.localWrite32, h]

/-! ### The obligation -/

/-- Settles O20: the write stores a merged entry, whose `valid` bit and bitmap are the written ones. -/
theorem lookupSeesTheLastWrite : Obligations.LookupSeesTheLastWrite := by
  intro s d v hm hlegal hmask hd
  obtain ⟨-, -, -, hbase, -, -⟩ := hlegal
  rw [State.localWrite32_of_some (State.entryAt_entryAddress hbase hd), hmask]
  refine ⟨?_, fun e he => State.lookup_setEntry_other _ he⟩
  rw [State.lookup_setEntry_same hm hd, bitmap_mergeEntry_wholeWord,
    getLsbD_mergeEntry_wholeWord (s.entry d) v (by omega) (by omega)]

end Sys2Proof.Machine
end

section
/-! SUPPORT. What the decoder reads of a frame and what it passes over: the reserved bits and the bytes after the packet
(rules R96, R99). -/

namespace Sys2Proof

/-! ### The parts of a packet that decoded -/

/-- The walk over a logical header leaves the transport type alone (rule R121). -/
theorem readFields_tt (f : Frame) (c : Nat) (fields : List LayoutField) (r : RawPacket) :
    (readFields f c fields r).packet.tt = r.packet.tt := by
  induction fields generalizing r with
  | nil => rfl
  | cons lf fields ih =>
    rw [readFields, List.foldl_cons, ← readFields, ih]
    cases lf.field <;> rfl

theorem withSpan_tt (l : Layout) (r : RawPacket) : (withSpan l r).tt = r.packet.tt := by
  unfold withSpan
  split <;> rfl

/-- A payload that is read starts where the header ends, and the transport type is left alone (rule R121). -/
theorem decodePayload_start {pr : Params} {rule : PayloadRule} {P Q : Packet} {f : Frame} {q n : Nat}
    (h : decodePayload pr rule P f q = .ok (Q, n)) : Q.tt = P.tt ∧ q ≤ n := by
  rcases decodePayload_cases pr rule P f q with ⟨-, e⟩ | ⟨-, -, e⟩ | ⟨-, -, e⟩ | ⟨-, -, e⟩ | ⟨-, -, e⟩ <;>
    rw [e] at h <;> cases h
  · exact ⟨rfl, le_rfl⟩
  · exact ⟨rfl, Nat.le_add_right ..⟩
  · exact ⟨rfl, Nat.le_add_right ..⟩

/-- The body of a frame leaves the transport type alone and counts its whole logical header (rule R121). -/
theorem decodeKind_start {pr : Params} {k : Kind} {H P : Packet} {f : Frame} {c n : Nat}
    (h : decodeKind pr k H f c = .ok (P, n)) : P.tt = H.tt ∧ c + k.layout.len ≤ n := by
  obtain ⟨Q, rfl, -, hp⟩ := decodeKind_ok h
  obtain ⟨htt, hn⟩ := decodePayload_start hp
  exact ⟨htt.trans ((withSpan_tt ..).trans (readFields_tt ..)), hn⟩

/-- The parts of a packet that decoded: its common header, its kind, and its body (rules R120 to R122). -/
theorem decodePacket_parts {pr : Params} {f : Frame} {P : Packet} {n : Nat} (h : decodePacket pr f = .ok (P, n)) :
    ∃ H k, decodeHeader pr f = .ok (H, commonLen P.tt) ∧ kindOf P.ftype P.transaction = some k ∧
      kindOf H.ftype (bits f (8 * commonLen P.tt) 4) = some k ∧ commonLen P.tt + k.layout.len ≤ n ∧ n ≤ f.length ∧
      decodeKind pr k H f (commonLen P.tt) = .ok (P, n) := by
  obtain ⟨H, c, hhead, hbody⟩ := decodePacket_ok h
  obtain ⟨k, hk, hlen, hkind⟩ := decodeBody_ok hbody
  obtain ⟨htt, hn⟩ := decodeKind_start hkind
  obtain ⟨_, -, -, hpay⟩ := decodeKind_ok hkind
  obtain rfl : c = commonLen P.tt := by
    obtain ⟨-, -, -, -, -, rfl, rfl⟩ := decodeHeader_ok hhead
    rw [htt]
  exact ⟨H, k, hhead, kindOf_decodeKind hk hkind, hk, hn, decodePayload_length_le hpay hlen, hkind⟩

/-! ### When the decoder goes on -/

/-- A body with its whole logical header and a known kind is read as that kind (rule R121). -/
theorem decodeBody_of_kind {pr : Params} {H : Packet} {f : Frame} {c : Nat} {k : Kind}
    (hk : kindOf H.ftype (bits f (8 * c) 4) = some k) (hlen : c + k.layout.len ≤ f.length) :
    decodeBody pr H f c = decodeKind pr k H f c := by
  have hl : logicalLen H.ftype = some k.layout.len := ftype_of_kindOf hk ▸ logicalLen_kind k
  simp only [decodeBody, hl, hk, Nat.not_lt.2 hlen, if_false]

/-- A frame whose header decodes is decoded as its body is (rule R122). -/
theorem decodePacket_of_header {pr : Params} {f : Frame} {H : Packet} {c : Nat} (h : decodeHeader pr f = .ok (H, c)) :
    decodePacket pr f = decodeBody pr H f c := by
  simp only [decodePacket, h]

/-! ### What each part reads -/

/-- The common header is decoded from its own bits and the length of the frame (rule R120). -/
theorem decodeHeader_congr {pr : Params} {f g : Frame} {H : Packet} {c : Nat} (h : decodeHeader pr f = .ok (H, c))
    (hmax : g.length ≤ pr.maxFrameBytes) (hlen : c ≤ g.length)
    (hbits : ∀ p w, p + w ≤ 8 * c → bits g p w = bits f p w) : decodeHeader pr g = .ok (H, c) := by
  obtain ⟨-, -, htt, ⟨l, hl⟩, -, rfl, rfl⟩ := decodeHeader_ok h
  have hc : commonLen (bits f 2 2) = 1 + 2 * idBytes (bits f 2 2) := rfl
  have hprio := hbits 0 2 (by omega)
  have htt' := hbits 2 2 (by omega)
  have hft := hbits 4 4 (by omega)
  have hdest := hbits 8 (8 * idBytes (bits f 2 2)) (by omega)
  have hsrc := hbits (8 + 8 * idBytes (bits f 2 2)) (8 * idBytes (bits f 2 2)) (by omega)
  simp only [decodeHeader, htt', hft, hprio, hdest, hsrc, hl, reduceCtorEq, if_false]
  rw [if_neg (by omega), if_neg (by omega), if_neg (by omega), if_neg (by omega)]

/-- The walk over a logical header reads its non-reserved fields alone (rules R96, R121). -/
theorem readFields_congr_unreserved {f g : Frame} {c : Nat} {fields : List LayoutField} (r : RawPacket)
    (h : ∀ lf ∈ fields, lf.field ≠ .reserved → bits g (8 * c + lf.offset) lf.width = bits f (8 * c + lf.offset) lf.width) :
    readFields g c fields r = readFields f c fields r := by
  refine List.foldl_ext _ _ _ fun r lf hlf => ?_
  by_cases hres : lf.field = .reserved
  · simp only [hres, storeField]
  · rw [h lf hlf hres]

/-- A payload is read from its own bits (rule R51). -/
theorem readPayload_congr {f g : Frame} {q cnt : Nat}
    (h : ∀ p w, 8 * q ≤ p → p + w ≤ 8 * (q + 8 * cnt) → bits g p w = bits f p w) :
    readPayload g q cnt = readPayload f q cnt := by
  refine List.map_congr_left fun i hi => ?_
  have hi' := List.mem_range.1 hi
  rw [h (8 * (q + 8 * i)) 64 (by omega) (by omega)]

/-- The payload part reads the length of the frame and the bits up to the end of the packet (rules R99, R121). -/
theorem decodePayload_congr {pr : Params} {rule : PayloadRule} {P Q : Packet} {f g : Frame} {q n : Nat}
    (h : decodePayload pr rule P f q = .ok (Q, n)) (hlen : g.length = f.length)
    (hbits : ∀ p w, 8 * q ≤ p → p + w ≤ 8 * n → bits g p w = bits f p w) :
    decodePayload pr rule P g q = .ok (Q, n) := by
  rcases decodePayload_cases pr rule P f q with ⟨rfl, e⟩ | ⟨-, -, e⟩ | ⟨rfl, hle, e⟩ | ⟨-, -, e⟩ | ⟨rfl, hle, e⟩ <;>
    rw [e] at h <;> cases h
  · rfl
  · simp only [decodePayload, hlen, Nat.not_lt.2 hle, if_false, readPayload_congr hbits]
  · simp only [decodePayload, hlen, Nat.not_lt.2 hle, if_false, readPayload_congr hbits]

/-! ### Reserved bits -/

/-- The reserved fields of a layout overlap none of its other fields (rules R88 to R95). -/
theorem layout_reserved_disjoint (l : Layout) : ∀ lf ∈ l.fields, ∀ rf ∈ l.fields, lf.field ≠ .reserved →
    rf.field = .reserved → lf.offset + lf.width ≤ rf.offset ∨ rf.offset + rf.width ≤ lf.offset := by
  cases l <;> decide

/-- A stream bit is not reserved when it lies in none of the reserved fields (rule R96). -/
theorem reservedBit_eq_false {k : Kind} {c b : Nat}
    (h : ∀ rf ∈ k.layout.fields, rf.field = .reserved → b < 8 * c + rf.offset ∨ 8 * c + rf.offset + rf.width ≤ b) :
    reservedBit k c b = false := by
  refine List.any_eq_false.2 fun rf hrf => ?_
  simp only [Bool.and_eq_true, decide_eq_true_eq, not_and]
  rintro ⟨hres, _⟩
  have := h rf hrf hres
  omega

/-- No bit of a named field is reserved (rule R96). -/
theorem reservedBit_of_field {k : Kind} {c b : Nat} {lf : LayoutField} (h : lf ∈ k.layout.fields)
    (hres : lf.field ≠ .reserved) (hb : 8 * c + lf.offset ≤ b) (hb' : b < 8 * c + (lf.offset + lf.width)) :
    reservedBit k c b = false := by
  refine reservedBit_eq_false fun rf hrf hr => ?_
  have := layout_reserved_disjoint k.layout lf h rf hrf hres hr
  omega

/-- No bit outside the logical header is reserved (rule R96). -/
theorem reservedBit_of_outside {k : Kind} {c b : Nat} (h : b < 8 * c ∨ 8 * (c + k.layout.len) ≤ b) :
    reservedBit k c b = false := by
  refine reservedBit_eq_false fun rf hrf _ => ?_
  have := layout_field_le hrf
  omega

/-! ### Frames that agree on a packet -/

/-- Frame `g` is as long as `f` and has the bits of its first `n` bytes, those reserved in a frame of kind `k` with the
logical header at byte `c` excepted. -/
structure AgreesOnPacket (k : Kind) (c n : Nat) (f g : Frame) : Prop where
  length_eq : g.length = f.length
  count_le : n ≤ f.length
  bit_eq : ∀ b < 8 * n, reservedBit k c b = false → bits g b 1 = bits f b 1

namespace AgreesOnPacket

variable {k : Kind} {c n : Nat} {f g : Frame}

/-- A stretch without reserved bits reads the same. -/
theorem bits_eq (h : AgreesOnPacket k c n f g) {p w : Nat} (hp : p + w ≤ 8 * n)
    (hres : ∀ b, p ≤ b → b < p + w → reservedBit k c b = false) : bits g p w = bits f p w := by
  obtain ⟨hlen, hn, hbit⟩ := h
  exact bits_congr (by omega) (by omega) fun b hb hb' => hbit b (by omega) (hres b hb hb')

theorem bits_header_eq (h : AgreesOnPacket k c n f g) (hn : c ≤ n) {p w : Nat} (hp : p + w ≤ 8 * c) :
    bits g p w = bits f p w :=
  h.bits_eq (by omega) fun _ _ hb => reservedBit_of_outside (.inl (by omega))

theorem bits_field_eq (h : AgreesOnPacket k c n f g) (hn : c + k.layout.len ≤ n) {lf : LayoutField}
    (hlf : lf ∈ k.layout.fields) (hres : lf.field ≠ .reserved) :
    bits g (8 * c + lf.offset) lf.width = bits f (8 * c + lf.offset) lf.width := by
  have := layout_field_le hlf
  exact h.bits_eq (by omega) fun _ hb hb' => reservedBit_of_field hlf hres hb (by omega)

theorem bits_payload_eq (h : AgreesOnPacket k c n f g) {p w : Nat} (hp : 8 * (c + k.layout.len) ≤ p)
    (hpw : p + w ≤ 8 * n) : bits g p w = bits f p w :=
  h.bits_eq hpw fun _ hb _ => reservedBit_of_outside (.inr (by omega))

/-- The body of the other frame is looked up as the same kind (rule R127). -/
theorem kindOf_eq (h : AgreesOnPacket k c n f g) (hn : c + k.layout.len ≤ n) {ft : Nat}
    (hk : kindOf ft (bits f (8 * c) 4) = some k) : kindOf ft (bits g (8 * c) 4) = some k := by
  by_cases hany : ft = 6 ∨ ft = 10 ∨ ft = 11
  · rw [kindOf_any_transaction hany _ (bits f (8 * c) 4), hk]
  · have hmem : ⟨0, 4, .transaction⟩ ∈ k.layout.fields := by
      rw [← ftype_of_kindOf hk] at hany
      cases k with
      | swrite | doorbell | message => simp [Kind.ftype] at hany
      | _ => decide
    have htr : bits g (8 * c) 4 = bits f (8 * c) 4 := h.bits_field_eq hn hmem (by decide)
    rw [htr, hk]

/-- The body of the other frame decodes to the same packet (rules R96, R99, R121). -/
theorem decodeKind_eq (h : AgreesOnPacket k c n f g) {pr : Params} {H P : Packet}
    (hd : decodeKind pr k H f c = .ok (P, n)) : decodeKind pr k H g c = .ok (P, n) := by
  obtain ⟨-, hn⟩ := decodeKind_start hd
  obtain ⟨Q, rfl, hspan, hpay⟩ := decodeKind_ok hd
  have hread : readFields g c k.layout.fields { packet := H } = readFields f c k.layout.fields { packet := H } :=
    readFields_congr_unreserved _ fun lf hlf hres => h.bits_field_eq hn hlf hres
  simp only [decodeKind, hread]
  rw [if_neg fun hbig => Nat.not_lt.2 (hspan hbig.1) hbig.2]
  exact decodePayload_congr hpay h.length_eq fun p w hp hpw => h.bits_payload_eq hp hpw

end AgreesOnPacket

/-- Settles O7: the header, each named field and the payload read the same in the other frame, and nothing else is read. -/
theorem reservedBitsAndExcessBytesAreIgnored : Obligations.ReservedBitsAndExcessBytesAreIgnored := by
  intro pr f g P n k hdec hk hlen hbits
  obtain ⟨H, k', hhead, hkP, hkf, hn, hnf, hkind⟩ := decodePacket_parts hdec
  obtain rfl : k' = k := Option.some.inj (hkP.symm.trans hk)
  have hagree : AgreesOnPacket k' (commonLen P.tt) n f g := ⟨hlen, hnf, hbits⟩
  obtain ⟨hmax, -⟩ := decodeHeader_ok hhead
  have hheadg : decodeHeader pr g = .ok (H, commonLen P.tt) :=
    decodeHeader_congr hhead (by omega) (by omega) fun _ _ hp => hagree.bits_header_eq (by omega) hp
  rw [decodePacket_of_header hheadg, decodeBody_of_kind (hagree.kindOf_eq hn hkf) (by omega)]
  exact hagree.decodeKind_eq hkind

end Sys2Proof
end

section
/-! SUPPORT. Which frames the decoder refuses, and for what reason: each part's answer in the order of its tests (rules
R101, R121, R257). -/

namespace Sys2Proof

/-- The reason a decoding was refused for, none when it was not. -/
def rejection {α : Type} : Except DecodeError α → Option DecodeError
  | .error e => some e
  | .ok _ => none

@[simp] theorem rejection_error {α : Type} (e : DecodeError) : rejection (.error e : Except DecodeError α) = some e := rfl
@[simp] theorem rejection_ok {α : Type} (a : α) : rejection (.ok a) = none := rfl

/-! ### The tables, with their members listed -/

/-- The format types rule R85 recognises. -/
theorem logicalLen_eq_none_iff {ft : Nat} : logicalLen ft = none ↔ ft ∉ [2, 5, 6, 8, 10, 11, 13] := by
  unfold logicalLen
  split <;> simp_all

theorem mem_of_logicalLen {ft l : Nat} (h : logicalLen ft = some l) : ft ∈ [2, 5, 6, 8, 10, 11, 13] :=
  Decidable.not_not.1 fun hn => by simp [logicalLen_eq_none_iff.2 hn] at h

/-- The length of the logical header of a recognised format type (rule R85). -/
theorem logicalLen_of_mem {ft : Nat} (h : ft ∈ [2, 5, 6, 8, 10, 11, 13]) :
    logicalLen ft = some (if ft ∈ [2, 5, 8] then 6 else if ft ∈ [6, 10] then 4 else 2) := by
  simp only [List.mem_cons, List.not_mem_nil, or_false] at h
  rcases h with rfl | rfl | rfl | rfl | rfl | rfl | rfl <;> rfl

/-- The recognised format types and transactions that are no kind (rules R86, R127). -/
theorem kindOf_eq_none_iff {ft tr : Nat} (h : ft ∈ [2, 5, 6, 8, 10, 11, 13]) :
    kindOf ft tr = none ↔ ft ∉ [6, 10, 11] ∧
      (ft, tr) ∉ [(2, 4), (5, 4), (5, 5), (8, 0), (8, 1), (8, 2), (8, 3), (13, 0), (13, 1), (13, 8)] := by
  unfold kindOf
  split <;> simp_all

/-- The kinds with a size code, by format type and transaction (rules R86 to R95). -/
theorem hasSize_iff_of_kindOf {ft tr : Nat} {k : Kind} (h : kindOf ft tr = some k) :
    k.layout.hasSize = true ↔ ft ∈ [2, 5] ∨ ft = 8 ∧ tr ≤ 1 := by
  unfold kindOf at h
  split at h <;> cases h <;> simp [Kind.layout, Layout.hasSize]

/-- The kinds whose payload length is given by the span, by format type and transaction (rules R86, R99). -/
theorem payloadRule_span_iff_of_kindOf {ft tr : Nat} {k : Kind} (h : kindOf ft tr = some k) :
    k.payloadRule = .span ↔ ft = 5 ∨ ft = 8 ∧ tr = 1 := by
  unfold kindOf at h
  split at h <;> cases h <;> simp [Kind.payloadRule]

/-- The kinds whose payload length is given by the frame, by format type and transaction (rules R86, R99). -/
theorem payloadRule_len_iff_of_kindOf {ft tr : Nat} {k : Kind} (h : kindOf ft tr = some k) :
    k.payloadRule = .len ↔ ft ∈ [6, 11] ∨ ft = 8 ∧ tr = 2 ∨ ft = 13 ∧ tr = 8 := by
  unfold kindOf at h
  split at h <;> cases h <;> simp [Kind.payloadRule]

/-! ### The parts of the decoder -/

/-- Why the payload part refuses a frame (rules R99, R121). -/
theorem rejection_decodePayload (pr : Params) (rule : PayloadRule) (P : Packet) (f : Frame) (q : Nat) :
    rejection (decodePayload pr rule P f q) =
      if rule = .span ∧ f.length < q + 8 * divCeil8 P.rdwrBytes then some .truncated
      else if rule = .len ∧ pr.maxPayloadDw < (f.length - q) / 8 then some .spanTooLarge
      else none := by
  rcases decodePayload_cases pr rule P f q with ⟨rfl, e⟩ | ⟨rfl, h, e⟩ | ⟨rfl, h, e⟩ | ⟨rfl, h, e⟩ | ⟨rfl, h, e⟩ <;>
    rw [e]
  · simp
  · simp [h]
  · simp [Nat.not_lt.2 h]
  · simp [h]
  · simp [Nat.not_lt.2 h]

/-- Where a layout with a size code has the two fields of its span (rules R88, R90). -/
theorem rdwrBytes_withSpan {l : Layout} (h : l.hasSize = true) (f : Frame) (c : Nat) (r : RawPacket) :
    (withSpan l (readFields f c l.fields r)).rdwrBytes =
      (sizeDecode (bits f (8 * c + 4) 4) (bits f (8 * c + 45) 1)).rdwrBytes := by
  cases l with
  | req | mreq => rfl
  | _ => cases h

/-- Why a body of a known kind is refused (rule R121). -/
theorem rejection_decodeKind (pr : Params) (k : Kind) (H : Packet) (f : Frame) (c : Nat) :
    let cnt := divCeil8 (sizeDecode (bits f (8 * c + 4) 4) (bits f (8 * c + 45) 1)).rdwrBytes
    rejection (decodeKind pr k H f c) =
      if k.layout.hasSize = true ∧ pr.maxPayloadDw < cnt then some .spanTooLarge
      else if k.payloadRule = .span ∧ f.length < c + k.layout.len + 8 * cnt then some .truncated
      else if k.payloadRule = .len ∧ pr.maxPayloadDw < (f.length - (c + k.layout.len)) / 8 then some .spanTooLarge
      else none := by
  intro cnt
  by_cases hs : k.layout.hasSize = true
  · simp only [decodeKind, rdwrBytes_withSpan hs, hs, true_and]
    split
    · rfl
    · rw [rejection_decodePayload, rdwrBytes_withSpan hs]
  · have hspan : k.payloadRule ≠ .span := fun h => hs (hasSize_of_payloadRule_span h)
    simp only [decodeKind, rejection_decodePayload, hs, hspan, false_and, if_false, reduceCtorEq]

/-- Why the body of a recognised format type is refused: its logical header is not all there, it is of no kind, or the
reason its kind gives (rule R121). -/
theorem rejection_decodeBody {pr : Params} {H : Packet} {f : Frame} {c len : Nat} (hl : logicalLen H.ftype = some len) :
    (f.length < c + len → rejection (decodeBody pr H f c) = some .truncated) ∧
      (c + len ≤ f.length → kindOf H.ftype (bits f (8 * c) 4) = none →
        rejection (decodeBody pr H f c) = some .badTransaction) ∧
      ∀ k, c + len ≤ f.length → kindOf H.ftype (bits f (8 * c) 4) = some k →
        rejection (decodeBody pr H f c) = rejection (decodeKind pr k H f c) ∧ k.layout.len = len := by
  refine ⟨fun h => ?_, fun h hk => ?_, fun k h hk => ?_⟩
  · simp only [decodeBody, hl, h, if_true, rejection_error]
  · simp only [decodeBody, hl, hk, Nat.not_lt.2 h, if_false, rejection_error]
  · have hlen := logicalLen_kind k
    rw [ftype_of_kindOf hk, hl] at hlen
    obtain rfl := Option.some.inj hlen
    exact ⟨by rw [decodeBody_of_kind hk h], rfl⟩

/-- Why the body of a recognised format type is refused, with the kinds and their rules listed (rules R101, R121). -/
theorem rejection_decodeBody_listed (pr : Params) {H : Packet} (f : Frame) (c : Nat)
    (hft : H.ftype ∈ [2, 5, 6, 8, 10, 11, 13]) :
    let len := if H.ftype ∈ [2, 5, 8] then 6 else if H.ftype ∈ [6, 10] then 4 else 2
    let tr := bits f (8 * c) 4
    let cnt := divCeil8 (sizeDecode (bits f (8 * c + 4) 4) (bits f (8 * c + 45) 1)).rdwrBytes
    rejection (decodeBody pr H f c) =
      if f.length < c + len then some .truncated
      else if H.ftype ∉ [6, 10, 11] ∧ (H.ftype, tr) ∉
          [(2, 4), (5, 4), (5, 5), (8, 0), (8, 1), (8, 2), (8, 3), (13, 0), (13, 1), (13, 8)] then some .badTransaction
      else if (H.ftype ∈ [2, 5] ∨ H.ftype = 8 ∧ tr ≤ 1) ∧ pr.maxPayloadDw < cnt then some .spanTooLarge
      else if (H.ftype = 5 ∨ H.ftype = 8 ∧ tr = 1) ∧ f.length < c + len + 8 * cnt then some .truncated
      else if (H.ftype ∈ [6, 11] ∨ H.ftype = 8 ∧ tr = 2 ∨ H.ftype = 13 ∧ tr = 8) ∧
          pr.maxPayloadDw < (f.length - (c + len)) / 8 then some .spanTooLarge
      else none := by
  intro len tr cnt
  obtain ⟨hshort, hnone, hsome⟩ := rejection_decodeBody (pr := pr) (f := f) (c := c) (logicalLen_of_mem hft)
  have hlist := kindOf_eq_none_iff (tr := tr) hft
  by_cases hlen : f.length < c + len
  · rw [if_pos hlen, hshort hlen]
  · rw [if_neg hlen]
    cases hk : kindOf H.ftype tr with
    | none => rw [if_pos (hlist.1 hk), hnone (Nat.not_lt.1 hlen) hk]
    | some k =>
      obtain ⟨hkind, hklen⟩ := hsome k (Nat.not_lt.1 hlen) hk
      rw [if_neg fun h => by simp [hlist.2 h] at hk, hkind, rejection_decodeKind, hklen]
      simp only [hasSize_iff_of_kindOf hk, payloadRule_span_iff_of_kindOf hk, payloadRule_len_iff_of_kindOf hk]
      rfl

/-- A frame whose header is refused is refused for the same reason (rule R122). -/
theorem rejection_decodePacket_of_error {pr : Params} {f : Frame} {e : DecodeError} (h : decodeHeader pr f = .error e) :
    rejection (decodePacket pr f) = some e := by
  simp only [decodePacket, h, rejection_error]

/-- Settles O10: the header's tests come first, in the order of `decodeHeader_cases`; a header that passes leaves the
body's. -/
theorem decoderRejectsExactlyTheListedCases : Obligations.DecoderRejectsExactlyTheListedCases := by
  intro pr f tt ftype hdr len tr cnt
  refine Eq.trans (b := rejection (decodePacket pr f)) (by cases decodePacket pr f <;> rfl) ?_
  rcases decodeHeader_cases pr f with ⟨hmax, e⟩ | ⟨hmax, hpos, e⟩ | ⟨hmax, hpos, htt, e⟩ | ⟨hmax, hpos, htt, hft, e⟩ |
    ⟨hmax, hpos, htt, ⟨l, hl⟩, hids, e⟩ | ⟨hmax, hpos, htt, ⟨l, hl⟩, hids, e⟩
  · rw [rejection_decodePacket_of_error e, if_pos hmax]
  · rw [rejection_decodePacket_of_error e, if_neg (by omega), if_pos (by omega)]
  · rw [rejection_decodePacket_of_error e, if_neg (by omega), if_neg (by omega), if_pos htt]
  · rw [rejection_decodePacket_of_error e, if_neg (by omega), if_neg (by omega), if_neg (Nat.ne_of_lt htt),
      if_pos (logicalLen_eq_none_iff.1 hft)]
  · have hlisted := not_not_intro (mem_of_logicalLen hl)
    rw [rejection_decodePacket_of_error e, if_neg (by omega), if_neg (by omega), if_neg (Nat.ne_of_lt htt), if_neg hlisted,
      if_pos (show f.length < hdr from hids)]
  · have hlisted := not_not_intro (mem_of_logicalLen hl)
    rw [decodePacket_of_header e, if_neg (by omega), if_neg (by omega), if_neg (Nat.ne_of_lt htt), if_neg hlisted,
      if_neg (show ¬ f.length < hdr from Nat.not_lt.2 hids)]
    exact rejection_decodeBody_listed pr f (commonLen tt) (mem_of_logicalLen hl)

end Sys2Proof
end

section
/-! SUPPORT. How long a frame is: the header's bounds, the shortest frame that decodes and the longest that encodes (rule
R103). -/

namespace Sys2Proof

/-! ### The bounds -/

/-- The longest header has 32-bit IDs and a 6-byte logical header (rules R84, R85). -/
theorem headerLen_le {tt : Nat} (h : tt < 3) (k : Kind) : commonLen tt + k.layout.len ≤ 15 := by
  have hcommon : commonLen tt ≤ 9 := by interval_cases tt <;> decide
  have hlayout : k.layout.len ≤ 6 := by cases k <;> decide
  omega

/-- The shortest header has 8-bit IDs and a 2-byte logical header (rules R84, R85). -/
theorem le_headerLen (tt : Nat) (k : Kind) : 5 ≤ commonLen tt + k.layout.len := by
  have hids : 1 ≤ idBytes tt := Nat.one_le_two_pow
  have hlayout : 2 ≤ k.layout.len := by cases k <;> decide
  unfold commonLen
  omega

/-- A payload that passes the encoder's test is no longer than the largest (rule R123). -/
theorem payloadLen_le_of_payloadFits {pr : Params} {rule : PayloadRule} {P : Packet} (h : payloadFits pr rule P = true) :
    P.payloadLen ≤ pr.maxPayloadDw := by
  obtain ⟨-, hle⟩ := Bool.and_eq_true_iff.1 h
  exact of_decide_eq_true hle

/-- What decodes is at least the shortest header (rule R103). -/
theorem five_le_of_decode {pr : Params} {f : Frame} {i : Instr} {n : Nat} (h : decode pr f = .ok (i, n)) :
    5 ≤ n ∧ n ≤ f.length := by
  obtain ⟨P, _, hdec, -, -⟩ := decode_ok h
  obtain ⟨-, k, -, -, -, hn, hnf, -⟩ := decodePacket_parts hdec
  exact ⟨(le_headerLen P.tt k).trans hn, hnf⟩

/-- What encodes is at most the longest header and the largest payload (rule R103). -/
theorem length_le_of_encode {pr : Params} {i : Instr} {f : Frame} (h : encode pr i = .ok f) :
    f.length ≤ 15 + 8 * pr.maxPayloadDw := by
  obtain ⟨k, code, htt, -, -, -, -, -, -, hpay, -, rfl⟩ := encodePacket_ok h
  have hhead := headerLen_le htt k
  have hlen := payloadLen_le_of_payloadFits hpay
  rw [length_frameOf]
  omega

/-! ### The bounds are attained -/

/-- A frame of 5 bytes for each of the two kinds with 8-bit IDs, a 2-byte logical header and no payload. -/
theorem shortest_frames_decode {pr : Params} (h : 5 ≤ pr.maxFrameBytes) :
    decode pr [0x0D, 0, 0, 0, 0] = .ok (.respNodata ⟨0, .w8, 0, 0⟩ 0 0, 5) ∧
      decode pr [0x0B, 0, 0, 0, 0] = .ok (.message ⟨0, .w8, 0, 0⟩ 0 0 0 0 0 [], 5) := by
  have hresp : decodeHeader pr [0x0D, 0, 0, 0, 0] = .ok ({ ftype := 13 }, 3) := if_neg (Nat.not_lt.2 h)
  have hmsg : decodeHeader pr [0x0B, 0, 0, 0, 0] = .ok ({ ftype := 11 }, 3) := if_neg (Nat.not_lt.2 h)
  constructor
  · rw [decode, decodePacket_of_header hresp]
    rfl
  · rw [decode, decodePacket_of_header hmsg]
    rfl

/-- The instruction of the longest frame: 32-bit IDs, a 6-byte logical header, and as much payload as there may be. -/
def longestInstr (pr : Params) : Instr :=
  .maintRdResp ⟨0, .w32, 0, 0⟩ 0 0 0 (List.replicate pr.maxPayloadDw 0)

theorem payloadLen_longestInstr (pr : Params) : (longestInstr pr).toPacket.payloadLen = pr.maxPayloadDw :=
  List.length_replicate

theorem length_frameOf_longestInstr (pr : Params) :
    (frameOf .maintRdResp (longestInstr pr).toPacket (0, 0)).length = 15 + 8 * pr.maxPayloadDw := by
  rw [length_frameOf, payloadLen_longestInstr]
  rfl

/-- The longest frame encodes where it is no longer than a frame may be (rules R5, R123). -/
theorem encode_longestInstr {pr : Params} (h : 15 + 8 * pr.maxPayloadDw ≤ pr.maxFrameBytes) :
    encode pr (longestInstr pr) = .ok (frameOf .maintRdResp (longestInstr pr).toPacket (0, 0)) :=
  encodePacket_of_checks (idWidth_tt_lt .w32) rfl (Nat.two_pow_pos 2) (Nat.two_pow_pos _) (Nat.two_pow_pos _) rfl rfl
    (payloadFits_len.2 (payloadLen_longestInstr pr).le) ((length_frameOf_longestInstr pr).trans_le h)

/-- Settles O12: the two bounds, the two 5-byte frames, and the longest header with the largest payload behind it. -/
theorem frameLengthBounds : Obligations.FrameLengthBounds := by
  refine ⟨fun pr f i n h => ?_, fun pr hlegal k hk => ?_, fun w k => headerLen_le (idWidth_tt_lt w) k,
    ⟨.w32, .maintRdResp, rfl⟩, fun pr i f => length_le_of_encode, fun pr hlegal => ?_⟩
  · obtain ⟨hn, hnf⟩ := five_le_of_decode h
    exact ⟨hn, hn.trans hnf⟩
  · obtain ⟨-, -, -, -, -, hmax⟩ := hlegal
    obtain ⟨hresp, hmsg⟩ := shortest_frames_decode (pr := pr) (by omega)
    simp only [List.mem_cons, List.not_mem_nil, or_false] at hk
    rcases hk with rfl | rfl
    · exact ⟨_, _, rfl, rfl, hresp⟩
    · exact ⟨_, _, rfl, rfl, hmsg⟩
  · obtain ⟨-, -, -, -, -, hmax⟩ := hlegal
    exact ⟨hmax, _, _, encode_longestInstr hmax, length_frameOf_longestInstr pr⟩

end Sys2Proof
end

section
/-! SUPPORT. The small helpers of the codec: the size table, the worked frames, the address conversions and the span mask
(rules R97, R125, R126, R128). -/

namespace Sys2Proof

open Sys2Proof.Machine

/-! ### The size table -/

/-- The rows of rule R97, each a code with its span. -/
def sizeRows : List (Nat × Nat × Nat × Nat) :=
  sizeCodes.map fun c => (c.1, c.2, (sizeDecode c.1 c.2).rdwrBytes, (sizeDecode c.1 c.2).dwOffset)

theorem sizeCodes_lt : ∀ c ∈ sizeCodes, c.1 < 16 ∧ c.2 < 2 := by decide

/-- A span with a code stands in the row of that code (rule R128). -/
theorem mem_sizeRows_of_sizeEncode {sp : Span} {c : Nat × Nat} (h : sizeEncode sp = some c) :
    (c.1, c.2, sp.rdwrBytes, sp.dwOffset) ∈ sizeRows := by
  obtain ⟨rfl, -, -⟩ := sizeDecode_of_sizeEncode h
  exact List.mem_map_of_mem (List.mem_of_find?_eq_some h)

/-- Settles O11: the written table is `sizeRows`, and each row's code and span are looked up from each other. -/
theorem sizeTableIsABijection : Obligations.SizeTableIsABijection := by
  unfold Obligations.SizeTableIsABijection
  intro table
  have hrows : table = sizeRows := by decide
  refine ⟨fun r hr => ?_, fun sp c h => ?_, fun sz wp => sizeEncode_sizeDecode⟩
  · rw [hrows] at hr
    obtain ⟨c, hc, rfl⟩ := List.mem_map.1 hr
    obtain ⟨hsz, hwp⟩ := sizeCodes_lt c hc
    exact ⟨rfl, sizeEncode_sizeDecode hsz hwp⟩
  · exact ⟨(sizeDecode_of_sizeEncode h).1, hrows ▸ mem_sizeRows_of_sizeEncode h⟩

/-! ### Worked frames and addresses -/

/-- Settles O13: the decoder run on each of the six frames. -/
theorem workedFramesDecode : Obligations.WorkedFramesDecode :=
  ⟨rfl, rfl, rfl, rfl, rfl, rfl⟩

theorem byteToDw_eq (b : Nat) : byteToDw b = b / 8 := Nat.shiftRight_eq_div_pow b 3

theorem dwToByte_eq (d : Nat) : dwToByte d = 8 * d := (Nat.shiftLeft_eq d 3).trans (Nat.mul_comm d 8)

theorem wordToDw_eq (w : Nat) : wordToDw w = w / 2 := Nat.shiftRight_eq_div_pow w 1

theorem wordToByte_eq (w : Nat) : wordToByte w = 4 * w := (Nat.shiftLeft_eq w 2).trans (Nat.mul_comm w 4)

/-- Settles O14: with the shifts written as products and quotients, the rest is arithmetic. -/
theorem addressHelpersConvertExactly : Obligations.AddressHelpersConvertExactly := by
  refine ⟨byteToDw_eq, dwToByte_eq, fun _ => rfl, wordToDw_eq, wordToByte_eq, fun b => ?_, fun d => ?_, fun d => ⟨?_, ?_⟩⟩
  · rw [dwToByte_eq, byteToDw_eq]
    omega
  · rw [byteToDw_eq, dwToByte_eq]
    omega
  · rw [wordToDw_eq, dwToWord]
    omega
  · rw [wordToByte_eq, dwToByte_eq, dwToWord]
    omega

/-! ### The span mask -/

/-- A run of `n` ones from bit `p` on, as a number. -/
theorem testBit_ones_shiftLeft (n p k : Nat) :
    (((1 <<< n) - 1) <<< p).testBit k = decide (p ≤ k ∧ k < p + n) := by
  rw [Nat.one_shiftLeft, Nat.testBit_shiftLeft, Nat.testBit_two_pow_sub_one, ← Bool.decide_and]
  exact decide_eq_decide.2 (by omega)

/-- The mask of a span inside one double-word selects its bytes (rule R125). -/
theorem rdwrDwMaskFromSpan_of_inside {b o : Nat} (hb : 1 ≤ b) (hb' : b ≤ 8) (ho : o + b ≤ 8) :
    ∃ m, rdwrDwMaskFromSpan b o = .ok m ∧ ∀ k, k < 64 → m.getLsbD k = decide (8 * o ≤ k ∧ k < 8 * (o + b)) := by
  by_cases h8 : b ≤ 7
  · refine ⟨_, if_pos ⟨hb, h8, ho⟩, fun k hk => ?_⟩
    rw [BitVec.getLsbD_ofNat, testBit_ones_shiftLeft, decide_eq_true hk, Bool.true_and]
    exact decide_eq_decide.2 (by omega)
  · obtain ⟨rfl, rfl⟩ : b = 8 ∧ o = 0 := by omega
    exact ⟨BitVec.allOnes 64, rfl, fun k hk => BitVec.getLsbD_allOnes.trans (decide_eq_decide.2 (by omega))⟩

/-- The mask of whole double-words is all ones (rule R125). -/
theorem rdwrDwMaskFromSpan_of_whole {b : Nat} (hb : 8 ≤ b) (h8 : b % 8 = 0) :
    rdwrDwMaskFromSpan b 0 = .ok (BitVec.allOnes 64) :=
  (if_neg (by omega)).trans (if_pos ⟨hb, h8, rfl⟩)

/-- Every span of the size table lies inside one double-word or is whole double-words (rule R97). -/
theorem sizeDecode_inside_or_whole : ∀ sz < 16, ∀ wp < 2,
    let sp := sizeDecode sz wp
    1 ≤ sp.rdwrBytes ∧ sp.rdwrBytes ≤ 8 ∧ sp.dwOffset + sp.rdwrBytes ≤ 8 ∨
      8 ≤ sp.rdwrBytes ∧ sp.rdwrBytes % 8 = 0 ∧ sp.dwOffset = 0 := by
  decide

/-- Settles O15: the two kinds of span that have a mask, one of which every size code gives, and no others. -/
theorem maskSelectsTheBytesOfTheSpan : Obligations.MaskSelectsTheBytesOfTheSpan := by
  refine ⟨fun b o => rdwrDwMaskFromSpan_of_inside, fun b => rdwrDwMaskFromSpan_of_whole, fun sz wp hs hw => ?_,
    fun b o hin hwhole => (if_neg hin).trans (if_neg hwhole)⟩
  rcases sizeDecode_inside_or_whole sz hs wp hw with ⟨h1, h8, ho⟩ | ⟨h8, hmod, ho⟩
  · obtain ⟨m, hm, -⟩ := rdwrDwMaskFromSpan_of_inside h1 h8 ho
    exact ⟨m, hm⟩
  · rw [ho]
    exact ⟨_, rdwrDwMaskFromSpan_of_whole h8 hmod⟩

end Sys2Proof
end

section
/-! SUPPORT. The common header, on the bytes of the frame (rules R82 to R84, R120). -/

namespace Sys2Proof

/-! ### Fields that are whole bytes, and the fields of the first byte -/

/-- A field that spans all of a byte sequence is the number it spells. -/
theorem bits_whole (x : Frame) : bits x 0 (8 * x.length) = beNat x := by
  rw [bits, Nat.zero_add, Nat.sub_self, Nat.pow_zero, Nat.div_one, two_pow_eight_mul, Nat.mod_eq_of_lt (beNat_lt x)]

/-- A field of whole bytes is the number those bytes spell (rule R50). -/
theorem bits_bytes {f : Frame} {q n : Nat} (h : q + n ≤ f.length) :
    bits f (8 * q) (8 * n) = beNat ((f.drop q).take n) := by
  have hn : ((f.drop q).take n).length = n := by simp; omega
  have hq : (f.take q).length = q := by simp; omega
  calc bits f (8 * q) (8 * n)
      = bits (f.take q ++ f.drop q) (8 * (f.take q).length + 0) (8 * n) := by rw [List.take_append_drop, hq, Nat.add_zero]
    _ = bits ((f.drop q).take n ++ (f.drop q).drop n) 0 (8 * n) := by
        rw [bits_append_right _ (by simp; omega), List.take_append_drop]
    _ = beNat ((f.drop q).take n) := by rw [bits_append_left _ (by omega), ← bits_whole, hn]

/-- The fields of the first byte (rule R82). -/
theorem bits_firstByte (b : Byte) (rest : Frame) :
    bits (b :: rest) 0 2 = b.toNat / 64 ∧ bits (b :: rest) 2 2 = b.toNat / 16 % 4 ∧
      bits (b :: rest) 4 4 = b.toNat % 16 := by
  have hb := b.isLt
  have hfield : ∀ p w, p + w ≤ 8 → bits (b :: rest) p w = b.toNat / 2 ^ (8 - (p + w)) % 2 ^ w := fun p w h => by
    rw [← List.singleton_append, bits_append_left rest h]
    simp [bits, beNat]
  exact ⟨(hfield 0 2 (by omega)).trans (Nat.mod_eq_of_lt (by omega)), hfield 2 2 (by omega),
    (hfield 4 4 (by omega)).trans (by simp)⟩

/-- A field that ends before byte `c` is a field of the first `c` bytes. -/
theorem bits_take {f : Frame} {c p w : Nat} (hc : c ≤ f.length) (hp : p + w ≤ 8 * c) :
    bits (f.take c) p w = bits f p w := by
  conv_rhs => rw [← List.take_append_drop c f]
  exact (bits_append_left _ (by simp; omega)).symm

/-! ### The header -/

/-- The decoder of the common header, on a frame that is not empty and not too long (rules R83 to R85, R120). -/
theorem decodeHeader_cons {pr : Params} {b : Byte} {rest : Frame} (hmax : (b :: rest).length ≤ pr.maxFrameBytes) :
    let tt := b.toNat / 16 % 4
    let ftype := b.toNat % 16
    decodeHeader pr (b :: rest) =
      if tt = 3 then .error .badTt
      else if ftype ∉ [2, 5, 6, 8, 10, 11, 13] then .error .badFtype
      else if (b :: rest).length < commonLen tt then .error .truncated
      else
        .ok ({ prio := b.toNat / 64, tt := tt, ftype := ftype, destId := beNat (rest.take (idBytes tt)),
               srcId := beNat ((rest.drop (idBytes tt)).take (idBytes tt)) }, commonLen tt) := by
  intro tt ftype
  obtain ⟨hprio, htt, hft⟩ := bits_firstByte b rest
  simp only [decodeHeader, hprio, htt, hft]
  rw [if_neg (Nat.not_lt.2 hmax), if_neg (by simp)]
  refine if_congr Iff.rfl rfl (if_congr logicalLen_eq_none_iff rfl ?_)
  by_cases hids : (b :: rest).length < commonLen tt
  · exact (if_pos hids).trans (if_pos hids).symm
  · have hc : commonLen tt = 1 + 2 * idBytes tt := rfl
    have hdest : bits (b :: rest) 8 (8 * idBytes tt) = beNat (rest.take (idBytes tt)) := bits_bytes (q := 1) (by omega)
    have hsrc : bits (b :: rest) (8 + 8 * idBytes tt) (8 * idBytes tt) =
        beNat ((rest.drop (idBytes tt)).take (idBytes tt)) := by
      rw [show 8 + 8 * idBytes tt = 8 * (idBytes tt + 1) by ring, bits_bytes (by omega), List.drop_succ_cons]
    rw [if_neg hids, if_neg hids, hdest, hsrc]

/-- Settles O8: each clause is a branch of `decodeHeader_cons`. -/
theorem headerDecodingFollowsTheBytes : Obligations.HeaderDecodingFollowsTheBytes := by
  intro pr f
  refine ⟨fun hmax => if_pos hmax, ?_, ?_⟩
  · rintro rfl
    exact if_neg (Nat.not_lt_zero _)
  · rintro b rest rfl hmax tt ftype idb
    rw [decodeHeader_cons hmax]
    refine ⟨fun htt => if_pos htt, fun htt hft => ?_, fun htt hft hlen => ?_, fun htt hft hlen => ?_⟩
    · exact (if_neg htt).trans (if_pos hft)
    · exact (if_neg htt).trans ((if_neg (not_not_intro hft)).trans (if_pos hlen))
    · exact (if_neg htt).trans ((if_neg (not_not_intro hft)).trans (if_neg (Nat.not_lt.2 hlen)))

/-- Settles O9: a field inside the common header is a field of the bytes the two frames share. -/
theorem headerDecodingReadsOnlyTheCommonHeader : Obligations.HeaderDecodingReadsOnlyTheCommonHeader := by
  intro pr f g H c h hmax hlen htake
  obtain ⟨-, -, -, -, hc, rfl, -⟩ := decodeHeader_ok h
  exact decodeHeader_congr h hmax hlen fun p w hp => by rw [← bits_take hlen hp, htake, bits_take hc hp]

end Sys2Proof
end

section
/-! SUPPORT. How a packet is built: the walk over a layout, read back field by field, then the span and the payload. The
decoder builds its packets so from a frame, and `canon` from another packet (rules R121, R124). -/

namespace Sys2Proof

/-! ### The common header -/

/-- The packet with nothing but the common header of another. -/
def Packet.common (P : Packet) : Packet :=
  { prio := P.prio, tt := P.tt, ftype := P.ftype, destId := P.destId, srcId := P.srcId }

theorem common_eq_iff {P Q : Packet} : P.common = Q.common ↔
    P.prio = Q.prio ∧ P.tt = Q.tt ∧ P.ftype = Q.ftype ∧ P.destId = Q.destId ∧ P.srcId = Q.srcId := by
  simp [Packet.common]

/-- The header of a frame holds a common header and nothing else (rule R120). -/
theorem common_of_decodeHeader {pr : Params} {f : Frame} {H : Packet} {c : Nat} (h : decodeHeader pr f = .ok (H, c)) :
    H.common = H := by
  obtain ⟨-, -, -, -, -, -, rfl⟩ := decodeHeader_ok h
  rfl

/-! ### The walk over a layout -/

/-- What a packet under construction holds of a field, the size code included. -/
def RawPacket.value (r : RawPacket) (fld : Field) : Nat :=
  fieldValue r.packet (r.size, r.wdptr) fld

/-- Read over write: a stored field reads back, and every other field is as it was (rules R96, R121). -/
theorem value_storeField (r : RawPacket) (fld fld' : Field) (v : Nat) :
    (storeField r fld v).value fld' = if fld' = fld ∧ fld ≠ .reserved then v else r.value fld' := by
  cases fld <;> cases fld' <;> rfl

/-- What no field of a layout touches: the common header, the span and the payload (rule R121). -/
theorem storeField_frame (r : RawPacket) (fld : Field) (v : Nat) :
    (storeField r fld v).packet.common = r.packet.common ∧ (storeField r fld v).packet.span = r.packet.span ∧
      (storeField r fld v).packet.payload = r.packet.payload := by
  cases fld <;> exact ⟨rfl, rfl, rfl⟩

/-- The walk over a layout that stores a given value for each line; `readFields` takes the values from a frame, `canon` from
a packet. -/
def storeFields (val : LayoutField → Nat) (fields : List LayoutField) (r : RawPacket) : RawPacket :=
  fields.foldl (fun r lf => storeField r lf.field (val lf)) r

theorem readFields_eq_storeFields (f : Frame) (c : Nat) (fields : List LayoutField) (r : RawPacket) :
    readFields f c fields r = storeFields (fun lf => bits f (8 * c + lf.offset) lf.width) fields r := rfl

theorem storeFields_frame (val : LayoutField → Nat) (fields : List LayoutField) (r : RawPacket) :
    (storeFields val fields r).packet.common = r.packet.common ∧ (storeFields val fields r).packet.span = r.packet.span ∧
      (storeFields val fields r).packet.payload = r.packet.payload := by
  induction fields generalizing r with
  | nil => exact ⟨rfl, rfl, rfl⟩
  | cons lf fields ih =>
    obtain ⟨hcommon, hspan, hpayload⟩ := ih (storeField r lf.field (val lf))
    obtain ⟨hcommon', hspan', hpayload'⟩ := storeField_frame r lf.field (val lf)
    exact ⟨hcommon.trans hcommon', hspan.trans hspan', hpayload.trans hpayload'⟩

theorem value_storeFields_of_notMem (val : LayoutField → Nat) {fields : List LayoutField} {fld : Field}
    (h : fld ∉ fields.map LayoutField.field) (r : RawPacket) : (storeFields val fields r).value fld = r.value fld := by
  induction fields generalizing r with
  | nil => rfl
  | cons lf fields ih =>
    obtain ⟨hne, hrest⟩ := not_or.1 (mt List.mem_cons.2 h)
    refine (ih hrest (storeField r lf.field (val lf))).trans ?_
    rw [value_storeField, if_neg fun hlf => hne hlf.1]

/-- Where no field stands twice, the walk leaves each of them at its value (rule R121). -/
theorem value_storeFields_of_mem (val : LayoutField → Nat) {fields : List LayoutField}
    (hnodup : (fields.map LayoutField.field).Nodup) {lf : LayoutField} (hlf : lf ∈ fields) (hres : lf.field ≠ .reserved)
    (r : RawPacket) : (storeFields val fields r).value lf.field = val lf := by
  induction fields generalizing r with
  | nil => cases hlf
  | cons x fields ih =>
    obtain ⟨hx, hrest⟩ := List.nodup_cons.1 hnodup
    rcases List.mem_cons.1 hlf with rfl | hlf
    · refine (value_storeFields_of_notMem val hx _).trans ?_
      rw [value_storeField, if_pos ⟨rfl, hres⟩]
    · exact ih hrest hlf _

/-- No layout has a field twice (rules R88 to R95). -/
theorem layout_fields_nodup (l : Layout) : (l.fields.map LayoutField.field).Nodup := by
  cases l <;> decide

/-- The walk depends on the values of the lines that are not reserved (rule R96). -/
theorem storeFields_congr {val val' : LayoutField → Nat} {fields : List LayoutField} (r : RawPacket)
    (h : ∀ lf ∈ fields, lf.field ≠ .reserved → val lf = val' lf) : storeFields val fields r = storeFields val' fields r := by
  refine List.foldl_ext _ _ _ fun r lf hlf => ?_
  by_cases hres : lf.field = .reserved
  · simp only [hres, storeField]
  · rw [h lf hlf hres]

/-- The size code goes to `size` and `wdptr`, not into the packet record (rule R121): one field, then the walk. -/
theorem storeField_packet_sizeCode (P : Packet) (code code' : Nat × Nat) (fld : Field) {r r' : RawPacket}
    (h : r.packet = r'.packet) :
    (storeField r fld (fieldValue P code fld)).packet = (storeField r' fld (fieldValue P code' fld)).packet := by
  cases fld <;> simp only [storeField, fieldValue, h]

theorem storeFields_packet_sizeCode (P : Packet) (code code' : Nat × Nat) (fields : List LayoutField) {r r' : RawPacket}
    (h : r.packet = r'.packet) :
    (storeFields (fun lf => fieldValue P code lf.field) fields r).packet =
      (storeFields (fun lf => fieldValue P code' lf.field) fields r').packet := by
  induction fields generalizing r r' with
  | nil => exact h
  | cons lf fields ih => exact ih (storeField_packet_sizeCode P code code' lf.field h)

/-- A layout with a size field takes up the size code of its lines (rules R88, R90). -/
theorem storeFields_sizeCode {l : Layout} (hl : l.hasSize = true) (P : Packet) (code : Nat × Nat) (r : RawPacket) :
    (storeFields (fun lf => fieldValue P code lf.field) l.fields r).size = code.1 ∧
      (storeFields (fun lf => fieldValue P code lf.field) l.fields r).wdptr = code.2 := by
  cases l with
  | req | mreq => exact ⟨rfl, rfl⟩
  | _ => cases hl

/-- What a packet under construction holds of a field does not hang on the size code, the size code itself apart. -/
theorem fieldValue_of_value {r : RawPacket} {P : Packet} {code : Nat × Nat} {fld : Field}
    (h : r.value fld = fieldValue P code fld) : fieldValue r.packet code fld = fieldValue P code fld := by
  cases fld with
  | size | wdptr => rfl
  | _ => exact h

/-! ### The span and the payload -/

/-- A packet with the span of its size code, where its layout has one (rules R97, R121). -/
def Packet.withSpanOf (Q : Packet) (l : Layout) (sp : Span) : Packet :=
  if l.hasSize then { Q with rdwrBytes := sp.rdwrBytes, dwOffset := sp.dwOffset } else Q

theorem withSpan_eq_withSpanOf (l : Layout) (r : RawPacket) :
    withSpan l r = r.packet.withSpanOf l (sizeDecode r.size r.wdptr) := rfl

theorem span_withSpanOf (Q : Packet) {l : Layout} (hl : l.hasSize = true) (sp : Span) : (Q.withSpanOf l sp).span = sp := by
  simp only [Packet.withSpanOf, hl, if_true, Packet.span]

/-- A packet with its payload put in as its payload rule has it: none, of the span's length, or the span of its length (rule
R99). -/
def Packet.withPayload (Q : Packet) (rule : PayloadRule) (pl : List DWord) : Packet :=
  match rule with
  | .noPayload => { Q with payload := [] }
  | .span => { Q with payload := pl }
  | .len => { Q with rdwrBytes := 8 * pl.length, dwOffset := 0, payload := pl }

/-- The packet of kind `k` that is built of a finished walk, a span and a payload. -/
def Packet.build (Q : Packet) (k : Kind) (sp : Span) (pl : List DWord) : Packet :=
  (Q.withSpanOf k.layout sp).withPayload k.payloadRule pl

theorem common_build (Q : Packet) (k : Kind) (sp : Span) (pl : List DWord) : (Q.build k sp pl).common = Q.common := by
  cases k <;> rfl

theorem fieldValue_build (Q : Packet) (k : Kind) (sp : Span) (pl : List DWord) (code : Nat × Nat) (fld : Field) :
    fieldValue (Q.build k sp pl) code fld = fieldValue Q code fld := by
  cases k <;> cases fld <;> rfl

theorem span_build (Q : Packet) {k : Kind} (hk : k.layout.hasSize = true) (sp : Span) (pl : List DWord) :
    (Q.build k sp pl).span = sp := by
  cases k with
  | nread | nwrite | nwriteR | maintRdReq | maintWrReq => rfl
  | _ => cases hk

theorem payload_build (Q : Packet) {k : Kind} (hk : k.payloadRule ≠ .noPayload) (sp : Span) (pl : List DWord) :
    (Q.build k sp pl).payload = pl := by
  cases k with
  | nread | maintRdReq | maintWrResp | doorbell | respNodata | respMsg => exact absurd rfl hk
  | _ => rfl

/-- The span is looked at where the layout has one, and the payload where the kind has one. -/
theorem build_congr (Q : Packet) {k : Kind} {sp sp' : Span} {pl pl' : List DWord} (hsp : k.layout.hasSize = true → sp = sp')
    (hpl : k.payloadRule ≠ .noPayload → pl = pl') : Q.build k sp pl = Q.build k sp' pl' := by
  cases k with
  | nread | maintRdReq => cases hsp rfl; rfl
  | nwrite | nwriteR | maintWrReq => cases hsp rfl; cases hpl (by decide); rfl
  | swrite | maintRdResp | message | respData => cases hpl (by decide); rfl
  | maintWrResp | doorbell | respNodata | respMsg => rfl

/-! ### The canonical form -/

/-- `canon` of a packet of kind `k`. -/
def Packet.canonAs (P : Packet) (k : Kind) : Packet :=
  (storeFields (fun lf => fieldValue P (0, 0) lf.field) k.layout.fields { packet := P.common }).packet.build k P.span P.payload

theorem canon_of_kindOf {P : Packet} {k : Kind} (hk : kindOf P.ftype P.transaction = some k) : canon P = P.canonAs k := by
  obtain ⟨-, hspan, hpayload⟩ :=
    storeFields_frame (fun lf => fieldValue P (0, 0) lf.field) k.layout.fields { packet := P.common }
  simp only [canon, hk, Packet.canonAs, storeFields, Packet.common] at hspan hpayload ⊢
  generalize List.foldl _ _ k.layout.fields = r at hspan hpayload ⊢
  obtain ⟨Q, _, _⟩ := r
  cases Q
  cases hspan
  cases hpayload
  cases k <;> rfl

theorem canon_of_kindOf_none {P : Packet} (hk : kindOf P.ftype P.transaction = none) : canon P = P := by
  simp only [canon, hk]

theorem common_canonAs (P : Packet) (k : Kind) : (P.canonAs k).common = P.common :=
  (common_build ..).trans (storeFields_frame ..).1

/-- The canonical form keeps the fields of its layout (rule R124). -/
theorem fieldValue_canonAs (P : Packet) {k : Kind} {lf : LayoutField} (hlf : lf ∈ k.layout.fields)
    (hres : lf.field ≠ .reserved) : fieldValue (P.canonAs k) (0, 0) lf.field = fieldValue P (0, 0) lf.field :=
  (fieldValue_build ..).trans (fieldValue_of_value (value_storeFields_of_mem _ (layout_fields_nodup _) hlf hres _))

/-- What the canonical form takes from a packet. -/
theorem canonAs_congr {P Q : Packet} {k : Kind} (hcommon : Q.common = P.common)
    (hfields : ∀ lf ∈ k.layout.fields, lf.field ≠ .reserved → fieldValue Q (0, 0) lf.field = fieldValue P (0, 0) lf.field)
    (hspan : k.layout.hasSize = true → Q.span = P.span) (hpayload : k.payloadRule ≠ .noPayload → Q.payload = P.payload) :
    Q.canonAs k = P.canonAs k := by
  unfold Packet.canonAs
  rw [storeFields_congr _ hfields, hcommon, build_congr _ hspan hpayload]

theorem canonAs_canonAs (P : Packet) (k : Kind) : (P.canonAs k).canonAs k = P.canonAs k :=
  canonAs_congr (common_canonAs P k) (fun _ => fieldValue_canonAs P) (fun hk => span_build _ hk ..)
    fun hk => payload_build _ hk ..

/-- Every kind whose lookup needs a transaction has it as its first field (rules R86, R88 to R95). -/
theorem transaction_mem_fields {k : Kind} (hk : k.ftype ≠ 6 ∧ k.ftype ≠ 10 ∧ k.ftype ≠ 11) :
    ⟨0, 4, .transaction⟩ ∈ k.layout.fields := by
  cases k with
  | swrite | doorbell | message => simp [Kind.ftype] at hk
  | _ => decide

/-- The canonical form of a packet has the packet's kind (rule R124). -/
theorem kindOf_canonAs {P : Packet} {k : Kind} (hk : kindOf P.ftype P.transaction = some k) :
    kindOf (P.canonAs k).ftype (P.canonAs k).transaction = some k := by
  obtain ⟨-, -, hft, -, -⟩ := common_eq_iff.1 (common_canonAs P k)
  rw [hft]
  by_cases hany : P.ftype = 6 ∨ P.ftype = 10 ∨ P.ftype = 11
  · rw [kindOf_any_transaction hany _ P.transaction, hk]
  · have hmem := transaction_mem_fields (k := k) (by rw [ftype_of_kindOf hk]; simpa using hany)
    have htr : (P.canonAs k).transaction = P.transaction := fieldValue_canonAs P hmem (by decide)
    rw [htr, hk]

/-- `canon` is idempotent (rule R124, item 3). -/
theorem canon_canon (P : Packet) : canon (canon P) = canon P := by
  cases hk : kindOf P.ftype P.transaction with
  | none => rw [canon_of_kindOf_none hk, canon_of_kindOf_none hk]
  | some k => rw [canon_of_kindOf hk, canon_of_kindOf (kindOf_canonAs hk), canonAs_canonAs]

/-- The packet of an instruction holds nothing outside the layout of its kind. -/
theorem canonAs_toPacket (i : Instr) : i.toPacket.canonAs i.kind = i.toPacket := by
  cases i <;>
    simp [Packet.canonAs, storeFields, storeField, fieldValue, Packet.build, Packet.withSpanOf, Packet.withPayload,
      Packet.common, Packet.span, Instr.toPacket, headerPacket, Instr.kind, Kind.layout, Kind.payloadRule, Kind.ftype,
      Kind.transaction, Layout.fields, Layout.hasSize]

theorem canon_toPacket (i : Instr) : canon i.toPacket = i.toPacket := by
  rw [canon_of_kindOf (kindOf_toPacket i), canonAs_toPacket]

end Sys2Proof
end

section
/-! SUPPORT. What the decoder makes of a frame the encoder wrote (rule R124, item 1). -/

namespace Sys2Proof

/-- A frame the encoder wrote has the packet's common header (rules R82 to R84, R120). -/
theorem decodeHeader_frameOf {pr : Params} {P : Packet} {k : Kind} {code : Nat × Nat} (htt : P.tt < 3) (hprio : P.prio < 4)
    (hft : k.ftype = P.ftype) (hdest : P.destId < 2 ^ (8 * idBytes P.tt)) (hsrc : P.srcId < 2 ^ (8 * idBytes P.tt))
    (hmax : (frameOf k P code).length ≤ pr.maxFrameBytes) :
    decodeHeader pr (frameOf k P code) = .ok (P.common, commonLen P.tt) := by
  obtain ⟨eprio, ett, eft⟩ := frame_head (k := k) (P := P) (code := code) hprio (by omega) (hft ▸ kind_ftype_lt k)
  obtain ⟨edest, esrc⟩ := frame_ids (k := k) (code := code) hdest hsrc
  have hlen := length_frameOf k P code
  have hc : commonLen P.tt = 1 + 2 * idBytes P.tt := rfl
  have hl : logicalLen P.ftype = some k.layout.len := hft ▸ logicalLen_kind k
  simp only [decodeHeader, ett, eft, eprio, edest, esrc, hl, reduceCtorEq, if_false]
  rw [if_neg (by omega), if_neg (by omega), if_neg (by omega), if_neg (by omega)]
  rfl

/-- The body of a frame the encoder wrote is looked up as the packet's kind (rule R127). -/
theorem kindOf_frameOf {P : Packet} {k : Kind} {code : Nat × Nat} (hk : kindOf P.ftype P.transaction = some k)
    (hfit : fieldsFit P code k.layout.fields = true) :
    kindOf P.ftype (bits (frameOf k P code) (8 * commonLen P.tt) 4) = some k := by
  by_cases hany : P.ftype = 6 ∨ P.ftype = 10 ∨ P.ftype = 11
  · rw [kindOf_any_transaction hany _ P.transaction, hk]
  · have hmem := transaction_mem_fields (k := k) (by rw [ftype_of_kindOf hk]; simpa using hany)
    have htr : bits (frameOf k P code) (8 * commonLen P.tt) 4 = P.transaction := frame_field hfit hmem
    rw [htr, hk]

/-- The size code the encoder finds stands for the packet's span (rules R123, R128). -/
theorem sizeDecode_of_spanCode {pr : Params} {l : Layout} {P : Packet} {code : Nat × Nat} (h : spanCode pr l P = some code)
    (hl : l.hasSize = true) : sizeDecode code.1 code.2 = P.span ∧ divCeil8 P.rdwrBytes ≤ pr.maxPayloadDw := by
  rcases spanCode_some h with ⟨-, hc, hle⟩ | ⟨hl', -⟩
  · exact ⟨(sizeDecode_of_sizeEncode hc).1, hle⟩
  · simp [hl] at hl'

/-- The payload part, on a frame that ends with the payload of a packet that passes the encoder's test (rules R99, R121). -/
theorem decodePayload_of_reads {pr : Params} {rule : PayloadRule} {P Q : Packet} {f : Frame} {q : Nat}
    (hfits : payloadFits pr rule P = true) (hspan : rule = .span → Q.rdwrBytes = P.rdwrBytes)
    (hread : readPayload f q P.payloadLen = P.payload) (hlen : f.length = q + 8 * P.payloadLen) :
    decodePayload pr rule Q f q = .ok (Q.withPayload rule P.payload, f.length) := by
  have hle := payloadLen_le_of_payloadFits hfits
  have hcnt : (f.length - q) / 8 = P.payloadLen := by omega
  rcases decodePayload_cases pr rule Q f q with ⟨rfl, e⟩ | ⟨rfl, hlt, -⟩ | ⟨rfl, -, e⟩ | ⟨-, hlt, -⟩ | ⟨rfl, -, e⟩
  · rw [e, hlen, payloadFits_noPayload.1 hfits]
    rfl
  · obtain ⟨hP, -⟩ := payloadFits_span.1 hfits
    rw [hspan rfl] at hlt
    omega
  · obtain ⟨hP, -⟩ := payloadFits_span.1 hfits
    rw [← hspan rfl] at hP
    rw [e, ← hP, hread, hlen]
    rfl
  · omega
  · rw [e, hcnt, hread, hlen]
    rfl

/-- The walk and the span of a frame the encoder wrote are those of the canonical form (rules R121, R123, R124). -/
theorem withSpan_frameOf {pr : Params} {P : Packet} {k : Kind} {code : Nat × Nat}
    (hcode : spanCode pr k.layout P = some code) (hfit : fieldsFit P code k.layout.fields = true) :
    withSpan k.layout (readFields (frameOf k P code) (commonLen P.tt) k.layout.fields { packet := P.common }) =
      (storeFields (fun lf => fieldValue P (0, 0) lf.field) k.layout.fields { packet := P.common }).packet.withSpanOf
        k.layout P.span := by
  rw [readFields_congr (val := fieldValue P code) _ fun _ hlf => frame_field hfit hlf, withSpan_eq_withSpanOf,
    storeFields_packet_sizeCode P (0, 0) code k.layout.fields (r' := { packet := P.common }) rfl]
  by_cases hl : k.layout.hasSize = true
  · obtain ⟨hsz, hwp⟩ := storeFields_sizeCode hl P code { packet := P.common }
    obtain ⟨hdec, -⟩ := sizeDecode_of_spanCode hcode hl
    rw [← hdec, ← hsz, ← hwp]
    rfl
  · simp only [Packet.withSpanOf, hl, if_false, Bool.false_eq_true]
    rfl

/-- The body of a frame the encoder wrote decodes to the canonical form of the packet (rules R121, R123, R124). -/
theorem decodeKind_frameOf {pr : Params} {P : Packet} {k : Kind} {code : Nat × Nat}
    (hcode : spanCode pr k.layout P = some code) (hfit : fieldsFit P code k.layout.fields = true)
    (hpay : payloadFits pr k.payloadRule P = true) :
    decodeKind pr k P.common (frameOf k P code) (commonLen P.tt) = .ok (P.canonAs k, (frameOf k P code).length) := by
  have hbytes : ∀ Q : Packet, k.layout.hasSize = true → (Q.withSpanOf k.layout P.span).rdwrBytes = P.rdwrBytes :=
    fun Q hl => congrArg Span.rdwrBytes (span_withSpanOf Q hl P.span)
  simp only [decodeKind, withSpan_frameOf hcode hfit]
  rw [if_neg, decodePayload_of_reads hpay (fun hr => hbytes _ (hasSize_of_payloadRule_span hr)) (frame_payload k P code)
    (length_frameOf k P code)]
  · rfl
  · rintro ⟨hl, hlt⟩
    obtain ⟨-, hle⟩ := sizeDecode_of_spanCode hcode hl
    rw [hbytes _ hl] at hlt
    omega

/-- Settles O4: header, kind and body of the encoded frame read back, and what is built of them is the canonical form. -/
theorem encodedPacketDecodesToItsCanon : Obligations.EncodedPacketDecodesToItsCanon := by
  intro pr P f h
  obtain ⟨k, code, htt, hk, hprio, hdest, hsrc, hcode, hfit, hpay, hmax, rfl⟩ := encodePacket_ok h
  have hhead := decodeHeader_frameOf htt hprio (ftype_of_kindOf hk) hdest hsrc hmax
  have hlen := length_frameOf k P code
  have hbody := kindOf_frameOf hk hfit
  rw [decodePacket_of_header hhead, decodeBody_of_kind (H := P.common) hbody (by omega), decodeKind_frameOf hcode hfit hpay,
    canon_of_kindOf hk]

end Sys2Proof
end

section
/-! SUPPORT. What the encoder makes of a packet that decoded (rule R124, items 2 and 3). -/

namespace Sys2Proof

/-! ### The packet a frame decodes to -/

/-- A payload that is read stands behind the header, and the count is that of the bytes up to its end (rules R99, R121). -/
theorem decodePayload_ok {pr : Params} {rule : PayloadRule} {P Q : Packet} {f : Frame} {q n : Nat}
    (h : decodePayload pr rule Q f q = .ok (P, n)) :
    P = Q.withPayload rule P.payload ∧ n = q + 8 * P.payloadLen ∧ P.payload = readPayload f q P.payloadLen := by
  rcases decodePayload_cases pr rule Q f q with ⟨rfl, e⟩ | ⟨-, -, e⟩ | ⟨rfl, -, e⟩ | ⟨-, -, e⟩ | ⟨rfl, -, e⟩ <;>
    cases e.symm.trans h
  · exact ⟨rfl, rfl, rfl⟩
  · simp only [Packet.withPayload, Packet.payloadLen, length_readPayload, and_self]
  · simp only [Packet.withPayload, Packet.payloadLen, length_readPayload, and_self]

/-- The body a frame decodes to, as it is built (rule R121). -/
theorem decodeKind_build {pr : Params} {k : Kind} {H P : Packet} {f : Frame} {c n : Nat}
    (h : decodeKind pr k H f c = .ok (P, n)) :
    let r := readFields f c k.layout.fields { packet := H }
    P = r.packet.build k (sizeDecode r.size r.wdptr) P.payload ∧ n = c + k.layout.len + 8 * P.payloadLen ∧
      P.payload = readPayload f (c + k.layout.len) P.payloadLen := by
  obtain ⟨Q, rfl, -, hp⟩ := decodeKind_ok h
  exact decodePayload_ok hp

theorem decodeKind_field {pr : Params} {k : Kind} {H P : Packet} {f : Frame} {c n : Nat}
    (h : decodeKind pr k H f c = .ok (P, n)) {lf : LayoutField} (hlf : lf ∈ k.layout.fields) (hres : lf.field ≠ .reserved) :
    let r := readFields f c k.layout.fields { packet := H }
    fieldValue P (r.size, r.wdptr) lf.field = bits f (8 * c + lf.offset) lf.width := by
  intro r
  obtain ⟨hP, -, -⟩ := decodeKind_build h
  rw [hP, fieldValue_build]
  exact value_storeFields_of_mem _ (layout_fields_nodup _) hlf hres _

/-- The common header of a packet is that of its frame (rules R120, R121). -/
theorem decodeKind_common {pr : Params} {k : Kind} {H P : Packet} {f : Frame} {c n : Nat}
    (h : decodeKind pr k H f c = .ok (P, n)) : P.common = H.common := by
  obtain ⟨hP, -, -⟩ := decodeKind_build h
  rw [hP, common_build]
  exact (storeFields_frame ..).1

/-- A packet that decoded is its own canonical form (rule R124, item 3). -/
theorem canonAs_of_decodeKind {pr : Params} {k : Kind} {H P : Packet} {f : Frame} {c n : Nat}
    (h : decodeKind pr k H f c = .ok (P, n)) (hH : H.common = H) : P.canonAs k = P := by
  obtain ⟨hP, -, -⟩ := decodeKind_build h
  have hwalk : (storeFields (fun lf => fieldValue P (0, 0) lf.field) k.layout.fields { packet := P.common }).packet =
      (readFields f c k.layout.fields { packet := H }).packet := by
    rw [storeFields_packet_sizeCode P (0, 0) _ _ rfl, storeFields_congr _ fun _ => decodeKind_field h, decodeKind_common h, hH,
      readFields_eq_storeFields]
  conv_rhs => rw [hP]
  rw [Packet.canonAs, hwalk]
  refine build_congr _ (fun hk => ?_) fun _ => rfl
  rw [hP, span_build _ hk]

/-- Settles O6: `canon_canon`, and the packet of a frame by `canonAs_of_decodeKind`. -/
theorem canonIsANormalForm : Obligations.CanonIsANormalForm := by
  refine ⟨canon_canon, fun pr f P n h => ?_⟩
  obtain ⟨H, k, hhead, hk, -, -, -, hkind⟩ := decodePacket_parts h
  rw [canon_of_kindOf hk, canonAs_of_decodeKind hkind (common_of_decodeHeader hhead)]

end Sys2Proof
end

section
/-! SUPPORT. The encoder on a packet that decoded: it writes the frame's own bits, the reserved ones cleared (rule R124, item
2). -/

namespace Sys2Proof

/-! ### Bits of equal fields -/

/-- Where two frames hold the same field, they have the same bits (the converse of `bits_congr`). -/
theorem bit_eq_of_bits_eq {f g : Frame} {p w b : Nat} (hf : p + w ≤ 8 * f.length) (hg : p + w ≤ 8 * g.length)
    (h : bits g p w = bits f p w) (hb : p ≤ b) (hb' : b < p + w) : bits g b 1 = bits f b 1 := by
  have hj : p + w - 1 - (p + w - 1 - b) = b := by omega
  have htest := congrArg (fun v => v.testBit (p + w - 1 - b)) h
  simp only [testBit_bits hf, testBit_bits hg, hj, show p + w - 1 - b < w by omega, decide_true, Bool.true_and,
    decide_eq_decide] at htest
  have := bits_lt f b 1
  have := bits_lt g b 1
  omega

/-- A field that reads 0 has no bit set. -/
theorem bit_eq_zero_of_bits_eq_zero {f : Frame} {p w b : Nat} (hf : p + w ≤ 8 * f.length) (h : bits f p w = 0) (hb : p ≤ b)
    (hb' : b < p + w) : bits f b 1 = 0 := by
  have hj : p + w - 1 - (p + w - 1 - b) = b := by omega
  have htest := congrArg (fun v => v.testBit (p + w - 1 - b)) h
  simp only [testBit_bits hf, hj, show p + w - 1 - b < w by omega, decide_true, Bool.true_and, Nat.zero_testBit,
    decide_eq_false_iff_not] at htest
  have := bits_lt f b 1
  omega

/-- Frames with the same payload have the same 64 bits in each of its double-words (rule R51). -/
theorem bits_eq_of_readPayload_eq {f g : Frame} {q cnt i : Nat} (h : readPayload g q cnt = readPayload f q cnt)
    (hi : i < cnt) : bits g (8 * (q + 8 * i)) 64 = bits f (8 * (q + 8 * i)) 64 := by
  have hword := List.map_inj_left.1 h i (List.mem_range.2 hi)
  have hnat := congrArg BitVec.toNat hword
  rwa [BitVec.toNat_ofNat, BitVec.toNat_ofNat, Nat.mod_eq_of_lt (bits_lt ..), Nat.mod_eq_of_lt (bits_lt ..)] at hnat

/-- The lines of a layout leave no bit of its header out (rules R88 to R95). -/
theorem exists_layout_field (l : Layout) : ∀ b < 8 * l.len, ∃ lf ∈ l.fields, lf.offset ≤ b ∧ b < lf.offset + lf.width := by
  cases l <;> decide

/-- A bit of a reserved line is reserved (rule R96). -/
theorem reservedBit_of_reserved {k : Kind} {c b : Nat} {lf : LayoutField} (hlf : lf ∈ k.layout.fields)
    (hres : lf.field = .reserved) (hb : 8 * c + lf.offset ≤ b) (hb' : b < 8 * c + lf.offset + lf.width) :
    reservedBit k c b = true :=
  List.any_eq_true.2 ⟨lf, hlf, by simp only [hres, hb, hb', decide_true, Bool.and_self]⟩

/-! ### A packet and the frame it was read from -/

/-- Packet `P` of kind `k`, with size code `code`, has every part of it from frame `f`, where the encoder puts it. -/
structure Packet.IsReadFrom (P : Packet) (k : Kind) (code : Nat × Nat) (f : Frame) : Prop where
  tt_lt : P.tt < 3
  kind_eq : kindOf P.ftype P.transaction = some k
  prio_eq : P.prio = bits f 0 2
  tt_eq : P.tt = bits f 2 2
  ftype_eq : P.ftype = bits f 4 4
  destId_eq : P.destId = bits f 8 (8 * idBytes P.tt)
  srcId_eq : P.srcId = bits f (8 + 8 * idBytes P.tt) (8 * idBytes P.tt)
  field_eq : ∀ lf ∈ k.layout.fields, lf.field ≠ .reserved →
    fieldValue P code lf.field = bits f (8 * commonLen P.tt + lf.offset) lf.width
  payload_eq : P.payload = readPayload f (commonLen P.tt + k.layout.len) P.payloadLen

/-- A packet with the common header of a frame has each of its fields from there (rules R82 to R84, R120). -/
theorem header_of_common_eq {pr : Params} {f : Frame} {P H : Packet} {c : Nat} (hhead : decodeHeader pr f = .ok (H, c))
    (hcommon : P.common = H.common) :
    P.tt < 3 ∧ P.prio = bits f 0 2 ∧ P.tt = bits f 2 2 ∧ P.ftype = bits f 4 4 ∧ P.destId = bits f 8 (8 * idBytes P.tt) ∧
      P.srcId = bits f (8 + 8 * idBytes P.tt) (8 * idBytes P.tt) := by
  obtain ⟨-, -, hlt, -, -, -, rfl⟩ := decodeHeader_ok hhead
  obtain ⟨hprio, htt, hft, hdest, hsrc⟩ := common_eq_iff.1 hcommon
  dsimp only at htt
  exact ⟨htt ▸ hlt, hprio, htt, hft, by rw [hdest, htt], by rw [hsrc, htt]⟩

/-- A layout without a size field leaves the size code at 0 (rules R89 to R95). -/
theorem readFields_noSizeCode (f : Frame) (c : Nat) {l : Layout} (hl : ¬ l.hasSize = true) (H : Packet) :
    (readFields f c l.fields { packet := H }).size = 0 ∧ (readFields f c l.fields { packet := H }).wdptr = 0 := by
  cases l with
  | req | mreq => exact absurd rfl hl
  | _ => exact ⟨rfl, rfl⟩

theorem spanCode_of_sizeEncode {pr : Params} {l : Layout} {P : Packet} {code : Nat × Nat} (hl : l.hasSize = true)
    (hcode : sizeEncode P.span = some code) (hle : divCeil8 P.rdwrBytes ≤ pr.maxPayloadDw) :
    spanCode pr l P = some code := by
  simp only [spanCode, hl, if_true, hcode, Nat.not_lt.2 hle, if_false]

/-- The encoder finds the size code that the decoder read (rules R97, R128). -/
theorem spanCode_of_decodeKind {pr : Params} {k : Kind} {H P : Packet} {f : Frame} {c n : Nat}
    (h : decodeKind pr k H f c = .ok (P, n)) :
    let r := readFields f c k.layout.fields { packet := H }
    spanCode pr k.layout P = some (r.size, r.wdptr) := by
  intro r
  by_cases hl : k.layout.hasSize = true
  · obtain ⟨hP, -, -⟩ := decodeKind_build h
    obtain ⟨hsz, hwp⟩ := readFields_sizeCode_lt f c hl { packet := H }
    have hcode : sizeEncode P.span = some (r.size, r.wdptr) := by
      rw [hP, span_build _ hl, sizeEncode_sizeDecode hsz hwp]
    obtain ⟨-, hle⟩ := Span.wf_iff.1 (decodeKind_span_wf h hl)
    exact spanCode_of_sizeEncode hl hcode hle
  · obtain ⟨hsz, hwp⟩ := readFields_noSizeCode f c hl H
    rw [hsz, hwp, spanCode, if_neg hl]

namespace Packet.IsReadFrom

variable {P : Packet} {k : Kind} {code : Nat × Nat} {f : Frame}

theorem prio_lt (h : P.IsReadFrom k code f) : P.prio < 4 := h.prio_eq ▸ bits_lt f 0 2
theorem ftype_lt (h : P.IsReadFrom k code f) : P.ftype < 16 := h.ftype_eq ▸ bits_lt f 4 4
theorem destId_lt (h : P.IsReadFrom k code f) : P.destId < 2 ^ (8 * idBytes P.tt) := h.destId_eq.trans_lt (bits_lt ..)
theorem srcId_lt (h : P.IsReadFrom k code f) : P.srcId < 2 ^ (8 * idBytes P.tt) := h.srcId_eq.trans_lt (bits_lt ..)

/-- What was read from a field fits it (rule R123). -/
theorem fieldsFit (h : P.IsReadFrom k code f) : fieldsFit P code k.layout.fields = true := by
  refine List.all_eq_true.2 fun lf hlf => decide_eq_true ?_
  by_cases hres : lf.field = .reserved
  · rw [hres]
    exact Nat.two_pow_pos _
  · rw [h.field_eq lf hlf hres]
    exact bits_lt ..

/-- The common header is written as it was read (rules R82 to R84). -/
theorem header_bit (h : P.IsReadFrom k code f) (hlen : (frameOf k P code).length ≤ f.length) {b : Nat}
    (hb : b < 8 * commonLen P.tt) : bits (frameOf k P code) b 1 = bits f b 1 := by
  obtain ⟨hprio, htt, hft⟩ := frame_head (k := k) (P := P) (code := code) h.prio_lt (Nat.lt_succ_of_lt h.tt_lt) h.ftype_lt
  obtain ⟨hdest, hsrc⟩ := frame_ids (k := k) (code := code) h.destId_lt h.srcId_lt
  have hg := length_frameOf k P code
  have hc : commonLen P.tt = 1 + 2 * idBytes P.tt := rfl
  have hbit : ∀ p w, bits (frameOf k P code) p w = bits f p w → p + w ≤ 8 * commonLen P.tt → p ≤ b → b < p + w →
      bits (frameOf k P code) b 1 = bits f b 1 :=
    fun p w heq hp => bit_eq_of_bits_eq (by omega) (by omega) heq
  rcases Nat.lt_or_ge b 2 with h2 | h2
  · exact hbit 0 2 (hprio.trans h.prio_eq) (by omega) (by omega) (by omega)
  rcases Nat.lt_or_ge b 4 with h4 | h4
  · exact hbit 2 2 (htt.trans h.tt_eq) (by omega) h2 h4
  rcases Nat.lt_or_ge b 8 with h8 | h8
  · exact hbit 4 4 (hft.trans h.ftype_eq) (by omega) h4 h8
  rcases Nat.lt_or_ge b (8 + 8 * idBytes P.tt) with hid | hid
  · exact hbit _ _ (hdest.trans h.destId_eq) (by omega) h8 hid
  · exact hbit _ _ (hsrc.trans h.srcId_eq) (by omega) hid (by omega)

/-- The logical header is written as it was read, with its reserved bits cleared (rules R88 to R96). -/
theorem field_bit (h : P.IsReadFrom k code f) (hlen : (frameOf k P code).length ≤ f.length) {b : Nat}
    (hb : 8 * commonLen P.tt ≤ b) (hb' : b < 8 * (commonLen P.tt + k.layout.len)) :
    bits (frameOf k P code) b 1 = if reservedBit k (commonLen P.tt) b then 0 else bits f b 1 := by
  have hg := length_frameOf k P code
  obtain ⟨lf, hlf, hlo, hhi⟩ := exists_layout_field k.layout (b - 8 * commonLen P.tt) (by omega)
  have hle := layout_field_le hlf
  have hfield := frame_field h.fieldsFit hlf
  by_cases hres : lf.field = .reserved
  · rw [reservedBit_of_reserved hlf hres (by omega) (by omega), if_pos rfl]
    rw [hres] at hfield
    exact bit_eq_zero_of_bits_eq_zero (by omega) hfield (by omega) (by omega)
  · rw [reservedBit_of_field hlf hres (by omega) (by omega), if_neg (by decide)]
    rw [h.field_eq lf hlf hres] at hfield
    exact bit_eq_of_bits_eq (by omega) (by omega) hfield (by omega) (by omega)

/-- The payload is written as it was read (rule R51). -/
theorem payload_bit (h : P.IsReadFrom k code f) (hlen : (frameOf k P code).length ≤ f.length) {b : Nat}
    (hb : 8 * (commonLen P.tt + k.layout.len) ≤ b) (hb' : b < 8 * (frameOf k P code).length) :
    bits (frameOf k P code) b 1 = bits f b 1 := by
  have hg := length_frameOf k P code
  have hi : (b - 8 * (commonLen P.tt + k.layout.len)) / 64 < P.payloadLen := by omega
  have hword := bits_eq_of_readPayload_eq ((frame_payload k P code).trans h.payload_eq) hi
  exact bit_eq_of_bits_eq (by omega) (by omega) hword (by omega) (by omega)

/-- Every bit of the frame the encoder writes is the bit that was read, or 0 where it is reserved (rule R124). -/
theorem bit_eq (h : P.IsReadFrom k code f) (hlen : (frameOf k P code).length ≤ f.length) {b : Nat}
    (hb : b < 8 * (frameOf k P code).length) :
    bits (frameOf k P code) b 1 = if reservedBit k (commonLen P.tt) b then 0 else bits f b 1 := by
  rcases Nat.lt_or_ge b (8 * commonLen P.tt) with hheader | hheader
  · rw [h.header_bit hlen hheader, reservedBit_of_outside (.inl hheader), if_neg Bool.false_ne_true]
  rcases Nat.lt_or_ge b (8 * (commonLen P.tt + k.layout.len)) with hbody | hbody
  · exact h.field_bit hlen hheader hbody
  · rw [h.payload_bit hlen hbody hb, reservedBit_of_outside (.inr hbody), if_neg Bool.false_ne_true]

end Packet.IsReadFrom

/-- A packet that decoded was read from its frame, and passes the encoder's other tests (rules R121, R123). -/
theorem isReadFrom_of_decodePacket {pr : Params} {f : Frame} {P : Packet} {n : Nat} (h : decodePacket pr f = .ok (P, n)) :
    ∃ k code, P.IsReadFrom k code f ∧ spanCode pr k.layout P = some code ∧ payloadFits pr k.payloadRule P = true ∧
      (frameOf k P code).length = n ∧ n ≤ f.length ∧ f.length ≤ pr.maxFrameBytes := by
  obtain ⟨H, k, hhead, hk, -, -, hnf, hkind⟩ := decodePacket_parts h
  obtain ⟨htt_lt, hprio, htt, hft, hdest, hsrc⟩ := header_of_common_eq hhead (decodeKind_common hkind)
  obtain ⟨-, hn, hpayload⟩ := decodeKind_build hkind
  obtain ⟨hmax, -⟩ := decodeHeader_ok hhead
  exact ⟨k, _, ⟨htt_lt, hk, hprio, htt, hft, hdest, hsrc, fun _ => decodeKind_field hkind, hpayload⟩,
    spanCode_of_decodeKind hkind, decodeKind_payloadFits hkind, (length_frameOf ..).trans hn.symm, hnf, hmax⟩

/-- Settles O5: a packet that was read from a frame passes every test of the encoder, and each of its bits is put back where
it was read. -/
theorem reencodingClearsOnlyReservedBits : Obligations.ReencodingClearsOnlyReservedBits := by
  intro pr f P n h
  obtain ⟨k, code, hread, hcode, hpay, rfl, hlen, hmax⟩ := isReadFrom_of_decodePacket h
  have henc := encodePacket_of_checks hread.tt_lt hread.kind_eq hread.prio_lt hread.destId_lt hread.srcId_lt hcode
    hread.fieldsFit hpay (hlen.trans hmax)
  exact ⟨_, k, henc, hread.kind_eq, rfl, hlen, fun b hb => hread.bit_eq hlen hb⟩

end Sys2Proof
end

section
/-! SUPPORT. Instructions through the codec: exactly the well-formed ones encode, and their frames decode to them (rules
R123, R124). -/

namespace Sys2Proof

/-! ### Well-formed instructions -/

/-- An instruction is what its packet record stands for. -/
theorem toInstr_toPacket (i : Instr) : i.toPacket.toInstr i.kind = i := by
  have faithful : Laws.PacketFaithful.Statement i := by
    cases i with
    | nread => exact Laws.PacketFaithful.nread ..
    | nwrite => exact Laws.PacketFaithful.nwrite ..
    | nwriteR => exact Laws.PacketFaithful.nwriteR ..
    | swrite => exact Laws.PacketFaithful.swrite ..
    | maintRdReq => exact Laws.PacketFaithful.maintRdReq ..
    | maintWrReq => exact Laws.PacketFaithful.maintWrReq ..
    | maintRdResp => exact Laws.PacketFaithful.maintRdResp ..
    | maintWrResp => exact Laws.PacketFaithful.maintWrResp ..
    | doorbell => exact Laws.PacketFaithful.doorbell ..
    | message => exact Laws.PacketFaithful.message ..
    | respNodata => exact Laws.PacketFaithful.respNodata ..
    | respMsg => exact Laws.PacketFaithful.respMsg ..
    | respData => exact Laws.PacketFaithful.respData ..
  exact faithful.2

/-- When a common header is well-formed (rule R83). -/
theorem Header.wf_iff {h : Header} : h.wf = true ↔
    h.destId.toNat < 2 ^ (8 * idBytes h.width.tt) ∧ h.srcId.toNat < 2 ^ (8 * idBytes h.width.tt) := by
  simp only [Header.wf, Bool.and_eq_true, decide_eq_true_eq]

/-- Well-formedness of an instruction, by the layout and the payload rule of its kind (rules R83, R97, R99). -/
theorem Instr.wf_iff {pr : Params} {i : Instr} : i.wf pr = true ↔
    i.header.wf = true ∧ (i.kind.layout.hasSize = true → i.toPacket.span.wf pr = true) ∧
      payloadFits pr i.kind.payloadRule i.toPacket = true := by
  refine ⟨fun h => ?_, fun ⟨hh, hs, hp⟩ => ?_⟩
  · cases i with
    | nread | maintRdReq =>
      obtain ⟨hh, hs⟩ := Bool.and_eq_true_iff.1 h
      exact ⟨hh, fun _ => hs, payloadFits_noPayload.2 rfl⟩
    | nwrite | nwriteR | maintWrReq =>
      obtain ⟨hh, hsp⟩ := Bool.and_eq_true_iff.1 h
      obtain ⟨hs, hlen⟩ := Bool.and_eq_true_iff.1 hsp
      obtain ⟨-, hle⟩ := Span.wf_iff.1 hs
      have hlen' := of_decide_eq_true hlen
      exact ⟨hh, fun _ => hs, payloadFits_span.2 ⟨hlen', hlen'.trans_le hle⟩⟩
    | swrite | maintRdResp | message | respData =>
      obtain ⟨hh, hp⟩ := Bool.and_eq_true_iff.1 h
      exact ⟨hh, fun hl => (Bool.false_ne_true hl).elim, payloadFits_len.2 (of_decide_eq_true hp)⟩
    | maintWrResp | doorbell | respNodata | respMsg =>
      exact ⟨h, fun hl => (Bool.false_ne_true hl).elim, payloadFits_noPayload.2 rfl⟩
  · rw [← toInstr_toPacket i]
    exact Packet.toInstr_wf (Laws.PacketFaithful.header_packet i ▸ hh) hs hp

/-! ### Exactly the well-formed instructions encode -/

theorem kind_transaction_lt (k : Kind) : k.transaction < 2 ^ 4 := by cases k <;> decide

/-- The operands of an instruction fit their fields, being bit vectors of their width, if the size code fits its own (rule
R123). -/
theorem fieldsFit_toPacket (i : Instr) {code : Nat × Nat} (hsz : code.1 < 2 ^ 4) (hwp : code.2 ≤ 1) :
    fieldsFit i.toPacket code i.kind.layout.fields = true := by
  cases i <;>
    simp [-Nat.reducePow, fieldsFit, Instr.kind, Kind.layout, Layout.fields, fieldValue, Instr.toPacket, headerPacket,
      BitVec.isLt, kind_transaction_lt, hsz, hwp]

/-- The size code of an instruction is found when its span is well-formed, and fits its fields (rules R97, R123). -/
theorem exists_spanCode {pr : Params} {l : Layout} {P : Packet} (h : l.hasSize = true → P.span.wf pr = true) :
    ∃ code, spanCode pr l P = some code ∧ code.1 < 16 ∧ code.2 < 2 := by
  by_cases hl : l.hasSize = true
  · obtain ⟨⟨code, hcode⟩, hle⟩ := Span.wf_iff.1 (h hl)
    exact ⟨code, spanCode_of_sizeEncode hl hcode hle, (sizeDecode_of_sizeEncode hcode).2⟩
  · exact ⟨(0, 0), if_neg hl, by decide, by decide⟩

theorem encode_of_wf {pr : Params} {i : Instr} (hlegal : pr.Legal) (h : i.wf pr = true) : ∃ f, encode pr i = .ok f := by
  obtain ⟨hheader, hspan, hpay⟩ := Instr.wf_iff.1 h
  obtain ⟨hdest, hsrc⟩ := Header.wf_iff.1 hheader
  obtain ⟨code, hcode, hsz, hwp⟩ := exists_spanCode hspan
  have htt : i.toPacket.tt < 3 := i.toPacket_tt ▸ idWidth_tt_lt _
  have hmax : (frameOf i.kind i.toPacket code).length ≤ pr.maxFrameBytes := by
    obtain ⟨-, -, -, -, -, hlong⟩ := hlegal
    have hhead := headerLen_le htt i.kind
    have hlen := payloadLen_le_of_payloadFits hpay
    rw [length_frameOf]
    omega
  exact ⟨_, encodePacket_of_checks htt (kindOf_toPacket i) (i.toPacket_prio ▸ i.header.prio.isLt) (by simpa using hdest)
    (by simpa using hsrc) hcode (fieldsFit_toPacket i hsz (Nat.le_of_lt_succ hwp)) hpay hmax⟩

theorem wf_of_encode {pr : Params} {i : Instr} {f : Frame} (h : encode pr i = .ok f) : i.wf pr = true := by
  obtain ⟨k, code, -, hk, -, hdest, hsrc, hcode, -, hpay, -, -⟩ := encodePacket_ok h
  obtain rfl : i.kind = k := Option.some.inj ((kindOf_toPacket i).symm.trans hk)
  refine Instr.wf_iff.2 ⟨Header.wf_iff.2 ⟨by simpa using hdest, by simpa using hsrc⟩, fun hl => ?_, hpay⟩
  rcases spanCode_some hcode with ⟨-, henc, hle⟩ | ⟨hl', -⟩
  · exact Span.wf_iff.2 ⟨⟨code, henc⟩, hle⟩
  · simp [hl] at hl'

/-- Settles O2: the encoder's tests are the conditions of `Instr.wf_iff`, and a legal frame length leaves room for every
header and payload. -/
theorem exactlyWellFormedInstructionsEncode : Obligations.ExactlyWellFormedInstructionsEncode :=
  fun _ _ hlegal => ⟨fun ⟨_, h⟩ => wf_of_encode h, encode_of_wf hlegal⟩

/-! ### The round trip -/

/-- A frame whose packet is that of an instruction decodes to the instruction. -/
theorem decode_of_decodePacket_toPacket {pr : Params} {f : Frame} {i : Instr} {n : Nat}
    (h : decodePacket pr f = .ok (i.toPacket, n)) : decode pr f = .ok (i, n) := by
  simp only [decode, h, kindOf_toPacket, toInstr_toPacket]

/-- Settles O1: the encoded packet decodes to its canonical form, which for the packet of an instruction is that packet. -/
theorem decodeOfEncodeGivesTheInstructionBack : Obligations.DecodeOfEncodeGivesTheInstructionBack := by
  intro pr i hlegal hwf
  obtain ⟨f, henc⟩ := encode_of_wf hlegal hwf
  have hdec := encodedPacketDecodesToItsCanon pr i.toPacket f henc
  rw [canon_toPacket] at hdec
  exact ⟨f, henc, decode_of_decodePacket_toPacket hdec⟩

end Sys2Proof
end

section
/-! SUPPORT. The accessor calls of the maintenance translator over a recording target: which words are tried, in which order,
and when an access succeeds (rules R171 to R178). -/

namespace Sys2Proof.Machine

open Sys2Proof

/-! ### Words tried in order up to the first failure -/

/-- The members of `l` up to the first that fails, that one included. -/
def upToFirst (fails : Nat → Bool) (l : List Nat) : List Nat :=
  let good := l.takeWhile fun j => !fails j
  good ++ (l.drop good.length).take 1

theorem upToFirst_cons (fails : Nat → Bool) (j : Nat) (l : List Nat) :
    upToFirst fails (j :: l) = j :: if fails j then [] else upToFirst fails l := by
  cases h : fails j <;> simp [upToFirst, h]

theorem upToFirst_append (fails : Nat → Bool) (l l' : List Nat) :
    upToFirst fails (l ++ l') = if l.any fails then upToFirst fails l else l ++ upToFirst fails l' := by
  induction l with
  | nil => rfl
  | cons j l ih =>
    rw [List.cons_append, upToFirst_cons, upToFirst_cons, ih, List.any_cons]
    cases fails j <;> cases l.any fails <;> rfl

/-- A run over the words `l` takes the call log from `log` to `log'`: it makes one call for each word up to the first that
fails, and it succeeds (`ok`) exactly when none does (rule R178). -/
structure CallsUpToFirst (call : Nat → AccessCall) (fails : Nat → Bool) (l : List Nat) (log log' : List AccessCall)
    (ok : Bool) : Prop where
  log_eq : log' = log ++ (upToFirst fails l).map call
  ok_eq : ok = !l.any fails

namespace CallsUpToFirst

variable {call : Nat → AccessCall} {fails : Nat → Bool} {l l' : List Nat} {log log' log'' : List AccessCall} {ok : Bool}

theorem nil : CallsUpToFirst call fails [] log log true :=
  ⟨(List.append_nil log).symm, rfl⟩

/-- One word, one call. -/
theorem singleton {j : Nat} (hlog : log' = log ++ [call j]) (hok : ok = !fails j) :
    CallsUpToFirst call fails [j] log log' ok := by
  refine ⟨?_, by simpa using hok⟩
  rw [hlog, upToFirst_cons]
  cases fails j <;> rfl

/-- After a failure no further word is tried. -/
theorem append_of_failed (h : CallsUpToFirst call fails l log log' false) :
    CallsUpToFirst call fails (l ++ l') log log' false := by
  have hany : l.any fails = true := by simpa using h.ok_eq
  exact ⟨by rw [upToFirst_append, if_pos hany, ← h.log_eq], by simp [hany]⟩

/-- After a success the run goes on with the words that follow. -/
theorem append (h : CallsUpToFirst call fails l log log' true) (h' : CallsUpToFirst call fails l' log' log'' ok) :
    CallsUpToFirst call fails (l ++ l') log log'' ok := by
  have hany : l.any fails = false := by simpa using h.ok_eq
  have hall : upToFirst fails l = l := by simpa [hany, upToFirst] using upToFirst_append fails l []
  refine ⟨?_, by rw [h'.ok_eq, List.any_append, hany, Bool.false_or]⟩
  rw [upToFirst_append, hany, h'.log_eq, h.log_eq, hall]
  simp

/-- The status of an access says whether every word was good (rule R177). -/
theorem status_iff (h : CallsUpToFirst call fails l log log' ok) {st : Nat}
    (hst : st = if ok then statusDone else statusError) :
    (st = 0 ↔ (l.takeWhile fun j => !fails j) = l) ∧ (st = 7 ↔ (l.takeWhile fun j => !fails j) ≠ l) := by
  have hgood : ((l.takeWhile fun j => !fails j) = l) ↔ ok = true := by
    rw [List.takeWhile_eq_self_iff, h.ok_eq]
    simp
  rw [ne_eq, hgood, hst]
  cases ok <;> decide

end CallsUpToFirst

/-! ### The words that get a call -/

/-- The words among `l` that have a non-zero lane mask (rule R171). -/
def calledWords (m : DWord) (l : List Nat) : List Nat :=
  l.filter fun j => decide (laneMask m j ≠ 0)

theorem calledWords_append (m : DWord) (l l' : List Nat) :
    calledWords m (l ++ l') = calledWords m l ++ calledWords m l' :=
  List.filter_append l l'

theorem calledWords_singleton_of_zero {m : DWord} {j : Nat} (h : laneMask m j = 0) : calledWords m [j] = [] :=
  List.filter_cons_of_neg (by simp [h])

theorem calledWords_singleton_of_ne {m : DWord} {j : Nat} (h : laneMask m j ≠ 0) : calledWords m [j] = [j] :=
  List.filter_cons_of_pos (decide_eq_true h)

/-- The words of `n + 1` double-words from double-word `k` on: its low word, its high word, then those of the rest. -/
theorem range'_doubles_succ (k n : Nat) :
    List.range' (2 * k) (2 * (n + 1)) = ([2 * k] ++ [2 * k + 1]) ++ List.range' (2 * (k + 1)) (2 * n) := by
  simp [Nat.mul_add, List.range'_succ]

theorem configAddress_eq (P : Packet) : configAddress P = 8 * P.configOffset :=
  dwToByte_eq P.configOffset

section Calls

variable {σ : Type} {T : Target σ} {bad : Nat → Bool} {m : DWord} {A : Nat}

/-! ### Reads -/

/-- The call for word `j` of a read at byte address `A` (rule R172). -/
def readCall (A j : Nat) : AccessCall :=
  .read (A + 4 * j)

/-- What a run over the words `l` of a read at byte address `A` does to the call log, and whether it answers a value. -/
def ReadCalls {α : Type} (bad : Nat → Bool) (A : Nat) (m : DWord) (l : List Nat) (t : σ × List AccessCall)
    (r : (σ × List AccessCall) × Option α) : Prop :=
  CallsUpToFirst (readCall A) (fun j => bad (A + 4 * j)) (calledWords m l) t.2 r.1.2 r.2.isSome

section Reads

variable (hbad : ∀ u a, (T.read32 u a).2 = none ↔ bad a = true)

include hbad

theorem readLane_calls {w j a : Nat} (hw : j % 2 = w) (ha : a = A + 4 * j) (t : σ × List AccessCall) :
    ReadCalls bad A m [j] t (readLane (recording T) m w a t) := by
  have hmask : wmask m w = laneMask m j := by rw [laneMask, hw]
  unfold readLane ReadCalls
  rw [hmask, ha]
  by_cases hz : laneMask m j = 0
  · rw [if_pos hz, calledWords_singleton_of_zero hz]
    exact .nil
  · rw [if_neg hz, calledWords_singleton_of_ne hz]
    have hfail := hbad t.1 (A + 4 * j)
    split <;> rename_i he <;> obtain ⟨rfl, hr⟩ := Prod.mk.inj he <;> rw [hr] at hfail <;>
      exact .singleton rfl (by simpa using hfail)

theorem readDouble_calls {k a : Nat} (ha : a = A + 8 * k) (t : σ × List AccessCall) :
    ReadCalls bad A m ([2 * k] ++ [2 * k + 1]) t (readDouble (recording T) m a t) := by
  have hlow := readLane_calls (A := A) (a := a) (m := m) (j := 2 * k) (w := 0) hbad (by omega) (by omega) t
  unfold ReadCalls readDouble
  rw [calledWords_append]
  split <;> rename_i he <;> rw [he] at hlow
  · exact hlow.append_of_failed
  · rename_i t1 lo
    have hhigh := readLane_calls (A := A) (a := a + 4) (m := m) (j := 2 * k + 1) (w := 1) hbad (by omega) (by omega) t1
    split <;> rename_i he' <;> rw [he'] at hhigh <;> exact hlow.append hhigh

theorem readDoubles_calls (cnt : Nat) {k a : Nat} (ha : a = A + 8 * k) (t : σ × List AccessCall) :
    ReadCalls bad A m (List.range' (2 * k) (2 * cnt)) t (readDoubles (recording T) m cnt a t) := by
  induction cnt generalizing k a t with
  | zero => exact .nil
  | succ cnt ih =>
    have hfirst := readDouble_calls (m := m) hbad ha t
    unfold ReadCalls
    rw [range'_doubles_succ, calledWords_append]
    simp only [readDoubles]
    split <;> rename_i he <;> rw [he] at hfirst
    · exact hfirst.append_of_failed
    · rename_i t1 dw
      have hrest := ih (k := k + 1) (a := a + 8) (by omega) t1
      split <;> rename_i he' <;> rw [he'] at hrest <;> exact hfirst.append hrest

/-- A read with a legal span (rule R178) calls on its words up to the first failure, and its status says whether there was one. -/
theorem maintRead_calls {P : Packet} (hm : rdwrDwMaskFromSpan P.rdwrBytes P.dwOffset = .ok m)
    (t : σ × List AccessCall) :
    ∃ acc ok, maintRead (recording T) P t = .ok acc ∧ acc.status = (if ok then statusDone else statusError) ∧
      CallsUpToFirst (readCall (8 * P.configOffset)) (fun j => bad (8 * P.configOffset + 4 * j))
        (calledWords m (List.range (2 * divCeil8 P.rdwrBytes))) t.2 acc.target.2 ok := by
  rw [List.range_eq_range']
  have hcalls := readDoubles_calls (A := 8 * P.configOffset) (m := m) (k := 0) hbad (divCeil8 P.rdwrBytes)
    (configAddress_eq P) t
  rcases maintRead_cases (T := recording T) P t with ⟨hspan, -⟩ | ⟨m', hm', hans⟩
  · simp [hm] at hspan
  · obtain rfl : m = m' := Except.ok.inj (hm.symm.trans hm')
    rcases hans with ⟨u, hread, hacc⟩ | ⟨u, ds, hread, -, hacc⟩ <;> rw [hread] at hcalls
    · exact ⟨_, false, hacc, rfl, hcalls⟩
    · exact ⟨_, true, hacc, rfl, hcalls⟩

end Reads

/-! ### Writes -/

/-- The call for word `j` of a write of `pl` at byte address `A`: the whole slice of the payload, and the lane mask (rule
R173). -/
def writeCall (A : Nat) (pl : List DWord) (m : DWord) (j : Nat) : AccessCall :=
  .write (A + 4 * j) (((pl.getD (j / 2) 0) >>> (32 * (j % 2))).setWidth 32) (laneMask m j)

/-- What a run over the words `l` of a write of `pl` at byte address `A` does to the call log, and whether it succeeds. -/
def WriteCalls (bad : Nat → Bool) (A : Nat) (pl : List DWord) (m : DWord) (l : List Nat) (t : σ × List AccessCall)
    (r : (σ × List AccessCall) × Bool) : Prop :=
  CallsUpToFirst (writeCall A pl m) (fun j => bad (A + 4 * j)) (calledWords m l) t.2 r.1.2 r.2

section Writes

variable {pl : List DWord} (hbad : ∀ u a v w, (T.write32 u a v w).2 = !bad a)

include hbad

theorem writeLane_calls {w j a : Nat} {d : DWord} (hw : j % 2 = w) (ha : a = A + 4 * j)
    (hd : pl.getD (j / 2) 0 = d) (t : σ × List AccessCall) :
    WriteCalls bad A pl m [j] t (writeLane (recording T) m w a d t) := by
  have hmask : wmask m w = laneMask m j := by rw [laneMask, hw]
  unfold writeLane WriteCalls
  rw [hmask, ha]
  by_cases hz : laneMask m j = 0
  · rw [if_pos hz, calledWords_singleton_of_zero hz]
    exact .nil
  · rw [if_neg hz, calledWords_singleton_of_ne hz]
    exact .singleton (by rw [writeCall, hd, hw]; rfl) (hbad _ _ _ _)

theorem writeDouble_calls {k a : Nat} {d : DWord} (ha : a = A + 8 * k) (hd : pl.getD k 0 = d)
    (t : σ × List AccessCall) :
    WriteCalls bad A pl m ([2 * k] ++ [2 * k + 1]) t (writeDouble (recording T) m a d t) := by
  have hlo : pl.getD (2 * k / 2) 0 = d := by rwa [show 2 * k / 2 = k by omega]
  have hhi : pl.getD ((2 * k + 1) / 2) 0 = d := by rwa [show (2 * k + 1) / 2 = k by omega]
  have hlow := writeLane_calls (A := A) (a := a) (m := m) (j := 2 * k) (w := 0) hbad (by omega) (by omega) hlo t
  unfold WriteCalls writeDouble
  rw [calledWords_append]
  split <;> rename_i he <;> rw [he] at hlow
  · exact hlow.append_of_failed
  · exact hlow.append <| writeLane_calls hbad (by omega) (by omega) hhi _

/-- The rest of a write from double-word `k` on, whose double-words are those of the payload from `k` on. -/
theorem writeDoubles_calls (ds : List DWord) {k a : Nat} (ha : a = A + 8 * k) (hds : pl.drop k = ds)
    (t : σ × List AccessCall) :
    WriteCalls bad A pl m (List.range' (2 * k) (2 * ds.length)) t (writeDoubles (recording T) m ds a t) := by
  induction ds generalizing k a t with
  | nil => exact .nil
  | cons d ds ih =>
    have hd : pl.getD k 0 = d := by
      rw [List.getD_eq_getElem?_getD, ← List.head?_drop, hds]
      rfl
    have hdrop : pl.drop (k + 1) = ds := by rw [← List.tail_drop, hds, List.tail_cons]
    have hfirst := writeDouble_calls (m := m) hbad ha hd t
    unfold WriteCalls
    rw [List.length_cons, range'_doubles_succ, calledWords_append]
    simp only [writeDoubles]
    split <;> rename_i he <;> rw [he] at hfirst
    · exact hfirst.append_of_failed
    · exact hfirst.append (ih (by omega) hdrop _)

/-- A write with the right payload length and a legal span calls on its words up to the first failure, and its status says
whether there was one. -/
theorem maintWrite_calls {P : Packet} (hm : rdwrDwMaskFromSpan P.rdwrBytes P.dwOffset = .ok m)
    (hlen : P.payload.length = divCeil8 P.rdwrBytes) (t : σ × List AccessCall) :
    ∃ acc ok, maintWrite (recording T) P t = .ok acc ∧ acc.payload = [] ∧
      acc.status = (if ok then statusDone else statusError) ∧
      CallsUpToFirst (writeCall (8 * P.configOffset) P.payload m) (fun j => bad (8 * P.configOffset + 4 * j))
        (calledWords m (List.range (2 * divCeil8 P.rdwrBytes))) t.2 acc.target.2 ok := by
  rw [List.range_eq_range', ← hlen]
  have hcalls := writeDoubles_calls (A := 8 * P.configOffset) (m := m) (k := 0) hbad P.payload (configAddress_eq P) rfl t
  rcases maintWrite_cases (T := recording T) P t with ⟨hne, -⟩ | ⟨-, hans⟩
  · exact absurd hlen hne
  · rcases hans with ⟨hspan, -⟩ | ⟨m', u, ok, hm', hwrite, hacc⟩
    · simp [hm] at hspan
    · obtain rfl : m = m' := Except.ok.inj (hm.symm.trans hm')
      rw [hwrite] at hcalls
      exact ⟨_, ok, hacc, rfl, rfl, hcalls⟩

end Writes

end Calls

/-! ### The obligations -/

/-- Settles O16: a read and a write run over the words with a non-zero lane mask, by induction on the double-words. -/
theorem accessorCallsInOrderUpToTheFirstFail : Obligations.AccessorCallsInOrderUpToTheFirstFail := by
  intro σ T bad P t m hm
  refine ⟨fun hbad => ?_, fun hbad hlen => ?_⟩
  · obtain ⟨acc, ok, hacc, hst, hcalls⟩ := maintRead_calls hbad hm (t, [])
    exact ⟨acc, hacc, hcalls.log_eq, hcalls.status_iff hst⟩
  · obtain ⟨acc, ok, hacc, hpl, hst, hcalls⟩ := maintWrite_calls hbad hm hlen (t, [])
    exact ⟨acc, hacc, hcalls.log_eq, hpl, hcalls.status_iff hst⟩

/-- Settles O17: the payload length is tested first, and then the span. -/
theorem illegalRequestsAreFatalToTheTranslator : Obligations.IllegalRequestsAreFatalToTheTranslator := by
  intro σ T P t
  refine ⟨fun hne => ?_, fun hlen hspan => ?_, fun hspan => ?_⟩
  · rcases maintWrite_cases (T := T) P t with ⟨-, h⟩ | ⟨hlen, -⟩
    · exact h
    · exact absurd hlen hne
  · rcases maintWrite_cases (T := T) P t with ⟨hne, -⟩ | ⟨-, ⟨-, h⟩ | ⟨m, u, ok, hm, -, -⟩⟩
    · exact absurd hlen hne
    · exact h
    · simp [hspan] at hm
  · rcases maintRead_cases (T := T) P t with ⟨-, h⟩ | ⟨m, hm, -⟩
    · exact h
    · simp [hspan] at hm

end Sys2Proof.Machine
end

section
/-! SUPPORT. A frame that decodes holds the packet record of its instruction, and so a step by way of the instruction is the
engine's algorithm over the packet (rules R30, R191). -/

namespace Sys2Proof

/-! ### The packet record of a decoded instruction -/

theorem idWidth_tt_ofTt {tt : Nat} (h : tt < 3) : (IdWidth.ofTt tt).tt = tt := by
  interval_cases tt <;> rfl

/-- A device ID of any width class fits the 32 bits of an operand (rule R83). -/
theorem lt_two_pow_32_of_id {tt id : Nat} (htt : tt < 3) (h : id < 2 ^ (8 * idBytes tt)) : id < 2 ^ 32 :=
  h.trans_le (Nat.pow_le_pow_right (by decide) (by interval_cases tt <;> decide))

/-- A common header whose fields fit survives the instruction (rules R82 to R84). -/
theorem common_toPacket_toInstr {P : Packet} {k : Kind} (hft : k.ftype = P.ftype) (htt : P.tt < 3) (hprio : P.prio < 4)
    (hdest : P.destId < 2 ^ (8 * idBytes P.tt)) (hsrc : P.srcId < 2 ^ (8 * idBytes P.tt)) :
    (P.toInstr k).toPacket.common = P.common := by
  have hdest' := lt_two_pow_32_of_id htt hdest
  have hsrc' := lt_two_pow_32_of_id htt hsrc
  refine common_eq_iff.2 ⟨?_, ?_, ?_, ?_, ?_⟩
  · simpa [Packet.header] using hprio
  · simpa [Packet.header] using idWidth_tt_ofTt htt
  · simpa using hft
  · simpa [Packet.header] using hdest'
  · simpa [Packet.header] using hsrc'

/-- The other fields of a layout go through operands of their own width (rules R88 to R95). -/
theorem fieldValue_toInstr (P : Packet) (k : Kind) : ∀ lf ∈ k.layout.fields, lf.field ≠ .transaction →
    fieldValue (P.toInstr k).toPacket (0, 0) lf.field = fieldValue P (0, 0) lf.field % 2 ^ lf.width := by
  cases k <;> simp [Kind.layout, Layout.fields, fieldValue, Packet.toInstr, Instr.toPacket]

theorem ftype_of_transaction_mem (k : Kind) : .transaction ∈ k.layout.fields.map LayoutField.field →
    k.ftype ≠ 6 ∧ k.ftype ≠ 10 ∧ k.ftype ≠ 11 := by
  cases k <;> decide

theorem fieldValue_zero_le (P : Packet) (code : Nat × Nat) (fld : Field) : fieldValue P (0, 0) fld ≤ fieldValue P code fld := by
  cases fld with
  | size | wdptr => exact Nat.zero_le _
  | _ => exact le_rfl

/-- A canonical packet whose common header and fields fit is the record of the instruction it stands for: both have the same
parts. -/
theorem toPacket_toInstr {P : Packet} {k : Kind} {code : Nat × Nat} (hk : kindOf P.ftype P.transaction = some k)
    (hcommon : (P.toInstr k).toPacket.common = P.common) (hfit : fieldsFit P code k.layout.fields = true)
    (hcanon : P.canonAs k = P) : (P.toInstr k).toPacket = P := by
  have hself := canonAs_toPacket (P.toInstr k)
  rw [Packet.kind_toInstr] at hself
  rw [← hself]
  refine (canonAs_congr hcommon (fun lf hlf _ => ?_) (fun hl => ?_) (fun hp => ?_)).trans hcanon
  · by_cases htr : lf.field = .transaction
    · have hany := ftype_of_transaction_mem k (List.mem_map.2 ⟨lf, hlf, htr⟩)
      rw [ftype_of_kindOf hk] at hany
      simpa [htr, fieldValue] using transaction_of_kindOf hk hany
    · have hlt := of_decide_eq_true (List.all_eq_true.1 hfit lf hlf)
      rw [fieldValue_toInstr P k lf hlf htr, Nat.mod_eq_of_lt ((fieldValue_zero_le P code lf.field).trans_lt hlt)]
  · cases k with
    | nread | nwrite | nwriteR | maintRdReq | maintWrReq => rfl
    | _ => cases hl
  · cases k with
    | nread | maintRdReq | maintWrResp | doorbell | respNodata | respMsg => exact absurd rfl hp
    | _ => rfl

/-- What decodes to a packet decodes to the instruction of that record, and the record is the packet (rules R121, R122). -/
theorem exists_decode_of_decodePacket {pr : Params} {f : Frame} {P : Packet} {n : Nat} (h : decodePacket pr f = .ok (P, n)) :
    ∃ i, decode pr f = .ok (i, n) ∧ i.toPacket = P := by
  obtain ⟨k, code, hread, -⟩ := isReadFrom_of_decodePacket h
  have hcanon := (canon_of_kindOf hread.kind_eq).symm.trans (canonIsANormalForm.2 pr f P n h)
  have hpacket := toPacket_toInstr hread.kind_eq (common_toPacket_toInstr (ftype_of_kindOf hread.kind_eq) hread.tt_lt
    hread.prio_lt hread.destId_lt hread.srcId_lt) hread.fieldsFit hcanon
  exact ⟨_, decode_of_decodePacket_toPacket (hpacket.symm ▸ h), hpacket⟩

theorem decodePacket_of_decode {pr : Params} {f : Frame} {i : Instr} {n : Nat} (h : decode pr f = .ok (i, n)) :
    decodePacket pr f = .ok (i.toPacket, n) := by
  obtain ⟨P, k, hdec, -, -⟩ := decode_ok h
  obtain ⟨j, hj, rfl⟩ := exists_decode_of_decodePacket hdec
  cases hj.symm.trans h
  exact hdec

/-- A frame without an instruction has no packet either (rule R122). -/
theorem decodePacket_of_decode_error {pr : Params} {f : Frame} {e : DecodeError} (h : decode pr f = .error e) :
    decodePacket pr f = .error e := by
  cases hp : decodePacket pr f with
  | error e' =>
    simp only [decode, hp] at h
    cases h
    rfl
  | ok r =>
    obtain ⟨i, hi, -⟩ := exists_decode_of_decodePacket hp
    cases hi.symm.trans h

/-- The format type and the destination of a packet are those of its frame's header (rules R120, R121). -/
theorem header_of_decodeBody {pr : Params} {f : Frame} {H P : Packet} {c n : Nat} (h : decodeBody pr H f c = .ok (P, n)) :
    P.ftype = H.ftype ∧ P.destId = H.destId := by
  obtain ⟨k, -, -, hkind⟩ := decodeBody_ok h
  obtain ⟨-, -, hft, hdest, -⟩ := common_eq_iff.1 (decodeKind_common hkind)
  exact ⟨hft, hdest⟩

end Sys2Proof

namespace Sys2Proof.Machine

open Sys2Proof

/-! ### The two forms of the engine -/

/-- A kind that is not maintenance is forwarded on its destination (rule R193). -/
theorem handle_of_not_maintenance {i : Instr} (h : i.toPacket.ftype ≠ 8) (port : Nat) (f : Frame) (s : State) :
    handle i port f s = forward i.toPacket.destId f s := by
  cases i with
  | maintRdReq | maintWrReq | maintRdResp | maintWrResp => exact absurd rfl h
  | _ => rfl

theorem toNat_eq_zero_iff {w : Nat} {x : BitVec w} : x.toNat = 0 ↔ x = 0 :=
  ⟨fun h => BitVec.eq_of_toNat_eq h, fun h => by simp [h]⟩

/-- A maintenance kind is handled by its hop count, and at the end of its way by its transaction (rules R197 to R200). -/
theorem handle_of_maintenance {i : Instr} (h : i.toPacket.ftype = 8) (port : Nat) (f : Frame) (s : State) :
    handle i port f s =
      if i.toPacket.hopCount = 0 then terminal port i.toPacket s else hopForward i.toPacket s := by
  cases i with
  | maintRdReq | maintWrReq | maintRdResp | maintWrResp => exact if_congr toNat_eq_zero_iff.symm rfl rfl
  | _ => cases h

theorem ingress_of_fatal {s : State} (hf : s.fatal = true) (port : Nat) (f : Frame) :
    ingress port f s = s.finish [] .ignoredFatal := by
  simp only [ingress, hf, if_true]

/-- A frame whose common header does not decode (rule R192). -/
theorem ingress_of_header_error {s : State} (hf : s.fatal = false) {f : Frame} {r : DecodeError}
    (h : decodeHeader s.params f = .error r) (port : Nat) : ingress port f s = raiseError (.decode r) s := by
  simp only [ingress, hf, h, Bool.false_eq_true, if_false]

section Header

variable {s : State} (hf : s.fatal = false) {f : Frame} {H : Packet} {c : Nat} (hhead : decodeHeader s.params f = .ok (H, c))

include hf hhead

/-- A frame that is not maintenance (rule R193). -/
theorem ingress_of_not_maintenance (hft : H.ftype ≠ 8) (port : Nat) : ingress port f s = forward H.destId f s := by
  simp only [ingress, hf, hhead, Bool.false_eq_true, if_false, hft, ne_eq, not_false_eq_true, if_true]

/-- A maintenance frame whose body does not decode (rule R192). -/
theorem ingress_of_body_error (hft : H.ftype = 8) {r : DecodeError} (h : decodeBody s.params H f c = .error r) (port : Nat) :
    ingress port f s = raiseError (.decode r) s := by
  simp only [ingress, hf, hhead, Bool.false_eq_true, if_false, hft, ne_eq, not_true_eq_false, h]

/-- A maintenance frame that decodes (rules R197 to R200). -/
theorem ingress_of_body (hft : H.ftype = 8) {P : Packet} {n : Nat} (h : decodeBody s.params H f c = .ok (P, n)) (port : Nat) :
    ingress port f s = if P.hopCount = 0 then terminal port P s else hopForward P s := by
  simp only [ingress, hf, hhead, Bool.false_eq_true, if_false, hft, ne_eq, not_true_eq_false, h]

end Header

/-- What an instruction does with the frame it was decoded from is what the engine does with it (rule R191). -/
theorem handle_eq_ingress {s : State} (hf : s.fatal = false) {f : Frame} {i : Instr} {n : Nat}
    (h : decode s.params f = .ok (i, n)) (port : Nat) : handle i port f s = ingress port f s := by
  obtain ⟨H, c, hhead, hbody⟩ := decodePacket_ok (decodePacket_of_decode h)
  obtain ⟨hft, hdest⟩ := header_of_decodeBody hbody
  by_cases hm : H.ftype = 8
  · rw [ingress_of_body hf hhead hm hbody, handle_of_maintenance (hft.trans hm)]
  · rw [ingress_of_not_maintenance hf hhead hm, handle_of_not_maintenance (hft ▸ hm), hdest]

/-- What the step does with a frame that does not decode is what the engine does with it (rules R192, R193). -/
theorem undecoded_eq_ingress {s : State} (hf : s.fatal = false) {f : Frame} {e : DecodeError}
    (h : decode s.params f = .error e) (port : Nat) : undecoded e f s = ingress port f s := by
  cases hhead : decodeHeader s.params f with
  | error r =>
    rw [ingress_of_header_error hf hhead]
    simp only [undecoded, hhead]
  | ok r =>
    obtain ⟨H, c⟩ := r
    have hbody : decodeBody s.params H f c = .error e :=
      (decodePacket_of_header hhead).symm.trans (decodePacket_of_decode_error h)
    simp only [undecoded, hhead]
    by_cases hm : H.ftype = 8
    · rw [ingress_of_body_error hf hhead hm hbody, if_pos hm]
    · rw [ingress_of_not_maintenance hf hhead hm, if_neg hm]

/-- The step on an arriving frame, by whether it decodes. -/
theorem step_of_decode {s : State} {port : Nat} {f : Frame} {rest : List Event} (hin : s.inbox = .ingress port f :: rest)
    (hp : port < s.params.nPorts) (hf : s.fatal = false) :
    (∀ i n, decode s.params f = .ok (i, n) → step s = .next (handle i port f s)) ∧
      ∀ e, decode s.params f = .error e → step s = .next (undecoded e f s) := by
  refine ⟨fun i n h => ?_, fun e h => ?_⟩
  · simp [step, hin, hf, Nat.not_le.2 hp, h, exec_of_notFatal i hin hf]
  · simp [step, hin, hf, Nat.not_le.2 hp, h]

/-! ### The obligations -/

/-- Settles O32: the flag is looked at first by both, and a frame is then handled alike whether or not it decodes. -/
theorem stepIsTheIngressAlgorithm : Obligations.StepIsTheIngressAlgorithm := by
  intro s port f rest hin hp
  cases hf : s.fatal with
  | true => rw [step_of_fatal hin hp hf, ingress_of_fatal hf]
  | false =>
    obtain ⟨hok, herr⟩ := step_of_decode hin hp hf
    cases hd : decode s.params f with
    | ok r => rw [hok r.1 r.2 hd, handle_eq_ingress hf hd]
    | error e => rw [herr e hd, undecoded_eq_ingress hf hd]

/-- Settles O31. -/
theorem stepRunsTheDecodedInstruction : Obligations.StepRunsTheDecodedInstruction := by
  intro s port f rest i n hin hp hd
  cases hf : s.fatal with
  | true => rw [step_of_fatal hin hp hf, exec_of_fatal i hin hf]
  | false => rw [(step_of_decode hin hp hf).1 i n hd, exec_of_notFatal i hin hf]

/-- Settles O33: the two cases of a DecodeError in the engine's algorithm. -/
theorem malformedFramesAreCountedAndDropped : Obligations.MalformedFramesAreCountedAndDropped := by
  intro s port f rest r hin hp hf h
  have hdrop : ingress port f s = raiseError (.decode r) s := by
    rcases h with hhead | ⟨H, c, hhead, hft, hbody⟩
    · exact ingress_of_header_error hf hhead port
    · exact ingress_of_body_error hf hhead hft hbody port
  rw [stepIsTheIngressAlgorithm s port f rest hin hp, hdrop, raiseError_decode]
  exact congrArg _ (finish_eq_ended (s := s.countMalformed) hin [] (.dropDecode r))

/-- Settles O34. -/
theorem nonMaintenanceFramesAreForwardedBlind : Obligations.NonMaintenanceFramesAreForwardedBlind := by
  intro s port f rest H c hin hp hf hhead hft
  obtain ⟨hunmapped, hmapped⟩ := forward_eq_ended hin H.destId f
  rw [stepIsTheIngressAlgorithm s port f rest hin hp, ingress_of_not_maintenance hf hhead hft]
  exact ⟨fun h => congrArg _ (hunmapped h), fun h => congrArg _ (hmapped h)⟩

/-- Settles O24: none of the nine kinds is of format type 8. -/
theorem nonMaintenanceKindsForwardTheOriginalBytes : Obligations.NonMaintenanceKindsForwardTheOriginalBytes := by
  intro s port f rest i hin hf hk
  have hft : i.toPacket.ftype ≠ 8 := by
    rw [Instr.toPacket_ftype]
    generalize i.kind = k at hk
    revert k
    decide
  obtain ⟨hunmapped, hmapped⟩ := forward_eq_ended hin i.header.destId.toNat f
  rw [exec_of_notFatal i hin hf, handle_of_not_maintenance hft, Instr.toPacket_destId]
  exact ⟨fun h => congrArg _ (hunmapped h), fun h => congrArg _ (hmapped h)⟩

/-- Settles O28. -/
theorem terminalResponsesAreDropped : Obligations.TerminalResponsesAreDropped := by
  intro s port f rest h st tid pl hin hf
  rw [exec_of_notFatal _ hin hf, exec_of_notFatal _ hin hf, ← finish_eq_ended hin]
  exact ⟨rfl, rfl⟩

/-- Settles O45. -/
theorem fanOutServesEachSelectedPortOnceInOrder : Obligations.FanOutServesEachSelectedPortOnceInOrder :=
  fun _ _ => ⟨List.pairwise_lt_range.filter _, fun _ => mem_selectedPorts⟩

/-- Settles O46: three branches of `step` and of `onIngress`. -/
theorem idleUnwiredAndStrayCases : Obligations.IdleUnwiredAndStrayCases := by
  refine ⟨fun s h => ?_, fun s port f rest h hp => ?_, fun s i h => ?_⟩
  · simp only [step, h]
  · simp only [step, h, hp, if_true]
  · rcases onIngress_cases s fun port f => handle i port f s with ⟨port, f, rest, hin, -, -⟩ | ⟨port, f, rest, hin, -, -⟩ |
      ⟨-, he⟩
    · exact absurd hin (h port f rest)
    · exact absurd hin (h port f rest)
    · rw [exec_eq_onIngress, he]

end Sys2Proof.Machine
end

section
/-! SUPPORT. Forwarding a maintenance packet with its hop count one lower: what is encoded, and the bits of the frame that goes
out (rule R200). -/

namespace Sys2Proof

/-! ### The packet with another hop count -/

/-- The kinds with a hop count are the maintenance kinds (rules R86, R90, R91). -/
theorem Instr.toPacket_of_hop {i : Instr} {hop : BitVec 8} (h : i.hop = some hop) :
    i.toPacket.ftype = 8 ∧ i.toPacket.hopCount = hop.toNat := by
  cases i with
  | maintRdReq | maintWrReq | maintRdResp | maintWrResp => cases h; exact ⟨rfl, rfl⟩
  | _ => cases h

theorem Instr.toPacket_setHop {i : Instr} {hop : BitVec 8} (h : i.hop = some hop) (n : BitVec 8) :
    (i.setHop n).toPacket = { i.toPacket with hopCount := n.toNat } := by
  cases i with
  | maintRdReq | maintWrReq | maintRdResp | maintWrResp => rfl
  | _ => cases h

@[simp] theorem Instr.wf_setHop (pr : Params) (i : Instr) (n : BitVec 8) : (i.setHop n).wf pr = i.wf pr := by
  cases i <;> rfl

/-! ### A frame with other bits in the logical header -/

/-- Two frames with different bytes in the middle have the same bits elsewhere. -/
theorem bits_append_middle {x y y' z : Frame} (hl : y'.length = y.length) {b : Nat}
    (hb : b < 8 * x.length ∨ 8 * (x.length + y.length) ≤ b) (hlt : b < 8 * (x ++ y ++ z).length) :
    bits (x ++ y' ++ z) b 1 = bits (x ++ y ++ z) b 1 := by
  rcases hb with hb | hb
  · rw [List.append_assoc, List.append_assoc, bits_append_left _ hb, bits_append_left _ hb]
  · simp only [List.length_append] at hlt
    obtain ⟨q, rfl⟩ := Nat.exists_eq_add_of_le hb
    have hq : q + 1 ≤ 8 * z.length := by omega
    have hxy' := bits_append_right (x ++ y') hq
    have hxy := bits_append_right (x ++ y) hq
    rw [List.length_append, hl] at hxy'
    rw [List.length_append] at hxy
    rw [hxy', hxy]

/-- The hop count of a maintenance kind is the third byte of its logical header (rules R90, R91). -/
theorem hopCount_field {k : Kind} (hk : k.ftype = 8) :
    ⟨16, 8, .hopCount⟩ ∈ k.layout.fields ∧ ∀ lf ∈ k.layout.fields, lf.field = .hopCount → lf = ⟨16, 8, .hopCount⟩ := by
  cases k with
  | maintRdReq | maintWrReq | maintRdResp | maintWrResp => decide
  | _ => cases hk

theorem fieldValue_hopCount_of_ne (P : Packet) (hop : Nat) (code : Nat × Nat) {fld : Field} (h : fld ≠ .hopCount) :
    fieldValue { P with hopCount := hop } code fld = fieldValue P code fld := by
  cases fld with
  | hopCount => exact absurd rfl h
  | _ => rfl

theorem fieldsFit_hopCount_of_le {P : Packet} {code : Nat × Nat} {fields : List LayoutField}
    (hfit : fieldsFit P code fields = true) {hop : Nat} (hle : hop ≤ P.hopCount) :
    fieldsFit { P with hopCount := hop } code fields = true := by
  refine List.all_eq_true.2 fun lf hlf => decide_eq_true ?_
  have hlt := of_decide_eq_true (List.all_eq_true.1 hfit lf hlf)
  by_cases hfld : lf.field = .hopCount
  · rw [hfld] at hlt ⊢
    exact hle.trans_lt hlt
  · rwa [fieldValue_hopCount_of_ne P hop code hfld]

theorem length_frameOf_hopCount (P : Packet) (k : Kind) (code : Nat × Nat) (hop : Nat) :
    (frameOf k { P with hopCount := hop } code).length = (frameOf k P code).length :=
  (length_frameOf ..).trans (length_frameOf k P code).symm

/-- Outside the hop-count byte the encoder writes the same bits whatever the hop count. -/
theorem frameOf_hopCount_bit {P : Packet} {k : Kind} {code : Nat × Nat} (hk : k.ftype = 8) {hop : Nat}
    (hfit : fieldsFit P code k.layout.fields = true)
    (hfit' : fieldsFit { P with hopCount := hop } code k.layout.fields = true) {b : Nat}
    (hb : b < 8 * (frameOf k P code).length) (hout : b < 8 * (commonLen P.tt + 2) ∨ 8 * (commonLen P.tt + 2) + 8 ≤ b) :
    bits (frameOf k { P with hopCount := hop } code) b 1 = bits (frameOf k P code) b 1 := by
  have hcommon : (beBytes 1 (P.prio * 64 + P.tt * 16 + P.ftype) ++ beBytes (idBytes P.tt) P.destId ++
      beBytes (idBytes P.tt) P.srcId).length = commonLen P.tt := by
    simp only [List.length_append, length_beBytes, commonLen]
    ring
  by_cases hhead : b < 8 * commonLen P.tt ∨ 8 * (commonLen P.tt + k.layout.len) ≤ b
  · rw [← hcommon, ← length_beBytes k.layout.len (packFields P code k.layout.fields)] at hhead
    exact bits_append_middle (by simp only [length_beBytes]) hhead hb
  · have hlen := length_frameOf k P code
    have hlen' := length_frameOf_hopCount P k code hop
    obtain ⟨lf, hlf, hlo, hhi⟩ := exists_layout_field k.layout (b - 8 * commonLen P.tt) (by omega)
    have hle := layout_field_le hlf
    have hfld : lf.field ≠ .hopCount := fun h => by
      obtain rfl := (hopCount_field hk).2 lf hlf h
      dsimp only at hlo hhi
      omega
    have hsame : bits (frameOf k { P with hopCount := hop } code) (8 * commonLen P.tt + lf.offset) lf.width =
        bits (frameOf k P code) (8 * commonLen P.tt + lf.offset) lf.width :=
      calc _ = fieldValue { P with hopCount := hop } code lf.field := frame_field hfit' hlf
        _ = fieldValue P code lf.field := fieldValue_hopCount_of_ne P hop code hfld
        _ = _ := (frame_field hfit hlf).symm
    exact bit_eq_of_bits_eq (by omega) (by omega) hsame (by omega) (by omega)

/-- A packet that decoded encodes with its hop count one lower, and the frame is that of the packet but for the hop-count
byte, with the reserved bits cleared (rules R124, R200). -/
theorem encodePacket_hopCount_of_decodePacket {pr : Params} {f : Frame} {P : Packet} {n : Nat} {k : Kind}
    (hdec : decodePacket pr f = .ok (P, n)) (hft : P.ftype = 8) (hk : kindOf P.ftype P.transaction = some k) :
    let hopBit := 8 * (commonLen P.tt + 2)
    ∃ g, encodePacket pr { P with hopCount := P.hopCount - 1 } = .ok g ∧ g.length = n ∧ bits f hopBit 8 = P.hopCount ∧
      bits g hopBit 8 = P.hopCount - 1 ∧
      ∀ b < 8 * n, (b < hopBit ∨ hopBit + 8 ≤ b) →
        bits g b 1 = if reservedBit k (commonLen P.tt) b then 0 else bits f b 1 := by
  intro hopBit
  obtain ⟨k', code, hread, hcode, hpay, rfl, hlen, hmax⟩ := isReadFrom_of_decodePacket hdec
  obtain rfl : k' = k := Option.some.inj (hread.kind_eq.symm.trans hk)
  have hk8 : k'.ftype = 8 := (ftype_of_kindOf hk).trans hft
  obtain ⟨hhop, -⟩ := hopCount_field hk8
  have hfit := fieldsFit_hopCount_of_le hread.fieldsFit (Nat.sub_le P.hopCount 1)
  have hlen' := length_frameOf_hopCount P k' code (P.hopCount - 1)
  refine ⟨_, encodePacket_of_checks hread.tt_lt hk hread.prio_lt hread.destId_lt hread.srcId_lt hcode hfit hpay
    (hlen'.trans_le (hlen.trans hmax)), hlen', ?_, ?_, fun b hb hout => ?_⟩
  · exact (hread.field_eq _ hhop (by decide)).symm
  · exact frame_field hfit hhop
  · exact (frameOf_hopCount_bit hk8 hread.fieldsFit hfit hb hout).trans (hread.bit_eq hlen hb)

end Sys2Proof

namespace Sys2Proof.Machine

open Sys2Proof

theorem hopForward_of_encode {P : Packet} {s : State} {g : Frame}
    (h : encodePacket s.params { P with hopCount := P.hopCount - 1 } = .ok g) : hopForward P s = forward P.destId g s := by
  simp only [hopForward, h]

/-- A well-formed maintenance instruction with hops left encodes with one hop less, and that frame is forwarded (rules R200,
R204). -/
theorem handle_of_hop {s : State} {i : Instr} {hop : BitVec 8} (hlegal : s.params.Legal) (hwf : i.wf s.params = true)
    (hhop : i.hop = some hop) (hne : hop ≠ 0) :
    ∃ g, encode s.params (i.setHop (hop - 1)) = .ok g ∧
      ∀ port f, handle i port f s = forward i.header.destId.toNat g s := by
  obtain ⟨hft, hcount⟩ := Instr.toPacket_of_hop hhop
  obtain ⟨g, hg⟩ := encode_of_wf (i := i.setHop (hop - 1)) hlegal (by rwa [Instr.wf_setHop])
  refine ⟨g, hg, fun port f => ?_⟩
  have hpos : i.toPacket.hopCount ≠ 0 := by rwa [hcount, ne_eq, toNat_eq_zero_iff]
  have hsub : (hop - 1).toNat = i.toPacket.hopCount - 1 := by rw [hcount]; bv_omega
  rw [encode, Instr.toPacket_setHop hhop, hsub] at hg
  rw [handle_of_maintenance hft, if_neg hpos, hopForward_of_encode hg, Instr.toPacket_destId]

/-- Settles O25. -/
theorem maintenanceKindsForwardWithDecrement : Obligations.MaintenanceKindsForwardWithDecrement := by
  intro s port f rest i hop hin hf hlegal hwf hhop hne
  obtain ⟨g, hg, hhandle⟩ := handle_of_hop hlegal hwf hhop hne
  obtain ⟨hunmapped, hmapped⟩ := forward_eq_ended hin i.header.destId.toNat g
  rw [exec_of_notFatal i hin hf, hhandle]
  exact ⟨g, hg, fun h => congrArg _ (hunmapped h), fun h => congrArg _ (hmapped h)⟩

/-- A maintenance frame that decodes with hops left is forwarded with one hop less (rules R191, R200). -/
theorem step_of_hop {s : State} {port : Nat} {f : Frame} {rest : List Event} {P : Packet} {n : Nat}
    (hin : s.inbox = .ingress port f :: rest) (hp : port < s.params.nPorts) (hf : s.fatal = false)
    (hdec : decodePacket s.params f = .ok (P, n)) (hft : P.ftype = 8) (hhop : P.hopCount ≠ 0) :
    step s = .next (hopForward P s) := by
  obtain ⟨H, c, hhead, hbody⟩ := decodePacket_ok hdec
  obtain ⟨hH, -⟩ := header_of_decodeBody hbody
  rw [stepIsTheIngressAlgorithm s port f rest hin hp, ingress_of_body hf hhead (hH ▸ hft) hbody, if_neg hhop]

/-- Settles O35: the frame is the encoder's, whose bits outside the hop-count byte are those that were read. -/
theorem forwardedMaintenanceFrameBitByBit : Obligations.ForwardedMaintenanceFrameBitByBit := by
  intro s port f rest P n k hin hp hf hdec hft hhop hk hopBit
  obtain ⟨g, henc, hlen, hbefore, hafter, hbits⟩ := encodePacket_hopCount_of_decodePacket hdec hft hk
  obtain ⟨hunmapped, hmapped⟩ := forward_eq_ended hin P.destId g
  rw [step_of_hop hin hp hf hdec hft hhop, hopForward_of_encode henc]
  exact ⟨g, hlen, hbefore, hafter, hbits, fun h => congrArg _ (hunmapped h), fun h => congrArg _ (hmapped h)⟩

/-! ### The mapping type -/

/-- Two states with the same outputs made and the same status items. -/
structure SameOutcome (t u : State) : Prop where
  outputs_eq : u.outputs = t.outputs
  malformedCnt_eq : u.malformedCnt = t.malformedCnt
  fatal_eq : u.fatal = t.fatal

/-- The lookup reads the `valid` bit and the bitmap of its entry (rule R194). -/
theorem State.lookup_congr_bits {s t : State} {e : Nat} (hp : t.params = s.params)
    (h : ∀ k, k ≠ 1 → k ≠ 2 → (t.entry e).getLsbD k = (s.entry e).getLsbD k) : t.lookup e = s.lookup e := by
  have hvalid := h 0 (by decide) (by decide)
  have hbitmap : (t.entry e).extractLsb' 24 8 = (s.entry e).extractLsb' 24 8 :=
    BitVec.eq_of_getLsbD_eq fun p _ => by rw [getLsbD_bitmap, getLsbD_bitmap, h (24 + p) (by omega) (by omega)]
  simp only [State.lookup, hp, hvalid, hbitmap]

section MappingType

variable {s : State} {d : Nat} {v : Word} (hm : s.mem.wf = true)
  (hv : ∀ k, k ≠ 1 → k ≠ 2 → v.getLsbD k = (s.entry d).getLsbD k)

include hm hv

theorem State.lookup_setEntry_mappingType (e : Nat) : (s.setEntry d v).lookup e = s.lookup e := by
  by_cases he : e = d
  · subst he
    refine State.lookup_congr_bits (s.setEntry_params e v) fun k h1 h2 => ?_
    rw [State.entry_setEntry_same hm, hv k h1 h2]
  · exact State.lookup_setEntry_other v he

theorem forward_mappingType (e : Nat) (g : Frame) : SameOutcome (forward e g s) (forward e g (s.setEntry d v)) := by
  refine ⟨?_, by simp, by simp⟩
  have hlookup := State.lookup_setEntry_mappingType hm hv e
  rcases forward_cases e g s with ⟨hs, h⟩ | ⟨bm, hs, h⟩ <;>
    rcases forward_cases e g (s.setEntry d v) with ⟨ht, h'⟩ | ⟨bm', ht, h'⟩ <;>
    rw [hlookup, hs] at ht <;> cases ht <;> rw [h, h'] <;> rfl

theorem hopForward_mappingType (P : Packet) : SameOutcome (hopForward P s) (hopForward P (s.setEntry d v)) := by
  unfold hopForward
  rw [State.setEntry_params]
  split
  · exact ⟨rfl, rfl, rfl⟩
  · exact forward_mappingType hm hv _ _

end MappingType

/-- Settles O44: every lookup answers alike in the two states, and a forward and the encoder look at nothing else. -/
theorem mappingTypeHasNoEffectOnForwarding : Obligations.MappingTypeHasNoEffectOnForwarding := by
  intro s d v port f rest H c hm hv hin hp hhead hkind
  have hsame : SameOutcome (ingress port f s) (ingress port f (s.setEntry d v)) := by
    cases hf : s.fatal with
    | true =>
      rw [ingress_of_fatal hf, ingress_of_fatal (s := s.setEntry d v) hf]
      exact ⟨rfl, rfl, rfl⟩
    | false =>
      by_cases hft : H.ftype = 8
      · obtain ⟨P, n, hbody, hhop⟩ := hkind.resolve_left (not_not_intro hft)
        rw [ingress_of_body hf hhead hft hbody, ingress_of_body (s := s.setEntry d v) hf hhead hft hbody, if_neg hhop,
          if_neg hhop]
        exact hopForward_mappingType hm hv P
      · rw [ingress_of_not_maintenance hf hhead hft, ingress_of_not_maintenance (s := s.setEntry d v) hf hhead hft]
        exact forward_mappingType hm hv _ _
  exact ⟨_, _, stepIsTheIngressAlgorithm s port f rest hin hp, stepIsTheIngressAlgorithm (s.setEntry d v) port f rest hin hp,
    hsame.outputs_eq, hsame.malformedCnt_eq, hsame.fatal_eq⟩

end Sys2Proof.Machine
end

section
/-! SUPPORT. Under legal parameters every answer to a terminal request encodes, and so an arriving frame ends its event in one
of the dispositions that leave the fatal flag alone (rules R202, R204). -/

namespace Sys2Proof

theorem Header.wf_swap (h : Header) : h.swap.wf = h.wf := Bool.and_comm ..

end Sys2Proof

namespace Sys2Proof.Machine

open Sys2Proof

/-! ### The response -/

/-- The encoder sees no more of a response than the instruction it is (rules R91, R198). -/
theorem encodePacket_readResponse (pr : Params) (h : Header) (tid : BitVec 8) (off : BitVec 21) (sp : Span) (st : BitVec 4)
    (ds : List DWord) :
    encodePacket pr (responsePacket (Instr.maintRdReq h tid 0 off sp).toPacket st.toNat ds) =
      encode pr (.maintRdResp h.swap st tid 0xFF ds) := rfl

theorem encodePacket_writeResponse (pr : Params) (h : Header) (tid : BitVec 8) (off : BitVec 21) (sp : Span)
    (pl : List DWord) (st : BitVec 4) :
    encodePacket pr (responsePacket (Instr.maintWrReq h tid 0 off sp pl).toPacket st.toNat []) =
      encode pr (.maintWrResp h.swap st tid 0xFF) := rfl

/-- The status codes as operands of a response (rule R177). -/
theorem status_eq_toNat (ok : Bool) :
    (if ok then statusDone else statusError) = (if ok then 0 else 7 : BitVec 4).toNat := by
  cases ok <;> rfl

theorem respond_of_encode {P : Packet} {s : State} {acc : Access State} {g : Frame}
    (h : encodePacket s.params (responsePacket P acc.status acc.payload) = .ok g) (port : Nat) :
    respond port P (.ok acc) s = acc.target.finish [.deliver port g] .responded := by
  simp only [respond, h]

/-- The span of a well-formed request has a mask (rules R97, R125). -/
theorem exists_mask_of_span_wf {pr : Params} {sp : Span} (h : sp.wf pr = true) :
    ∃ m, rdwrDwMaskFromSpan sp.rdwrBytes sp.dwOffset = .ok m := by
  obtain ⟨⟨code, hcode⟩, -⟩ := Span.wf_iff.1 h
  obtain ⟨rfl, hsz, hwp⟩ := sizeDecode_of_sizeEncode hcode
  exact maskSelectsTheBytesOfTheSpan.2.2.1 _ _ hsz hwp

section Requests

variable {s : State} {h : Header} {tid : BitVec 8} {off : BitVec 21} {sp : Span} (hlegal : s.params.Legal)

include hlegal

/-- A terminal read whose access was made is answered (rule R198). -/
theorem terminalRead_of_access (hwf : (Instr.maintRdReq h tid 0 off sp).wf s.params = true) {st : BitVec 4}
    {ds : List DWord} (hds : ds.length ≤ s.params.maxPayloadDw)
    (hacc : maintRead localTarget (Instr.maintRdReq h tid 0 off sp).toPacket s = .ok ⟨s, st.toNat, ds⟩) :
    ∃ g, encode s.params (.maintRdResp h.swap st tid 0xFF ds) = .ok g ∧
      ∀ port, terminalRead port (Instr.maintRdReq h tid 0 off sp).toPacket s = s.finish [.deliver port g] .responded := by
  obtain ⟨hheader, -⟩ := Bool.and_eq_true_iff.1 hwf
  obtain ⟨g, hg⟩ := encode_of_wf (i := .maintRdResp h.swap st tid 0xFF ds) hlegal
    (Bool.and_eq_true_iff.2 ⟨(Header.wf_swap h).trans hheader, decide_eq_true hds⟩)
  refine ⟨g, hg, fun port => ?_⟩
  rw [terminalRead, hacc]
  exact respond_of_encode ((encodePacket_readResponse ..).trans hg) port

/-- A terminal write whose access was made is answered (rule R198). -/
theorem terminalWrite_of_access {pl : List DWord} (hwf : (Instr.maintWrReq h tid 0 off sp pl).wf s.params = true)
    {st : BitVec 4} {u : State}
    (hacc : maintWrite localTarget (Instr.maintWrReq h tid 0 off sp pl).toPacket s = .ok ⟨u, st.toNat, []⟩) :
    ∃ g, encode s.params (.maintWrResp h.swap st tid 0xFF) = .ok g ∧
      ∀ port, terminalWrite port (Instr.maintWrReq h tid 0 off sp pl).toPacket s = u.finish [.deliver port g] .responded := by
  obtain ⟨hheader, -⟩ := Bool.and_eq_true_iff.1 hwf
  obtain ⟨g, hg⟩ := encode_of_wf (i := .maintWrResp h.swap st tid 0xFF) hlegal ((Header.wf_swap h).trans hheader)
  refine ⟨g, hg, fun port => ?_⟩
  rw [terminalWrite, hacc]
  exact respond_of_encode ((encodePacket_writeResponse ..).trans hg) port

end Requests

/-! ### How an arriving frame ends its event -/

/-- State `t` ends the event of a frame that arrived at `port` in state `s`, in one of the rows of rule R202 that leave the
fatal flag alone. -/
inductive SafeEnd (s : State) (port : Nat) : State → Prop
  | forwarded (bm : BitVec 8) (g : Frame) :
      SafeEnd s port (s.finish ((selectedPorts s.params.nPorts bm).map fun p => .deliver p g) .forwarded)
  /-- The accesses of the request have left `u`, which differs from `s` in the register space at most. -/
  | responded {u : State} (g : Frame) (hp : u.params = s.params) (hc : u.malformedCnt = s.malformedCnt)
      (hf : u.fatal = s.fatal) (hi : u.inbox = s.inbox) (ho : u.outputs = s.outputs) :
      SafeEnd s port (u.finish [.deliver port g] .responded)
  | malformed (r : DecodeError) : SafeEnd s port (s.countMalformed.finish [] (.dropDecode r))
  | unmapped : SafeEnd s port (s.finish [] .dropUnmapped)
  | unhandled : SafeEnd s port (s.finish [] .dropMaintUnhandled)
  | ignored (hf : s.fatal = true) : SafeEnd s port (s.finish [] .ignoredFatal)

theorem SafeEnd.fatal_eq {s t : State} {port : Nat} (h : SafeEnd s port t) : t.fatal = s.fatal := by
  cases h with
  | responded _ _ _ hf => exact hf
  | _ => rfl

theorem forward_safeEnd (dest : Nat) (g : Frame) (port : Nat) (s : State) : SafeEnd s port (forward dest g s) := by
  rcases forward_cases dest g s with ⟨-, h⟩ | ⟨bm, -, h⟩ <;> rw [h]
  · exact .unmapped
  · exact .forwarded bm g

/-- A well-formed terminal read ends in RESPONDED (rules R198, R204). -/
theorem terminalRead_safeEnd {s : State} (hlegal : s.params.Legal) {h : Header} {tid : BitVec 8} {off : BitVec 21}
    {sp : Span} (hwf : (Instr.maintRdReq h tid 0 off sp).wf s.params = true) (port : Nat) :
    SafeEnd s port (terminalRead port (Instr.maintRdReq h tid 0 off sp).toPacket s) := by
  obtain ⟨-, hspan⟩ := Bool.and_eq_true_iff.1 hwf
  obtain ⟨-, hcnt⟩ := Span.wf_iff.1 hspan
  obtain ⟨m, hm⟩ := exists_mask_of_span_wf hspan
  rcases maintRead_cases (T := localTarget) (Instr.maintRdReq h tid 0 off sp).toPacket s with ⟨hbad, -⟩ |
    ⟨-, -, ⟨u, -, hacc⟩ | ⟨u, ds, -, hds, hacc⟩⟩
  · cases hm.symm.trans hbad
  · obtain rfl : u = s := maintRead_local_target hacc
    obtain ⟨g, -, hend⟩ := terminalRead_of_access (st := 7) hlegal hwf (Nat.zero_le _) hacc
    rw [hend port]
    exact .responded g rfl rfl rfl rfl rfl
  · obtain rfl : u = s := maintRead_local_target hacc
    obtain ⟨g, -, hend⟩ := terminalRead_of_access (st := 0) hlegal hwf (hds.trans_le hcnt) hacc
    rw [hend port]
    exact .responded g rfl rfl rfl rfl rfl

/-- A well-formed terminal write ends in RESPONDED (rules R198, R204). -/
theorem terminalWrite_safeEnd {s : State} (hlegal : s.params.Legal) {h : Header} {tid : BitVec 8} {off : BitVec 21}
    {sp : Span} {pl : List DWord} (hwf : (Instr.maintWrReq h tid 0 off sp pl).wf s.params = true) (port : Nat) :
    SafeEnd s port (terminalWrite port (Instr.maintWrReq h tid 0 off sp pl).toPacket s) := by
  obtain ⟨-, hpl⟩ := Bool.and_eq_true_iff.1 hwf
  obtain ⟨hspan, hlen⟩ := Bool.and_eq_true_iff.1 hpl
  obtain ⟨m, hm⟩ := exists_mask_of_span_wf hspan
  rcases maintWrite_cases (T := localTarget) (Instr.maintWrReq h tid 0 off sp pl).toPacket s with ⟨hne, -⟩ |
    ⟨-, ⟨hbad, -⟩ | ⟨-, u, ok, -, -, hacc⟩⟩
  · exact absurd (of_decide_eq_true hlen) hne
  · cases hm.symm.trans hbad
  · obtain ⟨hp, hc, hf, hi, ho⟩ := maintWrite_local_frame hacc
    rw [status_eq_toNat] at hacc
    obtain ⟨g, -, hend⟩ := terminalWrite_of_access hlegal hwf hacc
    rw [hend port]
    exact .responded g hp hc hf hi ho

/-- A well-formed instruction, under legal parameters (rules R193, R197 to R200, R204). -/
theorem handle_safeEnd {s : State} (hlegal : s.params.Legal) {i : Instr} (hwf : i.wf s.params = true) (port : Nat)
    (f : Frame) : SafeEnd s port (handle i port f s) := by
  by_cases hleft : ∃ hop, i.hop = some hop ∧ hop ≠ 0
  · obtain ⟨hop, hhop, hne⟩ := hleft
    obtain ⟨g, -, hhandle⟩ := handle_of_hop hlegal hwf hhop hne
    rw [hhandle]
    exact forward_safeEnd _ _ _ _
  · have hzero : ∀ hop, i.hop = some hop → hop = 0 := fun hop hhop => Decidable.not_not.1 fun hne => hleft ⟨hop, hhop, hne⟩
    cases i with
    | maintRdReq h tid hop off sp => cases hzero hop rfl; exact terminalRead_safeEnd hlegal hwf port
    | maintWrReq h tid hop off sp pl => cases hzero hop rfl; exact terminalWrite_safeEnd hlegal hwf port
    | maintRdResp h st tid hop pl => cases hzero hop rfl; exact .unhandled
    | maintWrResp h st tid hop => cases hzero hop rfl; exact .unhandled
    | _ => exact forward_safeEnd _ _ _ _

theorem undecoded_safeEnd (e : DecodeError) (f : Frame) (port : Nat) (s : State) : SafeEnd s port (undecoded e f s) := by
  unfold undecoded
  split
  · exact .malformed _
  · split
    · exact .malformed _
    · exact forward_safeEnd _ _ _ _

/-- Every frame that arrives on a wired port ends its event so, under legal parameters (rules R202, R204). -/
theorem step_safeEnd {s : State} (hlegal : s.params.Legal) {port : Nat} {f : Frame} {rest : List Event}
    (hin : s.inbox = .ingress port f :: rest) (hp : port < s.params.nPorts) :
    ∃ t, step s = .next t ∧ SafeEnd s port t := by
  cases hf : s.fatal with
  | true => exact ⟨_, step_of_fatal hin hp hf, .ignored hf⟩
  | false =>
    obtain ⟨hok, herr⟩ := step_of_decode hin hp hf
    cases hd : decode s.params f with
    | ok r => exact ⟨_, hok r.1 r.2 hd, handle_safeEnd hlegal (decodedInstructionsAreWellFormed _ _ _ _ hd).1 port f⟩
    | error e => exact ⟨_, herr e hd, undecoded_safeEnd e f port s⟩

/-! ### The obligations -/

/-- Settles O37: an arriving frame ends its event without touching the flag, and no other event sets it. -/
theorem fatalIsUnreachable : Obligations.FatalIsUnreachable := by
  intro s t hlegal hf h
  refine ⟨?_, (step_effect h).params_eq ▸ hlegal⟩
  have harrival : ∀ port f rest, s.inbox = .ingress port f :: rest → port < s.params.nPorts → t.fatal = false := by
    intro port f rest hin hp
    obtain ⟨t', ht', hend⟩ := step_safeEnd hlegal hin hp
    cases ht'.symm.trans h
    exact hend.fatal_eq.trans hf
  rcases step_cases s with ⟨-, e⟩ | ⟨a, rest, -, e⟩ | ⟨a, v, m, rest, -, e⟩ | ⟨rest, -, e⟩ | ⟨rest, -, e⟩ |
    ⟨port, f, rest, hin, ⟨-, e⟩ | ⟨hp, -⟩ | ⟨hp, -⟩⟩
  · cases e.symm.trans h; exact hf
  · cases e.symm.trans h; exact hf
  · cases e.symm.trans h; simpa using hf
  · cases e.symm.trans h; exact hf
  · cases e.symm.trans h; rfl
  · cases e.symm.trans h
  · exact harrival port f rest hin hp
  · exact harrival port f rest hin hp

theorem length_selectedPorts_le (n : Nat) (bm : BitVec 8) : (selectedPorts n bm).length ≤ n :=
  (List.length_filter_le ..).trans_eq List.length_range

/-- Settles O40: each way to end an event is a row of the table. -/
theorem everyIngressEventEndsInOneDisposition : Obligations.EveryIngressEventEndsInOneDisposition := by
  refine ⟨fun s port f rest hlegal hin hp => ?_, rfl, rfl, fun _ => rfl, rfl, rfl, rfl, rfl⟩
  have htail : s.inbox.tail = rest := congrArg List.tail hin
  obtain ⟨t, hstep, hend⟩ := step_safeEnd hlegal hin hp
  refine ⟨t, ?_⟩
  cases hend with
  | forwarded bm g =>
    exact ⟨_, .forwarded, hstep, rfl, htail, rfl, by simp, by simpa using length_selectedPorts_le _ bm, rfl, rfl, rfl⟩
  | responded g hp hc hf hi ho =>
    exact ⟨[.deliver port g], .responded, hstep, by rw [State.finish_outputs, ho],
      by rw [State.finish_inbox, hi, htail], hp, by simp, ⟨g, rfl⟩, hc, hf⟩
  | malformed r => exact ⟨[], .dropDecode r, hstep, rfl, htail, rfl, by simp, rfl, rfl, rfl, rfl⟩
  | unmapped => exact ⟨[], .dropUnmapped, hstep, rfl, htail, rfl, by simp, rfl, rfl, rfl, rfl⟩
  | unhandled => exact ⟨[], .dropMaintUnhandled, hstep, rfl, htail, rfl, by simp, rfl, rfl, rfl, rfl⟩
  | ignored hf => exact ⟨[], .ignoredFatal, hstep, rfl, htail, rfl, by simp, hf, rfl, rfl, rfl, rfl⟩

end Sys2Proof.Machine
end

section
/-! SUPPORT. Reading the local registers: the words a maintenance read takes, and what it answers (rules R171, R172, R230). -/

namespace Sys2Proof.Machine

open Sys2Proof

/-! ### One word -/

/-- An aligned address names an entry when it is implemented (rule R57). -/
theorem State.exists_entryAt_iff {s : State} {a : Nat} (ha : a % 4 = 0) : (∃ d, s.entryAt a = some d) ↔ s.implemented a := by
  rw [← Option.ne_none_iff_exists', ne_eq, State.entryAt_eq_none]
  unfold State.implemented
  omega

/-- Word `j` of an access at byte address `A` does not fail: its call is not made, or goes to an implemented address (rules
R172, R173). -/
def State.serves (s : State) (m : DWord) (A j : Nat) : Prop :=
  laneMask m j ≠ 0 → s.implemented (A + 4 * j)

/-- Word `j` of a read at byte address `A`, under its lane mask (rule R172). -/
def State.maskedWord (s : State) (m : DWord) (A j : Nat) : Word :=
  (s.localRead32 (A + 4 * j)).getD 0 &&& laneMask m j

/-- Double-word `k` of a read, the word at the lower address in the low half (rule R53). -/
def State.maskedDouble (s : State) (m : DWord) (A k : Nat) : DWord :=
  s.maskedWord m A (2 * k + 1) ++ s.maskedWord m A (2 * k)

/-- Two words put together as the translator does (rule R53). -/
theorem or_shiftLeft_eq_append (hi lo : Word) :
    lo.setWidth 64 <<< (32 * 0) ||| hi.setWidth 64 <<< (32 * 1) = (hi ++ lo : DWord) := by
  refine BitVec.eq_of_getLsbD_eq fun k hk => ?_
  rw [BitVec.getLsbD_append]
  by_cases hlow : k < 32
  · simp [hlow, hk]
  · simp [hlow, hk, BitVec.getLsbD_of_ge lo k (Nat.le_of_not_lt hlow)]

section Words

variable {s : State} {m : DWord} {A : Nat} (hA : A % 4 = 0)

include hA

theorem readLane_local {j w a : Nat} (hw : j % 2 = w) (ha : a = A + 4 * j) :
    (s.serves m A j →
      readLane localTarget m w a s = (s, some ((s.maskedWord m A j).setWidth 64 <<< (32 * w)))) ∧
      (¬ s.serves m A j → readLane localTarget m w a s = (s, none)) := by
  have hmask : wmask m w = laneMask m j := by rw [laneMask, hw]
  have himpl := State.exists_entryAt_iff (s := s) (a := A + 4 * j) (by omega)
  refine ⟨fun hserves => ?_, fun hno => ?_⟩
  · by_cases hz : laneMask m j = 0
    · simp [readLane, State.maskedWord, hmask, hz]
    · obtain ⟨d, hd⟩ := himpl.2 (hserves hz)
      simp only [readLane, localTarget, State.maskedWord, hmask, ha, hz, if_false, State.localRead32_of_some hd,
        Option.getD_some]
  · obtain ⟨hz, hout⟩ := Classical.not_imp.1 hno
    have hnone : s.entryAt (A + 4 * j) = none :=
      Option.eq_none_iff_forall_ne_some.2 fun d hd => hout (himpl.1 ⟨d, hd⟩)
    simp only [readLane, localTarget, hmask, ha, hz, if_false, State.localRead32_of_none hnone]

/-! ### The double-words -/

theorem readDouble_local {k a : Nat} (ha : a = A + 8 * k) :
    (s.serves m A (2 * k) ∧ s.serves m A (2 * k + 1) →
      readDouble localTarget m a s = (s, some (s.maskedDouble m A k))) ∧
      (¬ (s.serves m A (2 * k) ∧ s.serves m A (2 * k + 1)) → readDouble localTarget m a s = (s, none)) := by
  obtain ⟨hlow, hlow'⟩ := readLane_local (s := s) (m := m) hA (j := 2 * k) (w := 0) (a := a) (by omega) (by omega)
  obtain ⟨hhigh, hhigh'⟩ := readLane_local (s := s) (m := m) hA (j := 2 * k + 1) (w := 1) (a := a + 4) (by omega) (by omega)
  refine ⟨fun ⟨h0, h1⟩ => ?_, fun hno => ?_⟩
  · simp only [readDouble, hlow h0, hhigh h1, or_shiftLeft_eq_append, State.maskedDouble]
  · by_cases h0 : s.serves m A (2 * k)
    · simp only [readDouble, hlow h0, hhigh' fun h1 => hno ⟨h0, h1⟩]
    · simp only [readDouble, hlow' h0]

theorem readDoubles_local (cnt : Nat) {k a : Nat} (ha : a = A + 8 * k) :
    ((∀ j, 2 * k ≤ j → j < 2 * (k + cnt) → s.serves m A j) →
      readDoubles localTarget m cnt a s = (s, some ((List.range' k cnt).map (s.maskedDouble m A)))) ∧
      ((∃ j, 2 * k ≤ j ∧ j < 2 * (k + cnt) ∧ ¬ s.serves m A j) → readDoubles localTarget m cnt a s = (s, none)) := by
  induction cnt generalizing k a with
  | zero => exact ⟨fun _ => rfl, fun ⟨j, h1, h2, _⟩ => by omega⟩
  | succ cnt ih =>
    obtain ⟨hfirst, hfirst'⟩ := readDouble_local (s := s) (m := m) hA ha
    obtain ⟨hrest, hrest'⟩ := ih (k := k + 1) (a := a + 8) (by omega)
    refine ⟨fun h => ?_, fun ⟨j, hj, hj', hno⟩ => ?_⟩
    · simp only [readDoubles, hfirst ⟨h _ (by omega) (by omega), h _ (by omega) (by omega)⟩,
        hrest fun j hj hj' => h j (by omega) (by omega), List.range'_succ, List.map_cons]
    · by_cases hboth : s.serves m A (2 * k) ∧ s.serves m A (2 * k + 1)
      · obtain ⟨h0, h1⟩ := hboth
        have hj2 : 2 * (k + 1) ≤ j := by
          by_contra hlt
          obtain rfl | rfl : j = 2 * k ∨ j = 2 * k + 1 := by omega
          · exact hno h0
          · exact hno h1
        simp only [readDoubles, hfirst ⟨h0, h1⟩, hrest' ⟨j, hj2, by omega, hno⟩]
      · simp only [readDoubles, hfirst' hboth]

end Words

/-- A maintenance read of the local registers answers the masked words if every call goes to an implemented address, and
ERROR without a payload otherwise (rules R172, R177). -/
theorem maintRead_local {s : State} {m : DWord} {P : Packet} (hm : rdwrDwMaskFromSpan P.rdwrBytes P.dwOffset = .ok m) :
    let cnt := divCeil8 P.rdwrBytes
    let A := 8 * P.configOffset
    ((∀ j, j < 2 * cnt → s.serves m A j) →
      maintRead localTarget P s = .ok ⟨s, statusDone, (List.range cnt).map (s.maskedDouble m A)⟩) ∧
      ((∃ j, j < 2 * cnt ∧ ¬ s.serves m A j) → maintRead localTarget P s = .ok ⟨s, statusError, []⟩) := by
  intro cnt A
  obtain ⟨hok, hfail⟩ := readDoubles_local (s := s) (m := m) (A := A) (k := 0) (by omega) cnt (configAddress_eq P)
  refine ⟨fun h => ?_, fun ⟨j, hj, hno⟩ => ?_⟩
  · simp only [maintRead, hm, cnt, hok fun j _ hj => h j (by omega), List.range_eq_range']
  · simp only [maintRead, hm, show divCeil8 P.rdwrBytes = cnt from rfl, hfail ⟨j, by omega, by omega, hno⟩]

/-- Settles O26: what the access answers, and the response that is made of it. -/
theorem terminalReadIsAnswered : Obligations.TerminalReadIsAnswered := by
  intro s port f rest h tid off sp m hin hf hlegal hwf hm cnt a word
  obtain ⟨-, hspan⟩ := Bool.and_eq_true_iff.1 hwf
  obtain ⟨-, hcnt⟩ := Span.wf_iff.1 hspan
  obtain ⟨hdone, herror⟩ := maintRead_local (s := s) (P := (Instr.maintRdReq h tid 0 off sp).toPacket) hm
  rw [exec_of_notFatal _ hin hf]
  refine ⟨fun hall => ?_, fun ⟨j, hj, hmask, hout⟩ => ?_⟩
  · obtain ⟨g, hg, hend⟩ := terminalRead_of_access (st := 0) hlegal hwf (by rw [List.length_map, List.length_range]; exact hcnt) (hdone hall)
    refine ⟨g, hg, ?_⟩
    rw [← finish_eq_ended hin, ← hend port]
    rfl
  · obtain ⟨g, hg, hend⟩ := terminalRead_of_access (st := 7) hlegal hwf (Nat.zero_le _)
      (herror ⟨j, hj, fun hserves => hout (hserves hmask)⟩)
    refine ⟨g, hg, ?_⟩
    rw [← finish_eq_ended hin, ← hend port]
    rfl

end Sys2Proof.Machine
end

section
/-! SUPPORT. Writing the local registers: a maintenance write as a run over its words, and what the table holds after each of
them (rules R171, R173, R176, R231). -/

namespace Sys2Proof.Machine

open Sys2Proof

/-! ### The run over the words -/

/-- Word `j` of a payload (rule R173). -/
def payloadWord (pl : List DWord) (j : Nat) : Word :=
  ((pl.getD (j / 2) 0) >>> (32 * (j % 2))).setWidth 32

/-- Word `j` of a write of `pl` at byte address `A`, after a run that left `r`: nothing more is done after a failure, nor
under a zero lane mask (rules R173, R176). -/
def writeWord (m : DWord) (A : Nat) (pl : List DWord) (r : State × Bool) (j : Nat) : State × Bool :=
  if r.2 = false ∨ laneMask m j = 0 then r else r.1.localWrite32 (A + 4 * j) (payloadWord pl j) (laneMask m j)

theorem foldl_writeWord_of_failed (m : DWord) (A : Nat) (pl : List DWord) (t : State) (l : List Nat) :
    l.foldl (writeWord m A pl) (t, false) = (t, false) := by
  induction l with
  | nil => rfl
  | cons j l ih => exact ih

section Run

variable {m : DWord} {A : Nat} {pl : List DWord}

theorem writeLane_local {j w a : Nat} {d : DWord} (hw : j % 2 = w) (ha : a = A + 4 * j) (hd : pl.getD (j / 2) 0 = d)
    (t : State) : writeLane localTarget m w a d t = writeWord m A pl (t, true) j := by
  have hmask : wmask m w = laneMask m j := by rw [laneMask, hw]
  simp only [writeLane, writeWord, payloadWord, hmask, ha, hd, hw, Bool.true_eq_false, false_or, localTarget]

theorem writeDouble_local {k a : Nat} {d : DWord} (ha : a = A + 8 * k) (hd : pl.getD k 0 = d) (t : State) :
    writeDouble localTarget m a d t = ([2 * k] ++ [2 * k + 1]).foldl (writeWord m A pl) (t, true) := by
  have hlo : pl.getD (2 * k / 2) 0 = d := by rwa [show 2 * k / 2 = k by omega]
  have hhi : pl.getD ((2 * k + 1) / 2) 0 = d := by rwa [show (2 * k + 1) / 2 = k by omega]
  rw [List.singleton_append, List.foldl_cons, List.foldl_cons, List.foldl_nil, writeDouble,
    writeLane_local (A := A) (j := 2 * k) (by omega) (by omega) hlo]
  split <;> rename_i he <;> rw [he]
  · exact (foldl_writeWord_of_failed m A pl _ [2 * k + 1]).symm
  · exact writeLane_local (by omega) (by omega) hhi _

/-- The rest of a write from double-word `k` on, whose double-words are those of the payload from `k` on. -/
theorem writeDoubles_local (ds : List DWord) {k a : Nat} (ha : a = A + 8 * k) (hds : pl.drop k = ds) (t : State) :
    writeDoubles localTarget m ds a t = (List.range' (2 * k) (2 * ds.length)).foldl (writeWord m A pl) (t, true) := by
  induction ds generalizing k a t with
  | nil => rfl
  | cons d ds ih =>
    have hd : pl.getD k 0 = d := by
      rw [List.getD_eq_getElem?_getD, ← List.head?_drop, hds]
      rfl
    have hdrop : pl.drop (k + 1) = ds := by rw [← List.tail_drop, hds, List.tail_cons]
    rw [List.length_cons, range'_doubles_succ, List.foldl_append, writeDoubles, writeDouble_local ha hd]
    split <;> rename_i he <;> rw [he]
    · exact (foldl_writeWord_of_failed ..).symm
    · exact ih (by omega) hdrop _

end Run

/-! ### The table after each word -/

theorem Memory.readWord_congr {m n : Memory} {a : Nat} (h : ∀ b, a ≤ b → b < a + 4 → m.readByte b = n.readByte b) :
    m.readWord a = n.readWord a := by
  unfold Memory.readWord
  rw [h a (by omega) (by omega), h (a + 1) (by omega) (by omega), h (a + 2) (by omega) (by omega),
    h (a + 3) (by omega) (by omega)]

/-- The accessor is called for word `j`: its lane mask is not zero, and no earlier word has failed (rules R173, R176). -/
def State.calls (s : State) (m : DWord) (A j : Nat) : Prop :=
  laneMask m j ≠ 0 ∧ ∀ k < j, s.serves m A k

/-- What a write of `pl` at byte address `A` has made of state `s` after its first `n` words. -/
structure WordsWritten (s : State) (m : DWord) (A : Nat) (pl : List DWord) (n : Nat) (r : State × Bool) : Prop where
  wf : r.1.mem.wf = true
  params_eq : r.1.params = s.params
  ok_iff : r.2 = true ↔ ∀ k < n, s.serves m A k
  entry_eq : ∀ d j, j < n → d < s.params.nDest → s.calls m A j → A + 4 * j = s.entryAddress d →
    r.1.entry d = mergeEntry s.params.nrMask (s.entry d) (payloadWord pl j) (laneMask m j)
  byte_eq : ∀ b, (∀ j < n, s.calls m A j → s.implemented (A + 4 * j) → b < A + 4 * j ∨ A + 4 * j + 4 ≤ b) →
    r.1.mem.readByte b = s.mem.readByte b

namespace WordsWritten

variable {s : State} {m : DWord} {A : Nat} {pl : List DWord} {n : Nat} {r : State × Bool}

theorem start (hm : s.mem.wf = true) : WordsWritten s m A pl 0 (s, true) :=
  ⟨hm, rfl, by simp, fun _ _ hj => absurd hj (Nat.not_lt_zero _), fun _ _ => rfl⟩

theorem calls_iff (h : WordsWritten s m A pl n r) : s.calls m A n ↔ laneMask m n ≠ 0 ∧ r.2 = true := by
  rw [State.calls, h.ok_iff]

/-- A word whose call is not made changes nothing. -/
theorem skip (h : WordsWritten s m A pl n r) (hn : ¬ s.calls m A n) : WordsWritten s m A pl (n + 1) r := by
  refine ⟨h.wf, h.params_eq, ?_, fun d j hj hd hc ha => ?_, fun b hb => h.byte_eq b fun j hj => hb j (by omega)⟩
  · rw [Nat.forall_lt_succ_right, ← h.ok_iff, iff_self_and]
    exact fun hok hz => absurd (h.calls_iff.2 ⟨hz, hok⟩) hn
  · rcases Nat.lt_succ_iff_lt_or_eq.1 hj with hj | rfl
    · exact h.entry_eq d j hj hd hc ha
    · exact absurd hc hn

/-- A call that fails changes nothing, and the run has failed (rule R176). -/
theorem fail (h : WordsWritten s m A pl n r) (hn : laneMask m n ≠ 0) (hout : ¬ s.implemented (A + 4 * n)) :
    WordsWritten s m A pl (n + 1) (r.1, false) := by
  refine ⟨h.wf, h.params_eq, ?_, fun d j hj hd hc ha => ?_, fun b hb => h.byte_eq b fun j hj => hb j (by omega)⟩
  · rw [Nat.forall_lt_succ_right]
    exact iff_of_false Bool.false_ne_true fun hall => hout (hall.2 hn)
  · rcases Nat.lt_succ_iff_lt_or_eq.1 hj with hj | rfl
    · exact h.entry_eq d j hj hd hc ha
    · rw [State.entryAddress] at ha
      exact absurd ⟨by omega, by omega⟩ hout

/-- A call that succeeds merges its entry, which no earlier word has touched (rule R231). -/
theorem store (h : WordsWritten s m A pl n r) (hn : s.calls m A n) {d : Nat} (hin : s.implemented (A + 4 * n))
    (hd : s.entryAddress d = A + 4 * n) :
    WordsWritten s m A pl (n + 1)
      (r.1.setEntry d (mergeEntry r.1.params.nrMask (r.1.entry d) (payloadWord pl n) (laneMask m n)), true) := by
  have haddr : r.1.entryAddress d = A + 4 * n := by simpa only [State.entryAddress, h.params_eq] using hd
  have hold : r.1.entry d = s.entry d := by
    rw [State.entry, State.entry, haddr, hd]
    exact Memory.readWord_congr fun b hb hb' => h.byte_eq b fun j hj _ _ => by omega
  refine ⟨Memory.writeWord_wf h.wf _ _, h.params_eq, ?_, fun e j hj he hc ha => ?_, fun b hb => ?_⟩
  · obtain ⟨-, hbefore⟩ := hn
    rw [Nat.forall_lt_succ_right]
    exact iff_of_true rfl ⟨hbefore, fun _ => hin⟩
  · rcases Nat.lt_succ_iff_lt_or_eq.1 hj with hj | rfl
    · have hne : e ≠ d := by
        rintro rfl
        omega
      rw [State.entry_setEntry_other _ hne]
      exact h.entry_eq e j hj he hc ha
    · obtain rfl : e = d := by
        simp only [State.entryAddress] at ha hd
        omega
      rw [State.entry_setEntry_same h.wf, hold, h.params_eq]
  · rw [State.setEntry_mem, Memory.readByte_writeWord_other _ (by rw [haddr]; exact hb n (by omega) hn hin)]
    exact h.byte_eq b fun j hj => hb j (by omega)

/-- One word more. -/
theorem succ (h : WordsWritten s m A pl n r) (hbase : s.params.mapBase % 4 = 0) (hA : A % 4 = 0) :
    WordsWritten s m A pl (n + 1) (writeWord m A pl r n) := by
  have himpl := State.exists_entryAt_iff (s := s) (a := A + 4 * n) (by omega)
  have hat : r.1.entryAt (A + 4 * n) = s.entryAt (A + 4 * n) := by simp only [State.entryAt, h.params_eq]
  by_cases hn : s.calls m A n
  · obtain ⟨hz, hok⟩ := h.calls_iff.1 hn
    rw [writeWord, if_neg (not_or.2 ⟨by simp [hok], hz⟩)]
    rcases r.1.localWrite32_cases (A + 4 * n) (payloadWord pl n) (laneMask m n) with ⟨hnone, e⟩ | ⟨d, hd, e⟩ <;> rw [e]
    · exact h.fail hz fun hin => by
        obtain ⟨d, hd⟩ := himpl.2 hin
        simp [hat, hd] at hnone
    · rw [hat] at hd
      exact h.store hn (himpl.1 ⟨d, hd⟩) (State.entryAddress_of_entryAt hbase hd)
  · have hskip : r.2 = false ∨ laneMask m n = 0 := by
      rw [← Bool.not_eq_true]
      by_contra hboth
      exact hn (h.calls_iff.2 ⟨fun hz => hboth (.inr hz), Decidable.not_not.1 fun hok => hboth (.inl hok)⟩)
    rw [writeWord, if_pos hskip]
    exact h.skip hn

end WordsWritten

theorem wordsWritten_foldl {s : State} (hm : s.mem.wf = true) (hbase : s.params.mapBase % 4 = 0) (m : DWord) {A : Nat}
    (hA : A % 4 = 0) (pl : List DWord) (n : Nat) :
    WordsWritten s m A pl n ((List.range n).foldl (writeWord m A pl) (s, true)) := by
  induction n with
  | zero => exact .start hm
  | succ n ih =>
    rw [List.range_succ, List.foldl_append]
    exact ih.succ hbase hA

/-- A maintenance write of the local registers runs over its words, and its status says whether one failed (rules R173,
R177). -/
theorem maintWrite_local {s : State} {m : DWord} {P : Packet} (hm : s.mem.wf = true) (hlegal : s.params.Legal)
    (hmask : rdwrDwMaskFromSpan P.rdwrBytes P.dwOffset = .ok m) (hlen : P.payloadLen = divCeil8 P.rdwrBytes) :
    ∃ u ok, maintWrite localTarget P s = .ok ⟨u, if ok then statusDone else statusError, []⟩ ∧
      WordsWritten s m (8 * P.configOffset) P.payload (2 * divCeil8 P.rdwrBytes) (u, ok) := by
  obtain ⟨-, -, -, hbase, -, -⟩ := hlegal
  rcases maintWrite_cases (T := localTarget) P s with ⟨hne, -⟩ | ⟨-, ⟨hbad, -⟩ | ⟨m', u, ok, hm', hwrite, hacc⟩⟩
  · exact absurd hlen hne
  · cases hmask.symm.trans hbad
  · cases hmask.symm.trans hm'
    refine ⟨u, ok, hacc, ?_⟩
    rw [writeDoubles_local (k := 0) P.payload (configAddress_eq P) rfl] at hwrite
    rw [← hwrite, ← hlen, Packet.payloadLen, Nat.mul_zero, ← List.range_eq_range']
    exact wordsWritten_foldl hm hbase m (by omega) _ _

/-- Settles O27: what the run over the words leaves in the table, and the response that says whether it failed. -/
theorem terminalWriteIsAnswered : Obligations.TerminalWriteIsAnswered := by
  intro s port f rest h tid off sp pl m hin hf hlegal hmem hwf hm cnt a slice
  obtain ⟨-, hpl⟩ := Bool.and_eq_true_iff.1 hwf
  obtain ⟨-, hlen⟩ := Bool.and_eq_true_iff.1 hpl
  obtain ⟨u, ok, hacc, hw⟩ := maintWrite_local (P := (Instr.maintWrReq h tid 0 off sp pl).toPacket) hmem hlegal hm
    (of_decide_eq_true hlen)
  obtain ⟨hp, hc, hfat, hi, ho⟩ := maintWrite_local_frame hacc
  rw [status_eq_toNat] at hacc
  obtain ⟨g, hg, hend⟩ := terminalWrite_of_access hlegal hwf hacc
  refine ⟨u.finish [.deliver port g] .responded, _, g, ?_, hg, fun hall => ?_, fun ⟨j, hj, hz, hout⟩ => ?_, ?_, ?_, hp, hc,
    hfat, fun d j hd hj ha => ?_, fun b hb => ?_⟩
  · rw [exec_of_notFatal _ hin hf, ← hend port]
    rfl
  · rw [if_pos (hw.ok_iff.2 hall)]
  · rw [if_neg fun hok => hout (hw.ok_iff.1 hok j hj hz)]
  · rw [State.finish_inbox, hi, hin, List.tail_cons]
  · rw [State.finish_outputs, ho]
    rfl
  · obtain ⟨hlt, hcalls⟩ := hj
    exact hw.entry_eq d j hlt hd hcalls ha
  · exact hw.byte_eq b fun j hj hcalls => hb j ⟨hj, hcalls⟩

end Sys2Proof.Machine
end

section
/-! SUPPORT. The local registers and the host's port: what each accessor answers and leaves unchanged, what the host's events
do, and the write request that reaches one entry (rules R230 to R234). -/

namespace Sys2Proof.Machine

open Sys2Proof

/-! ### The accessors -/

/-- An address names no entry exactly when it is misaligned or outside the table (rule R57). -/
theorem State.entryAt_eq_none_iff_not_implemented {s : State} {a : Nat} :
    s.entryAt a = none ↔ a % 4 ≠ 0 ∨ ¬ s.implemented a := by
  rw [State.entryAt_eq_none]
  unfold State.implemented
  omega

/-- An aligned implemented address names the entry at its distance from the base (rule R57). -/
theorem State.entryAt_of_implemented {s : State} {a : Nat} (ha : a % 4 = 0) (hin : s.implemented a) :
    s.entryAt a = some ((a - s.params.mapBase) / 4) := by
  obtain ⟨hlow, hhigh⟩ := hin
  exact State.entryAt_eq_some.2 ⟨ha, hlow, hhigh, rfl⟩

/-- `LOCAL.write32` on an address that names no entry (rule R231). -/
theorem State.localWrite32_of_none {s : State} {a : Nat} (h : s.entryAt a = none) (v m : Word) :
    s.localWrite32 a v m = (s, false) := by
  simp [State.localWrite32, h]

/-- `LOCAL.write32` changes the register space at most (rule R231). -/
theorem State.localWrite32_fst (s : State) (a : Nat) (v m : Word) :
    (s.localWrite32 a v m).1 = { s with mem := (s.localWrite32 a v m).1.mem } := by
  rcases s.localWrite32_cases a v m with ⟨-, h⟩ | ⟨d, -, h⟩
  · rw [h]
  · rw [h, State.setEntry]

/-- Settles O18: the two ways an address names no entry, and the entry it names otherwise. -/
theorem localReadRule : Obligations.LocalReadRule := by
  intro s a
  refine ⟨fun h => ?_, fun h => ?_, fun ha hin => ?_⟩
  · exact State.localRead32_of_none (State.entryAt_eq_none_iff_not_implemented.2 (.inl h))
  · exact State.localRead32_of_none (State.entryAt_eq_none_iff_not_implemented.2 (.inr h))
  · exact State.localRead32_of_some (State.entryAt_of_implemented ha hin)

/-- Settles O19: a write that does not fail is one entry set to the merged word. -/
theorem localWriteRule : Obligations.LocalWriteRule := by
  intro s a v m hm
  refine ⟨fun h => State.localWrite32_of_none (State.entryAt_eq_none_iff_not_implemented.2 h) v m, fun ha hin => ?_⟩
  refine ⟨_, State.localWrite32_of_some (State.entryAt_of_implemented ha hin) v m, ?_, rfl, rfl, rfl, rfl, rfl⟩
  rintro d rfl
  exact ⟨State.entry_setEntry_same hm _ _, fun b hb => Memory.readByte_writeWord_other _ hb⟩

/-! ### The host's events -/

/-- The end of an event, with the rest of the events named. -/
theorem State.endEvent_of_inbox {s : State} {e : Event} {rest : List Event} (h : s.inbox = e :: rest)
    (outs : List Output) : s.endEvent outs = { s with inbox := rest, outputs := s.outputs ++ outs } := by
  rw [State.endEvent, h, List.tail_cons]

section HostEvents

variable {s : State} {rest : List Event}

theorem step_of_hostRead {a : Nat} (h : s.inbox = .hostRead a :: rest) : step s = .next (hostReadEvent a s) := by
  simp only [step, h]

theorem step_of_hostWrite {a : Nat} {v m : Word} (h : s.inbox = .hostWrite a v m :: rest) :
    step s = .next (hostWriteEvent a v m s) := by
  simp only [step, h]

theorem step_of_hostStatus (h : s.inbox = .hostStatus :: rest) : step s = .next (hostStatusEvent s) := by
  simp only [step, h]

theorem step_of_reset (h : s.inbox = .reset :: rest) : step s = .next s.applyReset := by
  simp only [step, h]

/-- A host write is the accessor's effect on the register space and its answer (rule R232). -/
theorem hostWriteEvent_of_inbox {e : Event} (h : s.inbox = e :: rest) (a : Nat) (v m : Word) :
    hostWriteEvent a v m s =
      { s with mem := (s.localWrite32 a v m).1.mem, inbox := rest,
               outputs := s.outputs ++ [.hostWriteDone (s.localWrite32 a v m).2] } := by
  rw [hostWriteEvent, State.localWrite32_fst]
  exact State.endEvent_of_inbox (s := { s with mem := (s.localWrite32 a v m).1.mem }) h _

end HostEvents

/-- Settles O21: none of the four events looks at `fatal`. -/
theorem hostEventsAnswerAndChangeNothingElse : Obligations.HostEventsAnswerAndChangeNothingElse := by
  intro s rest a v m
  refine ⟨fun h => ?_, fun h => ?_, fun h => ?_, fun h => ?_⟩
  · rw [step_of_hostRead h, hostReadEvent, State.endEvent_of_inbox h]
  · rw [step_of_hostWrite h, hostWriteEvent_of_inbox h]
  · rw [step_of_hostStatus h, hostStatusEvent, State.endEvent_of_inbox h]
  · rw [step_of_reset h, State.applyReset, h, List.tail_cons]

/-! ### The write request that reaches one entry -/

/-- The span of one word selects that word of its double-word, whole, and not the other (rules R125, R171). -/
theorem rdwrDwMaskFromSpan_word {w : Nat} (hw : w < 2) :
    ∃ m, rdwrDwMaskFromSpan 4 (4 * w) = .ok m ∧ wmask m w = BitVec.allOnes 32 ∧ wmask m (1 - w) = 0 := by
  obtain rfl | rfl : w = 0 ∨ w = 1 := by omega
  · exact ⟨0x00000000FFFFFFFF, rfl, by decide, by decide⟩
  · exact ⟨0xFFFFFFFF00000000, rfl, by decide, by decide⟩

/-- A double-word write whose mask selects one word is one accessor call (rule R173). -/
theorem writeDouble_local_of_word {m : DWord} {w : Nat} (hw : w < 2) (hsel : wmask m w ≠ 0) (hother : wmask m (1 - w) = 0)
    (a : Nat) (x : DWord) (s : State) :
    writeDouble localTarget m a x s = s.localWrite32 (a + 4 * w) ((x >>> (32 * w)).setWidth 32) (wmask m w) := by
  obtain rfl | rfl : w = 0 ∨ w = 1 := by omega
  · simp only [writeDouble, writeLane, if_neg hsel, if_pos hother, localTarget]
    split <;> rename_i h <;> exact h.symm
  · simp only [writeDouble, writeLane, if_neg hsel, if_pos hother, localTarget]

/-- A write of one double-word that does not fail answers DONE (rules R173, R177). -/
theorem maintWrite_of_double {σ : Type} {T : Target σ} {P : Packet} {x : DWord} {m : DWord} {t u : σ}
    (hpl : P.payload = [x]) (hcnt : divCeil8 P.rdwrBytes = 1) (hmask : rdwrDwMaskFromSpan P.rdwrBytes P.dwOffset = .ok m)
    (h : writeDouble T m (8 * P.configOffset) x t = (u, true)) : maintWrite T P t = .ok ⟨u, statusDone, []⟩ := by
  simp only [maintWrite, Packet.payloadLen, hpl, hcnt, List.length_singleton, ne_eq, not_true, if_false, hmask,
    writeDoubles, configAddress_eq, h]

/-- A merge under the full write mask stores every non-reserved bit (rule R231). -/
theorem mergeEntry_allOnes (n old v : Word) : mergeEntry n old v (BitVec.allOnes 32) = (old &&& ~~~n) ||| (v &&& n) := by
  rw [mergeEntry, BitVec.allOnes_and]

/-- Settles O30: the request is one `LOCAL.write32`, at the address of entry `d` and under the full mask. -/
theorem fourByteWriteReachesItsEntry : Obligations.FourByteWriteReachesItsEntry := by
  rintro s d v x hm hbase hd rfl
  obtain ⟨m, hmask, hsel, hother⟩ := rdwrDwMaskFromSpan_word (Nat.mod_lt d two_pos)
  have haddr : 8 * (d / 2) + 4 * (d % 2) = s.entryAddress d := by
    rw [State.entryAddress]
    omega
  have hwrite := writeDouble_local_of_word (Nat.mod_lt d two_pos) (by rw [hsel]; decide) hother (8 * (d / 2)) x s
  rw [haddr, hsel, State.localWrite32_of_some (State.entryAt_entryAddress (by omega) hd), mergeEntry_allOnes] at hwrite
  refine ⟨_, maintWrite_of_double rfl (by simp [divCeil8]) hmask hwrite, rfl, State.entry_setEntry_same hm _ _,
    fun e he => State.entry_setEntry_other _ he⟩

end Sys2Proof.Machine
end

section
/-! SUPPORT. Terminal requests that break the translator's invariants: what they do to the state (rules R174, R198, R254). -/

namespace Sys2Proof.Machine

open Sys2Proof

/-- A write whose payload length or span is illegal is an error of the translator, whichever of the two it is (rule R174). -/
theorem maintWrite_error_of_illegal {σ : Type} (T : Target σ) {P : Packet} (t : σ)
    (h : P.payload.length ≠ divCeil8 P.rdwrBytes ∨ rdwrDwMaskFromSpan P.rdwrBytes P.dwOffset = .error .badSpan) :
    ∃ e, maintWrite T P t = .error e := by
  obtain ⟨hpayload, hspan, -⟩ := illegalRequestsAreFatalToTheTranslator σ T P t
  by_cases hlen : P.payload.length = divCeil8 P.rdwrBytes
  · exact ⟨_, hspan hlen (h.resolve_left fun hne => hne hlen)⟩
  · exact ⟨_, hpayload hlen⟩

/-- An error of the translator ends the event with the fatal flag set and nothing delivered, whatever the error (rules R198,
R254). -/
theorem respond_error {s : State} {ev : Event} {rest : List Event} (hin : s.inbox = ev :: rest) (port : Nat) (P : Packet)
    (e : FatalReason) : respond port P (.error e) s = ({ s with fatal := true } : State).ended rest [] .fatal := by
  calc respond port P (.error e) s
      = s.setFatal.finish [] .fatal := rfl
    _ = s.setFatal.ended rest [] .fatal := finish_eq_ended (s.setFatal_inbox.trans hin) [] .fatal
    _ = ({ s with fatal := true } : State).ended rest [] .fatal := rfl

/-- With hop count 0 a read request is handled here (rule R198). -/
theorem handle_terminalRead (h : Header) (tid : BitVec 8) (off : BitVec 21) (sp : Span) (port : Nat) (f : Frame) (s : State) :
    handle (.maintRdReq h tid 0 off sp) port f s = terminalRead port (Instr.maintRdReq h tid 0 off sp).toPacket s := rfl

/-- With hop count 0 a write request is handled here (rule R198). -/
theorem handle_terminalWrite (h : Header) (tid : BitVec 8) (off : BitVec 21) (sp : Span) (pl : List DWord) (port : Nat)
    (f : Frame) (s : State) :
    handle (.maintWrReq h tid 0 off sp pl) port f s =
      terminalWrite port (Instr.maintWrReq h tid 0 off sp pl).toPacket s := rfl

/-- Settles O29: the translator answers an error before any access, and every such error ends the event the same way. -/
theorem illegalTerminalRequestSetsFatal : Obligations.IllegalTerminalRequestSetsFatal := by
  intro s port f rest h tid off sp pl hin hf
  refine ⟨fun hspan => ?_, fun hillegal => ?_⟩
  · obtain ⟨-, -, hread⟩ :=
      illegalRequestsAreFatalToTheTranslator State localTarget (Instr.maintRdReq h tid 0 off sp).toPacket s
    rw [exec_of_notFatal _ hin hf, handle_terminalRead, terminalRead, hread hspan, respond_error hin]
  · obtain ⟨e, hwrite⟩ :=
      maintWrite_error_of_illegal localTarget (P := (Instr.maintWrReq h tid 0 off sp pl).toPacket) s hillegal
    rw [exec_of_notFatal _ hin hf, handle_terminalWrite, terminalWrite, hwrite, respond_error hin]

end Sys2Proof.Machine
end

section
/-! SUPPORT. Straight after reset: an empty register space maps no destination, and a maintenance request that is decoded at
the end of its way is answered (rules R194, R198, R281, R282). -/

namespace Sys2Proof.Machine

open Sys2Proof

/-! ### The empty register space -/

/-- With no byte listed every entry is 0 (rule R36). -/
theorem State.entry_of_mem_nil {s : State} (h : s.mem = []) (d : Nat) : s.entry d = 0 := by
  simp only [State.entry, h, Memory.readWord, Memory.readByte_nil, Memory.blank]
  rfl

/-- An entry that is 0 is not valid (rules R25, R194). -/
theorem State.unmapped_of_mem_nil {s : State} (h : s.mem = []) (d : Nat) : s.unmapped d :=
  .inr (by rw [State.entry_of_mem_nil h]; rfl)

/-- Settles O22. -/
theorem resetEventRestoresEveryPieceOfState : Obligations.ResetEventRestoresEveryPieceOfState :=
  fun s _ hin => ⟨s.applyReset, step_of_reset hin, State.entry_of_mem_nil s.applyReset_mem, s.applyReset_malformedCnt,
    s.applyReset_fatal, s.applyReset_params⟩

/-! ### Terminal requests that decode -/

section Arrival

variable {s : State} {port : Nat} {f : Frame} {rest : List Event} (hin : s.inbox = .ingress port f :: rest)
  (hf : s.fatal = false) (hlegal : s.params.Legal)

include hin hf hlegal

/-- A well-formed terminal read is answered, whether or not every word is implemented (rules R172, R198). -/
theorem exec_terminalRead_responds {h : Header} {tid : BitVec 8} {off : BitVec 21} {sp : Span}
    (hwf : (Instr.maintRdReq h tid 0 off sp).wf s.params = true) :
    ∃ t g, exec (.maintRdReq h tid 0 off sp) s = .next t ∧
      t.outputs = s.outputs ++ [.deliver port g, .ended .responded] := by
  obtain ⟨-, hspan⟩ := Bool.and_eq_true_iff.1 hwf
  obtain ⟨m, hm⟩ := exists_mask_of_span_wf hspan
  obtain ⟨hdone, herror⟩ := terminalReadIsAnswered s port f rest h tid off sp m hin hf hlegal hwf hm
  by_cases hfail : ∃ j, j < 2 * divCeil8 sp.rdwrBytes ∧ laneMask m j ≠ 0 ∧ ¬ s.implemented (8 * off.toNat + 4 * j)
  · obtain ⟨g, -, hexec⟩ := herror hfail
    exact ⟨_, g, hexec, rfl⟩
  · obtain ⟨g, -, hexec⟩ := hdone fun j hj hmask => Decidable.not_not.1 fun hout => hfail ⟨j, hj, hmask, hout⟩
    exact ⟨_, g, hexec, rfl⟩

/-- A well-formed terminal write is answered (rules R173, R198). -/
theorem exec_terminalWrite_responds (hmem : s.mem.wf = true) {h : Header} {tid : BitVec 8} {off : BitVec 21} {sp : Span}
    {pl : List DWord} (hwf : (Instr.maintWrReq h tid 0 off sp pl).wf s.params = true) :
    ∃ t g, exec (.maintWrReq h tid 0 off sp pl) s = .next t ∧
      t.outputs = s.outputs ++ [.deliver port g, .ended .responded] := by
  obtain ⟨-, hpl⟩ := Bool.and_eq_true_iff.1 hwf
  obtain ⟨hspan, -⟩ := Bool.and_eq_true_iff.1 hpl
  obtain ⟨m, hm⟩ := exists_mask_of_span_wf hspan
  obtain ⟨t, -, g, hexec, -, -, -, -, hout, -⟩ :=
    terminalWriteIsAnswered s port f rest h tid off sp pl m hin hf hlegal hmem hwf hm
  exact ⟨t, g, hexec, hout⟩

/-- A maintenance request that decodes with no hops left is answered on the port it arrived on (rules R191, R198). -/
theorem step_terminalRequest_responds (hp : port < s.params.nPorts) (hmem : s.mem.wf = true) {P : Packet} {n : Nat}
    (hdec : decodePacket s.params f = .ok (P, n)) (hft : P.ftype = 8) (hhop : P.hopCount = 0) (htr : P.transaction ≤ 1) :
    ∃ t g, step s = .next t ∧ t.outputs = s.outputs ++ [.deliver port g, .ended .responded] := by
  obtain ⟨i, hi, rfl⟩ := exists_decode_of_decodePacket hdec
  obtain ⟨hwf, -⟩ := decodedInstructionsAreWellFormed _ _ _ _ hi
  rw [stepRunsTheDecodedInstruction s port f rest i n hin hp hi]
  cases i with
  | maintRdReq h tid hop off sp =>
    obtain rfl := toNat_eq_zero_iff.1 hhop
    exact exec_terminalRead_responds hin hf hlegal hwf
  | maintWrReq h tid hop off sp pl =>
    obtain rfl := toNat_eq_zero_iff.1 hhop
    exact exec_terminalWrite_responds hin hf hlegal hmem hwf
  | maintRdResp | maintWrResp => exact absurd htr (of_decide_eq_false rfl)
  | _ => cases hft

end Arrival

/-! ### The obligation -/

/-- Settles O43: with no destination mapped both forwards end unmapped; the other two cases do not look at the table. -/
theorem straightAfterReset : Obligations.StraightAfterReset := by
  intro p port f hlegal hp s
  have hin : s.inbox = [.ingress port f] := rfl
  have hunmapped : ∀ d, s.unmapped d := State.unmapped_of_mem_nil rfl
  refine ⟨fun H c hhead hft => ?_, fun P n hdec hft hhop => ?_, fun P n hdec hft hhop htr => ?_, fun H c r hbad => ?_⟩
  · obtain ⟨hdrop, -⟩ := nonMaintenanceFramesAreForwardedBlind s port f [] H c hin hp rfl hhead hft
    exact hdrop (hunmapped _)
  · obtain ⟨k, _, hread, -⟩ := isReadFrom_of_decodePacket hdec
    obtain ⟨-, -, -, -, -, hdrop, -⟩ :=
      forwardedMaintenanceFrameBitByBit s port f [] P n k hin hp rfl hdec hft hhop hread.kind_eq
    exact hdrop (hunmapped _)
  · exact step_terminalRequest_responds hin rfl hlegal hp rfl hdec hft hhop htr
  · have hstep := malformedFramesAreCountedAndDropped s port f [] r hin hp rfl
      (hbad.imp_right fun hbody => ⟨H, c, hbody⟩)
    exact ⟨_, hstep, rfl, rfl⟩

end Sys2Proof.Machine
end
